-- ==== Sys2Proof/Word.lean ====
section
/-! DEFINITION. The words of the machine: request words, bytes, nibbles and DDRAM addresses (00_scope.md R12, 30_encoding.md R60). -/

namespace Sys2Proof

/-- An 8-bit value: a control byte, or a byte for the controller (R43, R87). -/
abbrev Byte := BitVec 8

/-- A 4-bit half of a byte (R19). -/
abbrev Nibble := BitVec 4

/-- A request word, `req[23:0]` (R60). -/
abbrev ReqWord := BitVec 24

/-- A DDRAM address, 7 bits (R49). -/
abbrev DdramAddr := BitVec 7

end Sys2Proof
end

