-- ==== Sys2Proof/Config.lean ====
section
/-! DEFINITION. The implementation parameters of 00_scope.md R9, each one a field, with the defaults and the constraints the rule gives. -/

namespace Sys2Proof

/-- `P_FAIL_SCOPE`: what a bus failure aborts beyond its nibble (R9, R84). -/
inductive FailScope where
  | nibble
  | byte
  deriving DecidableEq, Repr

/-- The parameters of R9. Times are in µs. They are fixed when the hardware is built (R25). -/
structure Config where
  /-- `RS_BIT`, the position of register-select in the control byte -/
  rsBit : Fin 4
  /-- `RW_BIT`, the position of read/write -/
  rwBit : Fin 4
  /-- `EN_BIT`, the position of enable -/
  enBit : Fin 4
  /-- `BL_BIT`, the position of backlight -/
  blBit : Fin 4
  /-- `T_EN_US` -/
  tEn : Nat
  /-- `T_HOLD_US` -/
  tHold : Nat
  /-- `T_SETTLE_US` -/
  tSettle : Nat
  /-- `T_POWERON_US` -/
  tPowerOn : Nat
  /-- `T_FORCE1_US` -/
  tForce1 : Nat
  /-- `T_FORCE2_US` -/
  tForce2 : Nat
  /-- `T_FORCE3_US` -/
  tForce3 : Nat
  /-- `T_SWITCH4_US` -/
  tSwitch4 : Nat
  /-- `T_CLEAR_US` -/
  tClear : Nat
  /-- `P_FAIL_SCOPE` -/
  failScope : FailScope
  /-- `F_CLK_HZ`, OPEN in R9 -/
  fClkHz : Nat
  /-- the width of the delay counter in bits: R20 and R171 leave it to the implementation, and
  93_implementation_defined.md lists it as a parameter (OPEN) -/
  delayWidth : Nat
  /-- `EXPANDER_ADDR`, OPEN in R9; the block never uses it (R172) -/
  expanderAddr : BitVec 7
  /-- `MAX_WRITE` -/
  maxWrite : Nat
  deriving DecidableEq, Repr

/-- Every wait the block makes, in µs. -/
def Config.waits (c : Config) : List Nat :=
  [c.tEn, c.tHold, c.tSettle, c.tPowerOn, c.tForce1, c.tForce2, c.tForce3, c.tSwitch4, c.tClear]

/-- The constraints R9 puts on the parameters, and R171's on the counter's width: "large enough for the longest wait".
The rule calls that `T_POWERON_US`; a configuration may make another wait the longest, so each one must fit (log 28). -/
abbrev Config.Wf (c : Config) : Prop :=
  (c.rsBit ≠ c.rwBit ∧ c.rsBit ≠ c.enBit ∧ c.rsBit ≠ c.blBit ∧
    c.rwBit ≠ c.enBit ∧ c.rwBit ≠ c.blBit ∧ c.enBit ≠ c.blBit) ∧
  (1 ≤ c.tEn ∧ 1 ≤ c.tHold ∧ 1 ≤ c.tSettle ∧ 40000 ≤ c.tPowerOn ∧ 1 ≤ c.tForce1 ∧
    1 ≤ c.tForce2 ∧ 1 ≤ c.tForce3 ∧ 1 ≤ c.tSwitch4 ∧ 1520 ≤ c.tClear) ∧
  0 < c.fClkHz ∧ 1 ≤ c.maxWrite ∧
  ∀ t ∈ c.waits, t * c.fClkHz ≤ (2 ^ c.delayWidth - 1) * 1000000

/-- The free value behind `F_CLK_HZ` (R9: OPEN, > 0); it has no body, so nothing can evaluate it (log 7). -/
opaque Config.openClkLessOne : Nat

/-- The free value behind `EXPANDER_ADDR` (R9: OPEN, 7-bit); it has no body (log 7). -/
opaque Config.openExpanderAddr : BitVec 7

/-- The free value behind the delay counter's width (93_implementation_defined.md: OPEN); it has no body (log 7). -/
opaque Config.openWidthLessOne : Nat

/-- The fastest clock at which a counter of `w` bits holds the default `T_POWERON_US`, 40 ms: 25 times its greatest count
(R171, R190). -/
def Config.fastestClk (w : Nat) : Nat := 25 * (2 ^ w - 1)

/-- Every default of R9; the three OPEN parameters are the free values above. A width and a clock frequency are free
together as far as R171 lets them: every pair it allows is a value of these two fields, and no other (log 7). -/
def Config.standard : Config where
  rsBit := 0
  rwBit := 1
  enBit := 2
  blBit := 3
  tEn := 50
  tHold := 50
  tSettle := 50
  tPowerOn := 40000
  tForce1 := 5000
  tForce2 := 150
  tForce3 := 150
  tSwitch4 := 2000
  tClear := 2000
  failScope := .nibble
  fClkHz := min (Config.openClkLessOne + 1) (Config.fastestClk (Config.openWidthLessOne + 1))
  delayWidth := Config.openWidthLessOne + 1
  expanderAddr := Config.openExpanderAddr
  maxWrite := 64

end Sys2Proof
end

