-- ==== Sys2Proof/Syntax.lean ====
section
/-! DEFINITION. The instructions: one constructor per row of spec/opcode_table.json (30_encoding.md R62, R64, R66). -/

namespace Sys2Proof

/-- Register-select, `rs`: 0 is Command, 1 is Data (R18). -/
inductive RegSel where
  | command
  | data
  deriving DecidableEq, Repr

/-- The format column of the table: a 24-bit request, or one of the three forms of a transfer to the HD44780. -/
inductive Format where
  /-- `REQ24`, a request word (R60) -/
  | req24
  /-- `HD44780_NIBBLE`, a single Command nibble (R72) -/
  | nibble
  /-- `HD44780_CMD`, an instruction byte, RS = 0 (R66) -/
  | command
  /-- `HD44780_DATA`, a character byte, RS = 1 (R73) -/
  | character
  deriving DecidableEq, Repr

/-- The instructions. The first five are the requests of R62, the next three the reserved rows of R64, and the
last eight the transfers of R66 that the block emits (log 8). -/
inductive Instr where
  /-- `NIB rs, n` (R86) -/
  | nib (rs : RegSel) (n : Nibble)
  /-- `BYTE rs, v` (R87) -/
  | byte (rs : RegSel) (v : Byte)
  /-- `INIT` (R100) -/
  | init
  /-- `GOTO row, col` (R120) -/
  | goto (row col : Byte)
  /-- `CLEAR` (R125) -/
  | clear
  /-- reserved, OP = 0x0 (R64), with the word's other bits -/
  | reservedZero (rest : BitVec 20)
  /-- reserved, OP = 0x6 or 0x7 (R64) -/
  | reservedSixSeven (op : BitVec 4) (rest : BitVec 20)
  /-- reserved, OP = 0x8 to 0xF (R64) -/
  | reservedHigh (op : BitVec 4) (rest : BitVec 20)
  /-- FORCE8, Command nibble 0x3 (R72) -/
  | force8
  /-- SWITCH4, Command nibble 0x2 (R72) -/
  | switch4
  /-- FUNCTION_SET, 0x28 (R67) -/
  | functionSet
  /-- DISPLAY_CONTROL, 0x0C (R68) -/
  | displayControl
  /-- ENTRY_MODE_SET, 0x06 (R69) -/
  | entryModeSet
  /-- CLEAR_DISPLAY, 0x01 (R70) -/
  | clearDisplay
  /-- SET_DDRAM_ADDR, `0x80 | a` (R71) -/
  | setDdramAddr (a : DdramAddr)
  /-- CHAR_DATA, any byte with RS = 1 (R73) -/
  | charData (v : Byte)
  deriving DecidableEq, Repr

/-- Whether the instruction is a transfer of R66 (an output-side row), not a request. -/
def Instr.isTransfer : Instr → Bool
  | .nib _ _ | .byte _ _ | .init | .goto _ _ | .clear => false
  | .reservedZero _ | .reservedSixSeven _ _ | .reservedHigh _ _ => false
  | .force8 | .switch4 | .functionSet | .displayControl | .entryModeSet | .clearDisplay => true
  | .setDdramAddr _ | .charData _ => true

end Sys2Proof
end

