-- ==== Sys2Proof/WellFormed.lean ====
section
/-! DEFINITION. Which terms of Instr stand for a row of the table: the widths are in the types, so what is left to
check is that a reserved row's operation code lies in that row (30_encoding.md R64). -/

namespace Sys2Proof

/-- Why a term stands for no row. -/
inductive IllFormed where
  /-- the operation code of `reservedSixSeven` is neither 6 nor 7 -/
  | notSixOrSeven
  /-- the operation code of `reservedHigh` is below 8 -/
  | belowEight
  deriving DecidableEq, Repr

/-- The check: `none` when the term is well formed, otherwise what is wrong. -/
def Instr.illFormed : Instr → Option IllFormed
  | .reservedSixSeven op _ => if op = 6#4 ∨ op = 7#4 then none else some .notSixOrSeven
  | .reservedHigh op _ => if 8 ≤ op.toNat then none else some .belowEight
  | .nib _ _ | .byte _ _ | .init | .goto _ _ | .clear | .reservedZero _ => none
  | .force8 | .switch4 | .functionSet | .displayControl | .entryModeSet | .clearDisplay => none
  | .setDdramAddr _ | .charData _ => none

/-- A term that stands for a row of the table. -/
abbrev Instr.WellFormed (i : Instr) : Prop := i.illFormed = none

end Sys2Proof
end

