-- ==== Sys2Proof/Decode.lean ====
section
/-! DEFINITION. Decoding a request word (30_encoding.md R60-R64) and a transfer to the HD44780 (R66-R73), total, and
the encoder written from the same rows. -/

namespace Sys2Proof

/-! ### Fields of a request word (R60, R61) -/

/-- `req.OP = req[23:20]`. -/
def opField (w : ReqWord) : BitVec 4 := w.extractLsb' 20 4

/-- `RSV = req[19:17]`. -/
def rsvField (w : ReqWord) : BitVec 3 := w.extractLsb' 17 3

/-- `req.RS = req[16]`: 0 is Command, 1 is Data. -/
def rsField (w : ReqWord) : RegSel := if w.getLsbD 16 then .data else .command

/-- `req.A = req[15:8]`. -/
def aField (w : ReqWord) : Byte := w.extractLsb' 8 8

/-- `req.B = req[7:0]`. -/
def bField (w : ReqWord) : Byte := w.extractLsb' 0 8

/-- `B[3:0]`, the nibble of NIB. -/
def nibbleField (w : ReqWord) : Nibble := w.extractLsb' 0 4

/-- Bits 19:0, what a reserved row leaves free. -/
def restField (w : ReqWord) : BitVec 20 := w.extractLsb' 0 20

/-! ### Decoding -/

/-- Why a decoder refuses. -/
inductive DecodeError where
  /-- a request word with an assigned OP and a nonzero reserved field (R64): ILLEGAL -/
  | reservedFieldNonzero
  /-- a transfer that R66 does not list -/
  | noSuchTransfer
  deriving DecidableEq, Repr

/-- What a decoder answers. -/
inductive Decoded where
  | instr (i : Instr)
  | error (e : DecodeError)
  deriving DecidableEq, Repr

/-- "a word `w` spells the operation exactly when `(w & mask) = match`" (R62). -/
def fits (w mask mtch : ReqWord) : Bool := w &&& mask == mtch

/-- The decoder of R63 over the rows of R62, then the reserved rows of R64. A word none of them takes is ILLEGAL
for a nonzero reserved field. -/
def decodeRequest (w : ReqWord) : Decoded :=
  if fits w 0xFEFFF0#24 0x100000#24 then .instr (.nib (rsField w) (nibbleField w))
  else if fits w 0xFEFF00#24 0x200000#24 then .instr (.byte (rsField w) (bField w))
  else if fits w 0xFFFFFF#24 0x300000#24 then .instr .init
  else if fits w 0xFF0000#24 0x400000#24 then .instr (.goto (aField w) (bField w))
  else if fits w 0xFFFFFF#24 0x500000#24 then .instr .clear
  else if fits w 0xF00000#24 0x000000#24 then .instr (.reservedZero (restField w))
  else if fits w 0xE00000#24 0x600000#24 then .instr (.reservedSixSeven (opField w) (restField w))
  else if fits w 0x800000#24 0x800000#24 then .instr (.reservedHigh (opField w) (restField w))
  else .error .reservedFieldNonzero

/-- A single-nibble transfer (R72); `w` holds the nibble, all other bits 0. -/
def decodeNibble (w : ReqWord) : Decoded :=
  if w = 0x3#24 then .instr .force8
  else if w = 0x2#24 then .instr .switch4
  else .error .noSuchTransfer

/-- An instruction byte the block emits (R66-R71); `w` holds the byte, all other bits 0. -/
def decodeCommand (w : ReqWord) : Decoded :=
  if w = 0x28#24 then .instr .functionSet
  else if w = 0x0C#24 then .instr .displayControl
  else if w = 0x06#24 then .instr .entryModeSet
  else if w = 0x01#24 then .instr .clearDisplay
  else if fits w 0xFFFF80#24 0x000080#24 then .instr (.setDdramAddr (w.extractLsb' 0 7))
  else .error .noSuchTransfer

/-- A character byte (R73); `w` holds the byte, all other bits 0. -/
def decodeCharacter (w : ReqWord) : Decoded :=
  if fits w 0xFFFF00#24 0x000000#24 then .instr (.charData (bField w))
  else .error .noSuchTransfer

/-- The decoder, total on every word of every format. No state changes how a word decodes (R74). -/
def decode (f : Format) (w : ReqWord) : Decoded :=
  match f with
  | .req24 => decodeRequest w
  | .nibble => decodeNibble w
  | .command => decodeCommand w
  | .character => decodeCharacter w

/-! ### Encoding -/

/-- The RS bit of a word: 0 for Command, 1 for Data (R60). -/
def RegSel.bit : RegSel → BitVec 1
  | .command => 0#1
  | .data => 1#1

/-- `r` in bit 16 and nothing else. -/
def rsWord (rs : RegSel) : ReqWord := rs.bit.zeroExtend 24 <<< 16

/-- The word of an instruction, from R62's encoding column, R64's rows and R66's values. -/
def encodeWord : Instr → ReqWord
  | .nib rs n => 0x100000#24 ||| rsWord rs ||| n.zeroExtend 24
  | .byte rs v => 0x200000#24 ||| rsWord rs ||| v.zeroExtend 24
  | .init => 0x300000#24
  | .goto row col => 0x400000#24 ||| (row.zeroExtend 24 <<< 8) ||| col.zeroExtend 24
  | .clear => 0x500000#24
  | .reservedZero rest => rest.zeroExtend 24
  | .reservedSixSeven op rest => (op.zeroExtend 24 <<< 20) ||| rest.zeroExtend 24
  | .reservedHigh op rest => (op.zeroExtend 24 <<< 20) ||| rest.zeroExtend 24
  | .force8 => 0x3#24
  | .switch4 => 0x2#24
  | .functionSet => 0x28#24
  | .displayControl => 0x0C#24
  | .entryModeSet => 0x06#24
  | .clearDisplay => 0x01#24
  | .setDdramAddr a => 0x80#24 ||| a.zeroExtend 24
  | .charData v => v.zeroExtend 24

/-- The format of an instruction's word, the table's format column. -/
def encodeFormat : Instr → Format
  | .nib _ _ | .byte _ _ | .init | .goto _ _ | .clear => .req24
  | .reservedZero _ | .reservedSixSeven _ _ | .reservedHigh _ _ => .req24
  | .force8 | .switch4 => .nibble
  | .functionSet | .displayControl | .entryModeSet | .clearDisplay | .setDdramAddr _ => .command
  | .charData _ => .character

/-- The encoder: the format and the word of an instruction. -/
def encode (i : Instr) : Format × ReqWord := (encodeFormat i, encodeWord i)

/-! ### The table's words -/

/-- The match and mask of an instruction's row in spec/opcode_table.json, as 24-bit values. -/
def rowMatchMask : Instr → ReqWord × ReqWord
  | .nib _ _ => (0x100000#24, 0xFEFFF0#24)
  | .byte _ _ => (0x200000#24, 0xFEFF00#24)
  | .init => (0x300000#24, 0xFFFFFF#24)
  | .goto _ _ => (0x400000#24, 0xFF0000#24)
  | .clear => (0x500000#24, 0xFFFFFF#24)
  | .reservedZero _ => (0x000000#24, 0xF00000#24)
  | .reservedSixSeven _ _ => (0x600000#24, 0xE00000#24)
  | .reservedHigh _ _ => (0x800000#24, 0x800000#24)
  | .force8 => (0x3#24, 0xF#24)
  | .switch4 => (0x2#24, 0xF#24)
  | .functionSet => (0x28#24, 0xFF#24)
  | .displayControl => (0x0C#24, 0xFF#24)
  | .entryModeSet => (0x06#24, 0xFF#24)
  | .clearDisplay => (0x01#24, 0xFF#24)
  | .setDdramAddr _ => (0x80#24, 0x80#24)
  | .charData _ => (0x00#24, 0x00#24)

/-- The format a word of the table is read in. The table gives a transfer's row 4 or 8 bits and no format bit, so
for words of at most 8 bits the first row in table order that takes the word decides: a single nibble, then an
instruction byte, then a character (DESIGN CHOICE, log 9). Longer words are requests. -/
def tableFormat (nbits w : Nat) : Format :=
  if 8 < nbits then .req24
  else match decodeNibble (BitVec.ofNat 24 w) with
    | .instr _ => .nibble
    | .error _ => match decodeCommand (BitVec.ofNat 24 w) with
      | .instr _ => .command
      | .error _ => .character

/-- The instruction the decoder reads from a word of spec/opcode_table.json: bit 0 is the least significant bit,
and the bits above `nbits` are 0. -/
def decodeTableWord (nbits w : Nat) : Option Instr :=
  match decode (tableFormat nbits w) (BitVec.ofNat 24 w) with
  | .instr i => some i
  | .error _ => none

end Sys2Proof
end

