-- ==== Sys2Proof/Machine/Operands.lean ====
section
/-! DEFINITION. The arithmetic of the block (40_nibble_byte.md R88): control bytes, nibble split, row clamp, DDRAM
address and the set-address instruction. -/

namespace Sys2Proof.Machine

/-! ### Control bytes (R43-R45, R80) -/

/-- `X_MASK = 1 << X_BIT` (R43). -/
def bitMask (b : Fin 4) : Byte := 1#8 <<< b.val

/-- `RS_MASK` for Data, 0 for Command (R80). -/
def rsMask (c : Config) : RegSel → Byte
  | .command => 0#8
  | .data => bitMask c.rsBit

/-- `base = (zext_8(n) << 4) | BL_MASK | (rs = 1 ? RS_MASK : 0)` (R80): enable clear, backlight on, R/W 0. -/
def controlBase (c : Config) (n : Nibble) (rs : RegSel) : Byte :=
  (n.zeroExtend 8 <<< 4) ||| bitMask c.blBit ||| rsMask c rs

/-- The first write of a nibble, `base | EN_MASK` (R80). -/
def strobeHigh (c : Config) (n : Nibble) (rs : RegSel) : Byte :=
  controlBase c n rs ||| bitMask c.enBit

/-- The second write of a nibble, `base & ~EN_MASK` (R80). -/
def strobeLow (c : Config) (n : Nibble) (rs : RegSel) : Byte :=
  controlBase c n rs &&& ~~~ bitMask c.enBit

/-- `v[7:4]`, sent first (R46, R83). -/
def highNibble (v : Byte) : Nibble := v.extractLsb' 4 4

/-- `v[3:0]`, sent second (R46, R83). -/
def lowNibble (v : Byte) : Nibble := v.extractLsb' 0 4

/-! ### The cursor address mapper (R27, R121-R123) -/

/-- `r = min(row, 3)`, unsigned (R121). -/
def clampRow (row : Byte) : Fin 4 := ⟨min row.toNat 3, by omega⟩

/-- The constant table `ROW_OFFSET` (R27). -/
def rowOffset : Fin 4 → DdramAddr
  | 0 => 0x00#7
  | 1 => 0x40#7
  | 2 => 0x14#7
  | 3 => 0x54#7

/-- `addr = (ROW_OFFSET[r] + col) mod 128`, the sum exact (R122). -/
def ddramAddr (row col : Byte) : DdramAddr :=
  BitVec.ofNat 7 ((rowOffset (clampRow row)).toNat + col.toNat)

/-- SET_DDRAM_ADDR, `0x80 | a` (R71, R123). -/
def setAddrCommand (a : DdramAddr) : Byte := 0x80#8 ||| a.zeroExtend 8

/-! ### The delay counter's load (R190) -/

/-- `ceil(t × F_CLK_HZ / 1,000,000)`, the least count a wait of `t` µs loads. -/
def minCount (c : Config) (t : Nat) : Nat := (t * c.fClkHz + 999999) / 1000000

/-- The greatest count the counter holds (R171). Irreducible, so that no comparison of two counts computes the power. -/
@[irreducible] def maxCount (c : Config) : Nat := 2 ^ c.delayWidth - 1

/-- What a wait of `t` µs loads: the least count plus the drawn `extra`, a draw beyond the counter cut to what it holds
(R190 "at least", log 28). -/
def loadCount (c : Config) (t extra : Nat) : Nat := min (minCount c t + extra) (maxCount c)

end Sys2Proof.Machine
end

