-- ==== Sys2Proof/Machine/State.lean ====
section
/-! DEFINITION. The state of the block and of its environment as plain data, the reasons a step can stop, and the
state after reset (10_state.md R20-R32, 45_host_frontends.md R141-R153, 70_reset_and_hazards.md R181). -/

namespace Sys2Proof.Machine

/-! ### The bus port -/

/-- The transport's answer to one write (R42). After a failure the expander's pins hold the new byte or the old one
(93_implementation_defined.md, D29): `landed` says which, a draw that comes with the answer. -/
inductive Answer where
  | ok
  | fail (landed : Bool)
  deriving DecidableEq, Repr

/-- One event of a trace (R14-R16). A write carries the answer that ended it, as the test vectors mark `W(v)!`. -/
inductive Event where
  /-- `W(v)`, answered -/
  | write (v : Byte) (a : Answer)
  /-- `D(t)`, at least `us` µs -/
  | wait (us : Nat)
  deriving DecidableEq, Repr

/-- An event as R16 compares it: `W(v)` or `D(t)`, without the transport's answer. -/
inductive PortEvent where
  /-- `W(v)` -/
  | write (v : Byte)
  /-- `D(t)` -/
  | wait (us : Nat)
  deriving DecidableEq, Repr

/-! ### The block's registers -/

/-- The values of `s.init_state` (R26). The codes 0xB to 0xF are never written and have no constructor (log 22). -/
inductive InitState where
  | uninit
  | powerOnWait
  | force81
  | force82
  | force83
  | switch4
  | functionSet
  | displayControl
  | entryModeSet
  | clear
  | ready
  deriving DecidableEq, Repr

/-- The numeric code of an initialization state (R26). -/
def InitState.code : InitState → BitVec 4
  | .uninit => 0x0#4
  | .powerOnWait => 0x1#4
  | .force81 => 0x2#4
  | .force82 => 0x3#4
  | .force83 => 0x4#4
  | .switch4 => 0x5#4
  | .functionSet => 0x6#4
  | .displayControl => 0x7#4
  | .entryModeSet => 0x8#4
  | .clear => 0x9#4
  | .ready => 0xA#4

/-- The sequencer's position (R23): idle, or the operation and the index of the next event in its event list. -/
inductive Seq where
  | idle
  | running (op : Instr) (k : Nat)
  deriving DecidableEq, Repr

/-- Something presented at a port: a request word and, where a host thread presented it, that thread's number. The
transfer formats are the model's own way to run a row of R66 by itself (log 8); no step presents one. -/
structure Offer where
  owner : Option Nat
  format : Format
  word : ReqWord
  deriving DecidableEq, Repr

/-! ### The host agents -/

/-- The argument of a parameter set: an integer, or something the setter's validation rejects (R148-R150). -/
inductive ParamValue where
  | int (x : Int)
  | notInteger
  deriving DecidableEq, Repr

/-- A host call (R142, R148-R150). `copied` is the draw of R143: how many bytes the copy yields. -/
inductive HostCall where
  | write (buf : List Byte) (len copied : Nat)
  | setRow (x : ParamValue)
  | setCol (x : ParamValue)
  | setClear (x : ParamValue)
  deriving DecidableEq, Repr

/-- How a host call returned (R142, R145, R146, R148-R150). -/
inductive HostResult where
  /-- `DeviceBusy`: the write lock was held -/
  | deviceBusy
  /-- a write returned the count of bytes consumed -/
  | consumed (k : Nat)
  /-- the value was no integer -/
  | rejected
  /-- a negative row -/
  | refused
  /-- a set completed -/
  | done
  deriving DecidableEq, Repr

/-- What a host call has left to do. Each constructor but `returned` and the three that await a response names the
next atomic host step. -/
inductive Thread where
  /-- try the lock (R142) -/
  | writeLock (buf : List Byte) (len copied : Nat)
  /-- copy from the caller's buffer (R143) -/
  | writeCopy (buf : List Byte) (len copied : Nat)
  /-- issue the next copied byte, or free the lock and return `k` (R144, R145) -/
  | writing (left : List Byte) (k : Nat)
  /-- a byte's request has not been answered yet -/
  | writeAwait (left : List Byte) (k : Nat)
  /-- step 1 of SET_ROW (R148) -/
  | rowStore (x : Int)
  /-- step 2 of SET_ROW -/
  | rowRead (x : Int)
  /-- step 3 of SET_ROW -/
  | rowIssue (x c : Int)
  /-- step 1 of SET_COL (R149) -/
  | colStore (x : Int)
  /-- step 2 of SET_COL -/
  | colRead (x : Int)
  /-- step 3 of SET_COL -/
  | colIssue (x r : Int)
  /-- a GOTO of SET_ROW or SET_COL has not been answered yet -/
  | gotoAwait
  /-- store the clear flag (R150) -/
  | clearStore (x : Int)
  /-- issue CLEAR -/
  | clearIssue
  /-- the CLEAR has not been answered yet -/
  | clearAwait
  /-- reset the clear flag -/
  | clearZero
  /-- the call has returned -/
  | returned (r : HostResult)
  deriving DecidableEq, Repr

/-- The host's state (R141, R147): the write lock (`true` is held), the three registers, and the calls made so far,
each known by its place in the list. The spec gives "the host's integer type" no range; the model takes every integer
(DESIGN CHOICE, log 30). -/
structure HostSide where
  lock : Bool
  row : Int
  col : Int
  clear : Int
  threads : List Thread
  deriving DecidableEq, Repr

/-! ### The world behind the bus -/

/-- What is known of the controller's link (R30, R185-R187). `unknown` stands for every mode and parity. That no value a
host sends after INIT takes the controller out of 4-bit mode is the model's (DESIGN CHOICE, log 29). -/
inductive Link where
  /-- any mode, any nibble parity -/
  | unknown
  /-- an INIT is executing and no write of it has failed -/
  | initializing
  /-- brought to 4-bit mode by a failure-free INIT; by R185's count of nibbles the next one is a high half -/
  | high
  /-- the same, and the next nibble is a low half -/
  | low
  deriving DecidableEq, Repr

/-- The expander's output pins (R31) and what is known of the controller (R30). -/
structure Display where
  pins : Byte
  link : Link
  deriving DecidableEq, Repr

/-! ### The script of the outside -/

/-- One thing the outside does. The script of these is how every draw of 93_implementation_defined.md enters. -/
inductive Move where
  /-- the transport answers the outstanding write (R42) -/
  | answer (a : Answer)
  /-- the next wait is watched clock by clock, its counter loaded `extra` above the minimum (R190) -/
  | stall (extra : Nat)
  /-- one clock edge -/
  | clock
  /-- a reset pulse (R181, R182); `landed` says whether a byte in flight reaches the pins -/
  | reset (landed : Bool)
  /-- a requester that is no host agent of 45_host_frontends.md presents a word -/
  | request (w : ReqWord)
  /-- a host call begins -/
  | call (c : HostCall)
  /-- host thread `n` takes its next step -/
  | host (n : Nat)
  deriving DecidableEq, Repr

/-! ### The state -/

/-- The state: the block's (R20), its configuration (R9), and its environment (R7, R11). -/
structure State where
  /-- the parameters of R9; no step changes them -/
  cfg : Config
  /-- `s.init_state` -/
  initState : InitState
  /-- `s.busy` -/
  busy : Bool
  /-- `s.req` -/
  req : ReqWord
  /-- `s.seq` -/
  seq : Seq
  /-- `s.delay`, a count below `2 ^ cfg.delayWidth` (R20, R171, log 28) -/
  delay : Nat
  /-- `s.rsp`, the response code -/
  rsp : BitVec 2
  /-- `rsp_valid` -/
  rspValid : Bool
  /-- every event so far, oldest first (R11, R52) -/
  trace : List Event
  /-- what is held at the request port, first presented first (R162) -/
  offers : List Offer
  /-- the host thread whose request is executing -/
  owner : Option Nat
  /-- what the outside does next -/
  env : List Move
  /-- the host agents (R140-R153) -/
  host : HostSide
  /-- the world behind the bus (R30, R31) -/
  display : Display
  deriving DecidableEq, Repr

/-- The machine right after reset (R181, R147, R187), at the default configuration, with nothing presented and
nothing placed in the script. `req` and `rsp` are unspecified in R181 and stand at 0 (DESIGN CHOICE, log 5). -/
def State.reset : State where
  cfg := Config.standard
  initState := .uninit
  busy := false
  req := 0#24
  seq := .idle
  delay := 0
  rsp := 0#2
  rspValid := false
  trace := []
  offers := []
  owner := none
  env := []
  host := { lock := false, row := 0, col := 0, clear := 0, threads := [] }
  display := { pins := 0#8, link := .unknown }

/-! ### Why a step can stop -/

/-- The faults. Both are raised by `step` only, never by an instruction's meaning. -/
inductive Fault where
  /-- Raised by `step` when a write is outstanding and the script holds nothing more: the transport never answers
  (R191, the treatment "stuck" of 93_implementation_defined.md). Safe: the machine stops where the hardware hangs. -/
  | transportSilent
  /-- Raised by `step` when `busy` is set and the sequencer is idle, which no run reaches (R21, R23). Safe. -/
  | sequencerLost
  deriving DecidableEq, Repr

/-- The refusals. -/
inductive Refusal where
  /-- Raised by `exec` for an instruction that has no meaning yet; none is left. Safe. -/
  | notModelled (mnemonic : String)
  /-- Raised by `step` for an offer in a transfer format whose value R66 does not list; no step presents one. Safe. -/
  | noSuchTransfer
  deriving DecidableEq, Repr

end Sys2Proof.Machine
end

