-- ==== Sys2Proof/Machine/Events.lean ====
section
/-! DEFINITION. The fixed event list of every operation (10_state.md R23, 40_nibble_byte.md R80-R84, 41_init.md
R102-R108, 42_cursor_clear.md R123, R126), with what a bus failure removes from it. -/

namespace Sys2Proof.Machine

/-- What the sequencer does at one index of an event list. -/
inductive Action where
  /-- `BusWrite(v)`; a `fail` answer removes the next `onFail` entries of the list (R23, R81, R84) -/
  | write (v : Byte) (onFail : Nat)
  /-- `Wait(t)` -/
  | wait (us : Nat)
  deriving DecidableEq, Repr

/-- One entry of an event list. INIT writes `enters` to `s.init_state` before the entry's event (R112). -/
structure Slot where
  enters : Option InitState
  action : Action
  deriving DecidableEq, Repr

/-- An entry that leaves `s.init_state` alone. -/
def plain (a : Action) : Slot := { enters := none, action := a }

/-- A step of INIT: `s.init_state <- c` before the first event of its list (R112). -/
def entering (c : InitState) : List Slot → List Slot
  | [] => []
  | sl :: rest => { sl with enters := some c } :: rest

/-- `SendNibble(n, rs)` (R80). A failed first write removes the nibble's other three events, a failed second write
its last wait (R81); `beyond` more entries go with them where the failure reaches further (R84). -/
def nibbleSlots (c : Config) (n : Nibble) (rs : RegSel) (beyond : Nat) : List Slot :=
  [plain (.write (strobeHigh c n rs) (3 + beyond)), plain (.wait c.tEn),
    plain (.write (strobeLow c n rs) (1 + beyond)), plain (.wait c.tHold)]

/-- How many entries after its own nibble a failure removes, when `n` entries of the byte come after it (R84). -/
def FailScope.reach : FailScope → Nat → Nat
  | .nibble, _ => 0
  | .byte, n => n

/-- `SendByte(v, rs)`: the high nibble, the low nibble, the settle wait (R83), a failure reaching as far as
`P_FAIL_SCOPE` says (R84). -/
def byteSlots (c : Config) (v : Byte) (rs : RegSel) : List Slot :=
  nibbleSlots c (highNibble v) rs (FailScope.reach c.failScope 5) ++
    nibbleSlots c (lowNibble v) rs (FailScope.reach c.failScope 1) ++ [plain (.wait c.tSettle)]

/-- `Clear()`: `SendByte(0x01, 0)` and then the clear wait, whatever the bus answered (R126). -/
def clearSlots (c : Config) : List Slot := byteSlots c 0x01#8 .command ++ [plain (.wait c.tClear)]

/-- The event list of INIT, step by step (R102-R108, R114). -/
def initSlots (c : Config) : List Slot :=
  entering .powerOnWait [plain (.wait c.tPowerOn)] ++
    entering .force81 (nibbleSlots c 0x3#4 .command 0) ++ [plain (.wait c.tForce1)] ++
    entering .force82 (nibbleSlots c 0x3#4 .command 0) ++ [plain (.wait c.tForce2)] ++
    entering .force83 (nibbleSlots c 0x3#4 .command 0) ++ [plain (.wait c.tForce3)] ++
    entering .switch4 (nibbleSlots c 0x2#4 .command 0) ++ [plain (.wait c.tSwitch4)] ++
    entering .functionSet (byteSlots c 0x28#8 .command) ++
    entering .displayControl (byteSlots c 0x0C#8 .command) ++
    entering .entryModeSet (byteSlots c 0x06#8 .command) ++
    entering .clear (clearSlots c)

/-- The event list of every operation (R23). A reserved request has none (R64). The list of a transfer is what the
block emits for that row of R66, the waits that belong to INIT's steps and to `Clear()` left out. -/
def eventList (c : Config) : Instr → List Slot
  | .nib rs n => nibbleSlots c n rs 0
  | .byte rs v => byteSlots c v rs
  | .init => initSlots c
  | .goto row col => byteSlots c (setAddrCommand (ddramAddr row col)) .command
  | .clear => clearSlots c
  | .reservedZero _ => []
  | .reservedSixSeven _ _ => []
  | .reservedHigh _ _ => []
  | .force8 => nibbleSlots c 0x3#4 .command 0
  | .switch4 => nibbleSlots c 0x2#4 .command 0
  | .functionSet => byteSlots c 0x28#8 .command
  | .displayControl => byteSlots c 0x0C#8 .command
  | .entryModeSet => byteSlots c 0x06#8 .command
  | .clearDisplay => byteSlots c 0x01#8 .command
  | .setDdramAddr a => byteSlots c (setAddrCommand a) .command
  | .charData v => byteSlots c v .data

end Sys2Proof.Machine
end

