-- ==== Sys2Proof/Machine/Flags.lean ====
section
/-! DEFINITION. The two status flags and the STATUS output (10_state.md R24, R25), and the response codes
(30_encoding.md R65). -/

namespace Sys2Proof.Machine

/-- `BUSY` (R24). -/
def State.busyFlag (s : State) : Bool := s.busy

/-- `READY`, 1 exactly when `s.init_state = READY` (R24). -/
def State.readyFlag (s : State) : Bool := s.initState == .ready

/-- `STATUS[0] = BUSY`, `STATUS[1] = READY` (R25). -/
def State.status (s : State) : BitVec 2 := BitVec.ofBool s.readyFlag ++ BitVec.ofBool s.busyFlag

/-- The response codes a request can end with (R65). -/
inductive Response where
  | ok
  | illegal
  | badState
  deriving DecidableEq, Repr

/-- `rsp_code` (R65); 3 is never driven. -/
def Response.code : Response → BitVec 2
  | .ok => 0#2
  | .illegal => 1#2
  | .badState => 2#2

end Sys2Proof.Machine
end

