-- ==== Sys2Proof/Machine/Ops.lean ====
section
/-! DEFINITION. The shared operations: events and waits, the response and the rejection (00_scope.md R14-R17), the
sequencer's run (10_state.md R23), reset (70_reset_and_hazards.md R181, R182), and what a trace says (R16, R192). -/

namespace Sys2Proof.Machine

/-! ### The world behind the bus -/

/-- Whether the enable bit is set in a byte on the pins. -/
def enableOf (c : Config) (v : Byte) : Bool := v.getLsbD c.enBit.val

/-- A nibble has been latched: the parity turns (R30). What is unknown stays unknown. -/
def Link.turn : Link → Link
  | .high => .low
  | .low => .high
  | .initializing => .initializing
  | .unknown => .unknown

/-- An answered write reaches the pins. The enable pulse is over, and its nibble latched, when enable goes from 1 to
0 (R48). -/
def Display.land (d : Display) (c : Config) (v : Byte) : Display :=
  { pins := v
    link := if enableOf c d.pins && !enableOf c v then d.link.turn else d.link }

/-- What the display's side becomes on an event. A failed write leaves the pins at the new byte or the old one and
the controller unknown (R42, R186). -/
def Display.see (d : Display) (c : Config) : Event → Display
  | .wait _ => d
  | .write v .ok => d.land c v
  | .write v (.fail landed) => { pins := if landed then v else d.pins, link := .unknown }

/-- A request other than NIB between the two NIBs of a pair, rejected or not, leaves the controller out of step: "with no
request of any kind between the two NIBs of a pair" (R185). -/
def Link.otherRequest : Link → Link
  | .low => .unknown
  | .high => .high
  | .initializing => .initializing
  | .unknown => .unknown

/-- The link when an operation starts. INIT starts from any state (R187). What a host's values mean to the controller
changes nothing (DESIGN CHOICE, log 29). -/
def Link.start (l : Link) : Instr → Link
  | .init => .initializing
  | .nib _ _ | .force8 | .switch4 => l
  | .byte _ _ | .goto _ _ | .clear => l.otherRequest
  | .functionSet | .displayControl | .entryModeSet | .clearDisplay | .setDdramAddr _ | .charData _ => l.otherRequest
  | .reservedZero _ | .reservedSixSeven _ _ | .reservedHigh _ _ => l.otherRequest

/-- The link when INIT ends: in 4-bit mode if no write of it failed, otherwise unknown (R186, R187). -/
def Link.initDone : Link → Link
  | .initializing => .high
  | .high | .low | .unknown => .unknown

/-! ### Responses -/

/-- The response reaches a waiting host thread: the step that issued the request completes. -/
def Thread.answered : Thread → Thread
  | .writeAwait left k => .writing left k
  | .gotoAwait => .returned .done
  | .clearAwait => .clearZero
  | .writeLock buf len copied => .writeLock buf len copied
  | .writeCopy buf len copied => .writeCopy buf len copied
  | .writing left k => .writing left k
  | .rowStore x => .rowStore x
  | .rowRead x => .rowRead x
  | .rowIssue x c => .rowIssue x c
  | .colStore x => .colStore x
  | .colRead x => .colRead x
  | .colIssue x r => .colIssue x r
  | .clearStore x => .clearStore x
  | .clearIssue => .clearIssue
  | .clearZero => .clearZero
  | .returned r => .returned r

/-- The response to thread `n`'s request. -/
def HostSide.answer (h : HostSide) : Option Nat → HostSide
  | none => h
  | some n => { h with threads := h.threads.modify n Thread.answered }

/-- `respond(c)`: ends the request, drives the code and returns the block to idle (R17, R21). -/
def State.respond (c : Response) (s : State) : State :=
  { s with
    busy := false
    seq := .idle
    rsp := c.code
    rspValid := true
    owner := none
    host := s.host.answer s.owner }

/-- `reject(c)`: `respond(c)` before any event, the block's only exception (R17, R161, R163). Nothing of the block
changes but the response; the rejected request still counts among the requests of R185. -/
def State.reject (c : Response) (s : State) : State :=
  { s.respond c with display := { s.display with link := s.display.link.otherRequest } }

/-! ### Events -/

/-- An event is over: it joins the trace, and the world behind the bus has seen it. -/
def State.emit (e : Event) (s : State) : State :=
  { s with trace := s.trace ++ [e], display := s.display.see s.cfg e }

/-- A write that the transport has answered with `a` (R14, R40). `env` is the script after the answer. -/
def State.emitWrite (v : Byte) (a : Answer) (env : List Move) (s : State) : State :=
  { s.emit (.write v a) with env := env }

/-- A wait whose delay counter has reached 0 (R15, R190). -/
def State.emitWait (us : Nat) (s : State) : State := { s.emit (.wait us) with delay := 0 }

/-- `s.init_state <- c` at the start of a step of INIT (R112). -/
def State.enter (c : Option InitState) (s : State) : State :=
  match c with
  | none => s
  | some c => { s with initState := c }

/-- The entries a write's answer removes from the list (R81, R84). -/
def Answer.removes : Answer → Nat → Nat
  | .ok, _ => 0
  | .fail _, n => n

/-! ### The sequencer -/

/-- The list of `i` is exhausted: INIT becomes READY (R109), a request responds OK (R85, R160), and a transfer run
by itself just ends (log 8). -/
def finish (i : Instr) (s : State) : State :=
  match i with
  | .init =>
    State.respond .ok
      { s with initState := .ready, display := { s.display with link := s.display.link.initDone } }
  | .nib _ _ => s.respond .ok
  | .byte _ _ => s.respond .ok
  | .goto _ _ => s.respond .ok
  | .clear => s.respond .ok
  | .reservedZero _ => s.respond .illegal
  | .reservedSixSeven _ _ => s.respond .illegal
  | .reservedHigh _ _ => s.respond .illegal
  | .force8 => { s with busy := false, seq := .idle }
  | .switch4 => { s with busy := false, seq := .idle }
  | .functionSet => { s with busy := false, seq := .idle }
  | .displayControl => { s with busy := false, seq := .idle }
  | .entryModeSet => { s with busy := false, seq := .idle }
  | .clearDisplay => { s with busy := false, seq := .idle }
  | .setDdramAddr _ => { s with busy := false, seq := .idle }
  | .charData _ => { s with busy := false, seq := .idle }

/-- Run the event list of `i` from index `k` on (R23): `slots` is what is left of it and `skip` how many entries a
failure still removes. The run stops where the outside has to act first: at a write with no answer next in the
script (R41, R191), and at a wait the script watches (`stall`), its counter loaded (R190, log 12). -/
def runSlots (i : Instr) : List Slot → (k skip : Nat) → State → State
  | [], _, _, s => finish i s
  | _ :: rest, k, skip + 1, s => runSlots i rest (k + 1) skip s
  | sl :: rest, k, 0, s =>
    match sl.action with
    | .write v onFail =>
      match s.env with
      | .answer a :: env => runSlots i rest (k + 1) (a.removes onFail) ((s.enter sl.enters).emitWrite v a env)
      | _ => { s.enter sl.enters with seq := .running i k }
    | .wait us =>
      match s.env with
      | .stall extra :: env =>
        { s.enter sl.enters with seq := .running i k, delay := loadCount s.cfg us extra, env := env }
      | _ => runSlots i rest (k + 1) 0 ((s.enter sl.enters).emitWait us)

/-- An admitted operation stands at index 0 of its list with its counter at 0 (R23). -/
def started (i : Instr) (s : State) : State :=
  { s with
    busy := true
    seq := .running i 0
    delay := 0
    display := { s.display with link := s.display.link.start i } }

/-- Run an admitted operation from its start. -/
def begin (i : Instr) (s : State) : State :=
  runSlots i (eventList s.cfg i) 0 0 (started i s)

/-- Admission of NIB, BYTE, GOTO and CLEAR: `READY`, else BAD_STATE (R163). -/
def admitReady (i : Instr) (s : State) : State :=
  if s.initState = .ready then begin i s else s.reject .badState

/-- Admission of INIT: `UNINIT`, else BAD_STATE (R101, R163). -/
def admitUninit (i : Instr) (s : State) : State :=
  if s.initState = .uninit then begin i s else s.reject .badState

/-! ### The bus port (R40) -/

/-- The byte on offer: `bus_valid` is 1 exactly when this is some byte, which is then `bus_data`. The block stores
no copy (R20, log 26). -/
def State.busOffer (s : State) : Option Byte :=
  match s.seq with
  | .idle => none
  | .running i k =>
    match (eventList s.cfg i)[k]? with
    | some { enters := _, action := .write v _ } => some v
    | some { enters := _, action := .wait _ } => none
    | none => none

/-- The wait in progress, in µs. -/
def State.waiting (s : State) : Option Nat :=
  match s.seq with
  | .idle => none
  | .running i k =>
    match (eventList s.cfg i)[k]? with
    | some { enters := _, action := .wait us } => some us
    | some { enters := _, action := .write _ _ } => none
    | none => none

/-! ### Reset (R181, R182) -/

/-- The pins after a reset: an in-flight byte may or may not reach them (R182); the controller's mode and parity are
unknown until the next INIT (R187). -/
def resetDisplay (landed : Bool) (s : State) : Display :=
  { pins := match s.busOffer with
      | some v => if landed then v else s.display.pins
      | none => s.display.pins
    link := .unknown }

/-- The block's reset. It emits no event and abandons the executing request with no response (R182). What the
requesters hold, the host's state (R181) and the configuration stay. -/
def blockReset (landed : Bool) (s : State) : State :=
  { s with
    initState := .uninit
    busy := false
    req := 0#24
    seq := .idle
    delay := 0
    rsp := 0#2
    rspValid := false
    owner := none
    display := resetDisplay landed s }

/-! ### What a trace says -/

/-- The writes of a trace, in order. -/
def writesOf : List Event → List Byte
  | [] => []
  | .write v _ :: rest => v :: writesOf rest
  | .wait _ :: rest => writesOf rest

/-- The sum of a trace's waits, in µs (R192). -/
def totalWait : List Event → Nat
  | [] => 0
  | .write _ _ :: rest => totalWait rest
  | .wait us :: rest => us + totalWait rest

/-- The trace with every maximal run of waits replaced by their sum (R16). -/
def mergeWaits : List Event → List Event
  | [] => []
  | .write v a :: rest => .write v a :: mergeWaits rest
  | .wait us :: rest =>
    match mergeWaits rest with
    | .wait us' :: rest' => .wait (us + us') :: rest'
    | [] => [.wait us]
    | .write v a :: rest' => .wait us :: .write v a :: rest'

/-- The trace of R16: the answers, which an Event also records, left out. -/
def portTrace : List Event → List PortEvent
  | [] => []
  | .write v _ :: rest => .write v :: portTrace rest
  | .wait us :: rest => .wait us :: portTrace rest

/-- Equality of traces (R16), the comparison of this model (log 20). Equal lists of events have it. -/
abbrev TraceEq (a b : List Event) : Prop := portTrace a = portTrace b

/-- Equivalence of traces (R16). -/
abbrev TraceEquiv (a b : List Event) : Prop := TraceEq (mergeWaits a) (mergeWaits b)

/-- The nibbles that complete enable pulses spell out, with the RS each was sent with (R48): a byte with enable set
followed, waits aside, by the same byte with enable clear. -/
def pulses (c : Config) : Option Byte → List Event → List (Bool × Nibble)
  | _, [] => []
  | p, .wait _ :: rest => pulses c p rest
  | _, .write _ (.fail _) :: rest => pulses c none rest
  | p, .write v .ok :: rest =>
    if enableOf c v then pulses c (some v) rest
    else if p = some (v ||| bitMask c.enBit) then
      (v.getLsbD c.rsBit.val, highNibble v) :: pulses c none rest
    else pulses c none rest

end Sys2Proof.Machine
end

