-- ==== Sys2Proof/Machine/Cursor.lean ====
section
/-! DEFINITION. The meanings of GOTO and CLEAR (42_cursor_clear.md R120-R127). -/

namespace Sys2Proof.Machine

/-- `GOTO row, col`: `SendByte(0x80 | addr, 0)` in READY, then OK; BAD_STATE otherwise (R120). No row and no column
is refused (R124). -/
def execGoto (row col : Byte) (s : State) : Host.Outcome State Fault Refusal :=
  .next (admitReady (.goto row col) s)

/-- `CLEAR`: `Clear()` in READY, then OK; BAD_STATE otherwise (R125). -/
def execClear (s : State) : Host.Outcome State Fault Refusal :=
  .next (admitReady .clear s)

end Sys2Proof.Machine
end

