-- ==== Sys2Proof/Machine/Init.lean ====
section
/-! DEFINITION. The meaning of INIT (41_init.md R100-R114). -/

namespace Sys2Proof.Machine

/-- `INIT`: the sequence of R114 in UNINIT, ending READY with OK; BAD_STATE otherwise (R100, R101). -/
def execInit (s : State) : Host.Outcome State Fault Refusal :=
  .next (admitUninit .init s)

end Sys2Proof.Machine
end

