-- ==== Sys2Proof/Machine/NibbleByte.lean ====
section
/-! DEFINITION. The meanings of NIB and BYTE (40_nibble_byte.md R86, R87). -/

namespace Sys2Proof.Machine

/-- `NIB rs, n`: `SendNibble(n, rs)` in READY, then OK; BAD_STATE otherwise (R86). -/
def execNib (rs : RegSel) (n : Nibble) (s : State) : Host.Outcome State Fault Refusal :=
  .next (admitReady (.nib rs n) s)

/-- `BYTE rs, v`: `SendByte(v, rs)` in READY, then OK; BAD_STATE otherwise (R87). -/
def execByte (rs : RegSel) (v : Byte) (s : State) : Host.Outcome State Fault Refusal :=
  .next (admitReady (.byte rs v) s)

end Sys2Proof.Machine
end

