-- ==== Sys2Proof/Machine/Reserved.lean ====
section
/-! DEFINITION. The reserved rows of the request table (30_encoding.md R64): each is rejected with ILLEGAL, in every
state, because decoding comes before admission (60_exceptions.md R161, R165). -/

namespace Sys2Proof.Machine

/-- OP 0x0: ILLEGAL, no event (R64, R161). The other bits of the word do not matter. -/
def execReservedZero (_rest : BitVec 20) (s : State) : Host.Outcome State Fault Refusal :=
  .next (s.reject .illegal)

/-- OP 0x6 and 0x7: ILLEGAL, no event (R64, R161). -/
def execReservedSixSeven (_op : BitVec 4) (_rest : BitVec 20) (s : State) : Host.Outcome State Fault Refusal :=
  .next (s.reject .illegal)

/-- OP 0x8 to 0xF: ILLEGAL, no event (R64, R161). -/
def execReservedHigh (_op : BitVec 4) (_rest : BitVec 20) (s : State) : Host.Outcome State Fault Refusal :=
  .next (s.reject .illegal)

end Sys2Proof.Machine
end

