-- ==== Sys2Proof/Machine/Transfers.lean ====
section
/-! DEFINITION. The transfers to the HD44780 (30_encoding.md R66-R73): what the block emits for each row, by itself.
Inside a request the same entries stand in the request's event list. A transfer is no request, so it has no admission
and no response (log 8). -/

namespace Sys2Proof.Machine

/-- FORCE8: the Command nibble 0x3 (R72, R103). -/
def execForce8 (s : State) : Host.Outcome State Fault Refusal := .next (begin .force8 s)

/-- SWITCH4: the Command nibble 0x2 (R72, R104). -/
def execSwitch4 (s : State) : Host.Outcome State Fault Refusal := .next (begin .switch4 s)

/-- FUNCTION_SET: the instruction byte 0x28 (R67, R105). -/
def execFunctionSet (s : State) : Host.Outcome State Fault Refusal := .next (begin .functionSet s)

/-- DISPLAY_CONTROL: the instruction byte 0x0C (R68, R106). -/
def execDisplayControl (s : State) : Host.Outcome State Fault Refusal := .next (begin .displayControl s)

/-- ENTRY_MODE_SET: the instruction byte 0x06 (R69, R107). -/
def execEntryModeSet (s : State) : Host.Outcome State Fault Refusal := .next (begin .entryModeSet s)

/-- CLEAR_DISPLAY: the instruction byte 0x01; the clear wait belongs to `Clear()` (R70, R126). -/
def execClearDisplay (s : State) : Host.Outcome State Fault Refusal := .next (begin .clearDisplay s)

/-- SET_DDRAM_ADDR: the instruction byte `0x80 | a` (R71, R123). -/
def execSetDdramAddr (a : DdramAddr) (s : State) : Host.Outcome State Fault Refusal := .next (begin (.setDdramAddr a) s)

/-- CHAR_DATA: the byte `v` with RS = 1, verbatim (R73). -/
def execCharData (v : Byte) (s : State) : Host.Outcome State Fault Refusal := .next (begin (.charData v) s)

end Sys2Proof.Machine
end

