-- ==== Sys2Proof/Machine/Dispatch.lean ====
section
/-! DEFINITION. One arm per constructor of Instr, each a call of the instruction's meaning. -/

namespace Sys2Proof.Machine

def exec (i : Instr) (s : State) : Host.Outcome State Fault Refusal :=
  match i with
  | .nib rs n => Sys2Proof.Machine.execNib rs n s
  | .byte rs v => Sys2Proof.Machine.execByte rs v s
  | .init => Sys2Proof.Machine.execInit s
  | .goto row col => Sys2Proof.Machine.execGoto row col s
  | .clear => Sys2Proof.Machine.execClear s
  | .reservedZero rest => Sys2Proof.Machine.execReservedZero rest s
  | .reservedSixSeven op rest => Sys2Proof.Machine.execReservedSixSeven op rest s
  | .reservedHigh op rest => Sys2Proof.Machine.execReservedHigh op rest s
  | .force8 => Sys2Proof.Machine.execForce8 s
  | .switch4 => Sys2Proof.Machine.execSwitch4 s
  | .functionSet => Sys2Proof.Machine.execFunctionSet s
  | .displayControl => Sys2Proof.Machine.execDisplayControl s
  | .entryModeSet => Sys2Proof.Machine.execEntryModeSet s
  | .clearDisplay => Sys2Proof.Machine.execClearDisplay s
  | .setDdramAddr a => Sys2Proof.Machine.execSetDdramAddr a s
  | .charData v => Sys2Proof.Machine.execCharData v s

end Sys2Proof.Machine
end

