-- ==== Sys2Proof/Machine/HostAgents.lean ====
section
/-! DEFINITION. The host agents as atomic host steps (45_host_frontends.md R140-R153). They are not part of the
block; what they do to it is present requests at its port. -/

namespace Sys2Proof.Machine

/-- `PUTC b`, the write path's per-byte mapping (R75, R144). -/
def putc (b : Byte) : Instr := if b = 0x0A#8 then .byte .command 0xC0#8 else .byte .data b

/-- The row operand of a stored row, `min(x, 255)` (R148, R149). -/
def rowOperand (x : Int) : Byte := BitVec.ofNat 8 (min x 255).toNat

/-- The column operand of a stored column, `x mod 256`, non-negative (R148, R149). -/
def colOperand (x : Int) : Byte := BitVec.ofNat 8 (x % 256).toNat

/-- The first thing a host call does before its first atomic step: the sets check their value (R148-R150). -/
def startCall : HostCall → Thread
  | .write buf len copied => .writeLock buf len copied
  | .setRow .notInteger => .returned .rejected
  | .setRow (.int x) => if x < 0 then .returned .refused else .rowStore x
  | .setCol .notInteger => .returned .rejected
  | .setCol (.int x) => .colStore x
  | .setClear .notInteger => .returned .rejected
  | .setClear (.int x) => .clearStore x

/-- How many bytes a write's copy yields: the draw, at most `min(len, MAX_WRITE)` (R143) and at most what the buffer
holds (log 16). -/
def copyCount (c : Config) (buf : List Byte) (len copied : Nat) : Nat :=
  min copied (min (min len c.maxWrite) buf.length)

/-- What one atomic host step of a thread does: to the host's registers, to the thread itself, and the request it
issues. A thread that awaits a response or has returned does nothing. R150 does not say how many host steps
SET_CLEAR has: storing and testing the value, issuing CLEAR, and the reset to 0 are one step each (DESIGN CHOICE,
log 31). -/
def threadStep (c : Config) (h : HostSide) : Thread → HostSide × Thread × Option Instr
  | .writeLock buf len copied =>
    if h.lock then (h, .returned .deviceBusy, none)
    else ({ h with lock := true }, .writeCopy buf len copied, none)
  | .writeCopy buf len copied =>
    (h, .writing (buf.take (copyCount c buf len copied)) (copyCount c buf len copied), none)
  | .writing (b :: left) k => (h, .writeAwait left k, some (putc b))
  | .writing [] k => ({ h with lock := false }, .returned (.consumed k), none)
  | .writeAwait left k => (h, .writeAwait left k, none)
  | .rowStore x => ({ h with row := x }, .rowRead x, none)
  | .rowRead x => (h, .rowIssue x h.col, none)
  | .rowIssue x c => (h, .gotoAwait, some (.goto (rowOperand x) (colOperand c)))
  | .colStore x => ({ h with col := x }, .colRead x, none)
  | .colRead x => (h, .colIssue x h.row, none)
  | .colIssue x r => (h, .gotoAwait, some (.goto (rowOperand r) (colOperand x)))
  | .gotoAwait => (h, .gotoAwait, none)
  | .clearStore x => ({ h with clear := x }, if x = 0 then .returned .done else .clearIssue, none)
  | .clearIssue => (h, .clearAwait, some .clear)
  | .clearAwait => (h, .clearAwait, none)
  | .clearZero => ({ h with clear := 0 }, .returned .done, none)
  | .returned r => (h, .returned r, none)

/-- The offers a host step adds at the port: the encoded request, under the thread's number. -/
def issued (n : Nat) : Option Instr → List Offer
  | none => []
  | some i => [{ owner := some n, format := .req24, word := encodeWord i }]

/-- Host thread `n` takes one step; a number no call has is no step. -/
def hostStep (n : Nat) (s : State) : State :=
  match s.host.threads[n]? with
  | none => s
  | some t =>
    let r := threadStep s.cfg s.host t
    { s with
      host := { r.1 with threads := s.host.threads.set n r.2.1 }
      offers := s.offers ++ issued n r.2.2 }

/-- A host call begins, as a new thread. -/
def hostCall (c : HostCall) (s : State) : State :=
  { s with host := { s.host with threads := s.host.threads ++ [startCall c] } }

end Sys2Proof.Machine
end

