-- ==== Sys2Proof/Machine/Environment.lean ====
section
/-! DEFINITION. The request port and the moves of the outside: acceptance (10_state.md R21), holding (60_exceptions.md
R162), progress of the executing request (10_state.md R23, 70_reset_and_hazards.md R190, R191), reset, host steps. -/

namespace Sys2Proof.Machine

/-- Acceptance: the word is latched and the block becomes busy in the same step (R21); `rsp_valid` falls (log 6). A
transfer offer is no request, so it leaves the request and response registers alone (log 8). -/
def accept (o : Offer) (rest : List Offer) (s : State) : State :=
  match o.format with
  | .req24 => { s with busy := true, req := o.word, rspValid := false, owner := o.owner, offers := rest }
  | .nibble | .command | .character => { s with busy := true, owner := none, offers := rest }

/-- A word that decodes to no instruction: a request is rejected with ILLEGAL (R63, R161); a transfer that R66 does
not list is refused (log 10). -/
def refuseWord (e : DecodeError) (s : State) : Host.Outcome State Fault Refusal :=
  match e with
  | .reservedFieldNonzero => .next (s.reject .illegal)
  | .noSuchTransfer => .refused .noSuchTransfer

/-- A word is presented at the port and held there until the block accepts it (R162). -/
def present (w : ReqWord) (s : State) : State :=
  { s with offers := s.offers ++ [{ owner := none, format := .req24, word := w }] }

/-- The executing operation goes on from index `k` (R23). -/
def resume (i : Instr) (k : Nat) (s : State) : State :=
  runSlots i ((eventList s.cfg i).drop k) k 0 s

/-- The wait at index `k` is over: its event is emitted and the operation goes on (R23, R190). -/
def endWait (i : Instr) (k us : Nat) (s : State) : State :=
  runSlots i ((eventList s.cfg i).drop (k + 1)) (k + 1) 0 (s.emitWait us)

/-- One clock edge while `i` stands at index `k`: the delay counter counts down, and the wait ends when it reaches 0
(R190). With a write outstanding a clock edge changes nothing (R41). -/
def clockEdge (i : Instr) (k : Nat) (s : State) : State :=
  match s.waiting with
  | some us => if s.delay ≤ 1 then endWait i k us s else { s with delay := s.delay - 1 }
  | none => s

/-- The executing operation `i` at index `k`, with an answer or nothing next in the script. A write goes on with its
answer and hangs without one (R191); a wait runs out (R162: every `D` wait ends). -/
def progress (i : Instr) (k : Nat) (s : State) : Host.Outcome State Fault Refusal :=
  match s.waiting with
  | some us => .next (endWait i k us s)
  | none =>
    match s.busOffer, s.env with
    | some _, [] => .fault .transportSilent
    | some _, _ :: _ => .next (resume i k s)
    | none, _ => .next (resume i k s)

/-- A step while the block executes: the outside moves, or the operation goes on. Requests presented now are held
(R162), host agents go on (R152), and a reset abandons the operation (R182). -/
def stepBusy (i : Instr) (k : Nat) (s : State) : Host.Outcome State Fault Refusal :=
  match s.env with
  | [] => progress i k s
  | .answer _ :: _ => progress i k s
  | .stall _ :: env => .next { s with env := env }
  | .clock :: env => .next (clockEdge i k { s with env := env })
  | .reset landed :: env => .next (blockReset landed { s with env := env })
  | .request w :: env => .next (present w { s with env := env })
  | .call c :: env => .next (hostCall c { s with env := env })
  | .host n :: env => .next (hostStep n { s with env := env })

/-- A step while the block is idle and nothing is presented: the outside moves. Without a move the block stays idle;
an answer without an outstanding write, a clock edge and a stall change nothing (log 13). -/
def stepIdle (s : State) : State :=
  match s.env with
  | [] => s
  | .answer _ :: env => { s with env := env }
  | .stall _ :: env => { s with env := env }
  | .clock :: env => { s with env := env }
  | .reset landed :: env => blockReset landed { s with env := env }
  | .request w :: env => present w { s with env := env }
  | .call c :: env => hostCall c { s with env := env }
  | .host n :: env => hostStep n { s with env := env }

/-- The offer of a word of spec/opcode_table.json, in the format `tableFormat` reads it in (log 9). -/
def tableOffer (nbits w : Nat) : Offer :=
  { owner := none, format := tableFormat nbits w, word := BitVec.ofNat 24 w }

/-- A state whose block is idle, and first at its port the word `w`. An idle block changes in nothing but its
offers. -/
def placeOffer (o : Offer) (s : State) : State :=
  { s with busy := false, seq := .idle, delay := 0, offers := o :: s.offers }

end Sys2Proof.Machine
end

