-- ==== Sys2Proof/Machine/Step.lean ====
section
/-! DEFINITION. One step of the machine: the block accepts and runs a request (00_scope.md R11, 10_state.md R21), or
the executing request goes on, or the outside moves. -/

namespace Sys2Proof.Machine

/-- One step. An idle block with something at its port accepts it and runs it until it responds or the outside has
to act (log 2). A busy block accepts nothing (R21). -/
def step (s : State) : Host.Outcome State Fault Refusal :=
  if s.busy then
    match s.seq with
    | .idle => .fault .sequencerLost
    | .running i k => stepBusy i k s
  else
    match s.offers with
    | [] => .next (stepIdle s)
    | o :: rest =>
      match decode o.format o.word with
      | .instr i => exec i (accept o rest s)
      | .error e => refuseWord e (accept o rest s)

/-- `s` with the word `w` of the opcode table first at the port of an idle block, so that the next step accepts and
runs it (log 1). -/
def State.withFetchWord (s : State) (nbits w : Nat) : State := placeOffer (tableOffer nbits w) s

end Sys2Proof.Machine
end

