-- ==== Sys2Proof/Machine/Assembler.lean ====
section
/-! DEFINITION. The assembler of 30_encoding.md R75: one request a line, its pseudo-instructions, and its refusals. -/

namespace Sys2Proof.Machine

/-- A line of the assembler, its operands as written (any number; the range is checked on assembly). -/
inductive AsmLine where
  | nib (rs : RegSel) (n : Nat)
  | byte (rs : RegSel) (v : Nat)
  | init
  | goto (row col : Nat)
  | clear
  /-- pseudo `CMD v` = `BYTE C, v` -/
  | cmd (v : Nat)
  /-- pseudo `DATA v` = `BYTE D, v` -/
  | data (v : Nat)
  /-- pseudo `PUTC v` = `CMD 0xC0` if `v = 0x0A`, else `DATA v` -/
  | putc (v : Nat)
  deriving DecidableEq, Repr

/-- The instruction of a line. An operand out of its range is refused (R75). -/
def assembleInstr : AsmLine → Option Instr
  | .nib rs n => if n < 16 then some (.nib rs (BitVec.ofNat 4 n)) else none
  | .byte rs v => if v < 256 then some (.byte rs (BitVec.ofNat 8 v)) else none
  | .init => some .init
  | .goto row col => if row < 256 ∧ col < 256 then some (.goto (BitVec.ofNat 8 row) (BitVec.ofNat 8 col)) else none
  | .clear => some .clear
  | .cmd v => if v < 256 then some (.byte .command (BitVec.ofNat 8 v)) else none
  | .data v => if v < 256 then some (.byte .data (BitVec.ofNat 8 v)) else none
  | .putc v => if v < 256 then some (Sys2Proof.Machine.putc (BitVec.ofNat 8 v)) else none

/-- The word of a line (R75). -/
def assemble (l : AsmLine) : Option ReqWord := (assembleInstr l).map encodeWord

/-! ### Reading a line of text (R75; the spelling details the rule leaves open are log 21) -/

/-- The value of a digit of base 16, in either case. -/
def digitValue (ch : Char) : Option Nat :=
  if '0' ≤ ch ∧ ch ≤ '9' then some (ch.toNat - '0'.toNat)
  else if 'a' ≤ ch ∧ ch ≤ 'f' then some (ch.toNat - 'a'.toNat + 10)
  else if 'A' ≤ ch ∧ ch ≤ 'F' then some (ch.toNat - 'A'.toNat + 10)
  else none

/-- The digits of a number of the given base, most significant first. -/
def readDigits (base acc : Nat) : List Char → Option Nat
  | [] => some acc
  | ch :: rest =>
    match digitValue ch with
    | none => none
    | some d => if d < base then readDigits base (acc * base + d) rest else none

/-- A number, decimal or with `0x` hexadecimal, at least one digit. -/
def readNumber : List Char → Option Nat
  | [] => none
  | '0' :: 'x' :: [] => none
  | '0' :: 'x' :: digits => readDigits 16 0 digits
  | digits => readDigits 10 0 digits

/-- `rs`, written `C` or `D`. -/
def readRegSel : List Char → Option RegSel
  | ['C'] => some .command
  | ['D'] => some .data
  | _ => none

/-- The text up to the first blank, and what follows that blank. -/
def splitBlank : List Char → List Char × List Char
  | [] => ([], [])
  | ch :: rest => if ch = ' ' then ([], rest) else ((ch :: (splitBlank rest).1), (splitBlank rest).2)

/-- The pieces between commas, blanks left out. -/
def splitCommas : List Char → List (List Char)
  | [] => [[]]
  | ch :: rest =>
    if ch = ' ' then splitCommas rest
    else if ch = ',' then [] :: splitCommas rest
    else match splitCommas rest with
      | [] => [[ch]]
      | piece :: pieces => (ch :: piece) :: pieces

/-- One line: the mnemonic first, then the operands separated by commas. -/
def readLine (line : List Char) : Option AsmLine :=
  match splitBlank line with
  | (mnemonic, operands) =>
    match mnemonic, splitCommas operands with
    | ['N', 'I', 'B'], [rs, n] => (readRegSel rs).bind fun r => (readNumber n).map fun k => .nib r k
    | ['B', 'Y', 'T', 'E'], [rs, v] => (readRegSel rs).bind fun r => (readNumber v).map fun k => .byte r k
    | ['I', 'N', 'I', 'T'], [[]] => some .init
    | ['G', 'O', 'T', 'O'], [row, col] => (readNumber row).bind fun r => (readNumber col).map fun k => .goto r k
    | ['C', 'L', 'E', 'A', 'R'], [[]] => some .clear
    | ['C', 'M', 'D'], [v] => (readNumber v).map fun k => .cmd k
    | ['D', 'A', 'T', 'A'], [v] => (readNumber v).map fun k => .data k
    | ['P', 'U', 'T', 'C'], [v] => (readNumber v).map fun k => .putc k
    | _, _ => none

/-- The word of a line of text. -/
def assembleText (line : List Char) : Option ReqWord := (readLine line).bind assemble

end Sys2Proof.Machine
end

