-- ==== Sys2Proof/Machine/Pseudocode.lean ====
section
/-! DEFINITION. The spec's own pseudocode, transcribed as functions of the transport's answers (40_nibble_byte.md
R80, R83, R84; 41_init.md R114; 42_cursor_clear.md R120, R126). The machine runs event lists (R23); statements say
that the two agree. -/

namespace Sys2Proof.Machine

/-- `Outcome = Done | Failed` of SendNibble (R80). -/
inductive NibbleOutcome where
  | done
  | failed
  deriving DecidableEq, Repr

/-- A procedure: from the answers to come, the events it emits and the answers left, or `none` when the answers run
out before it ends. -/
abbrev Procedure := List Answer → Option (List Event × List Answer)

/-- `Wait(t)` (R15). -/
def procWait (us : Nat) : Procedure := fun as => some ([.wait us], as)

/-- One procedure after another. -/
def procThen (f g : Procedure) : Procedure := fun as =>
  match f as with
  | none => none
  | some (evs, as') =>
    match g as' with
    | none => none
    | some (evs', as'') => some (evs ++ evs', as'')

/-- `SendNibble(n, rs)` (R80, R81): the events, the outcome, and the answers left. -/
def procSendNibble (c : Config) (n : Nibble) (rs : RegSel) :
    List Answer → Option (List Event × NibbleOutcome × List Answer)
  | [] => none
  | .fail l :: as => some ([.write (controlBase c n rs ||| bitMask c.enBit) (.fail l)], .failed, as)
  | [.ok] => none
  | .ok :: .fail l :: as =>
    some ([.write (controlBase c n rs ||| bitMask c.enBit) .ok, .wait c.tEn,
      .write (controlBase c n rs &&& ~~~ bitMask c.enBit) (.fail l)], .failed, as)
  | .ok :: .ok :: as =>
    some ([.write (controlBase c n rs ||| bitMask c.enBit) .ok, .wait c.tEn,
      .write (controlBase c n rs &&& ~~~ bitMask c.enBit) .ok, .wait c.tHold], .done, as)

/-- `_ <- SendNibble(n, rs)`: the outcome is not looked at (R86, R103). -/
def procNibble (c : Config) (n : Nibble) (rs : RegSel) : Procedure := fun as =>
  match procSendNibble c n rs as with
  | none => none
  | some (evs, _, as') => some (evs, as')

/-- `SendByte(v, rs)` (R83, R84). -/
def procSendByte (c : Config) (v : Byte) (rs : RegSel) : Procedure := fun as =>
  match procSendNibble c (highNibble v) rs as with
  | none => none
  | some (evs, o1, as1) =>
    if o1 = .failed ∧ c.failScope = .byte then some (evs, as1)
    else match procSendNibble c (lowNibble v) rs as1 with
      | none => none
      | some (evs', o2, as2) =>
        if o2 = .failed ∧ c.failScope = .byte then some (evs ++ evs', as2)
        else some (evs ++ evs' ++ [.wait c.tSettle], as2)

/-- `Clear()` (R126). -/
def procClear (c : Config) : Procedure := procThen (procSendByte c 0x01#8 .command) (procWait c.tClear)

/-- INIT's sequence (R114). -/
def procInit (c : Config) : Procedure :=
  procThen (procWait c.tPowerOn) <|
  procThen (procNibble c 0x3#4 .command) <| procThen (procWait c.tForce1) <|
  procThen (procNibble c 0x3#4 .command) <| procThen (procWait c.tForce2) <|
  procThen (procNibble c 0x3#4 .command) <| procThen (procWait c.tForce3) <|
  procThen (procNibble c 0x2#4 .command) <| procThen (procWait c.tSwitch4) <|
  procThen (procSendByte c 0x28#8 .command) <|
  procThen (procSendByte c 0x0C#8 .command) <|
  procThen (procSendByte c 0x06#8 .command) <|
  procClear c

/-- GOTO's body after admission (R120). -/
def procGoto (c : Config) (row col : Byte) : Procedure :=
  procSendByte c (0x80#8 ||| (ddramAddr row col).zeroExtend 8) .command

/-- The pseudocode of every operation that emits events: the five requests (R86, R87, R114, R120, R125), and each
transfer of R66 by itself. A reserved request has none. -/
def procedure (c : Config) : Instr → Procedure
  | .nib rs n => procNibble c n rs
  | .byte rs v => procSendByte c v rs
  | .init => procInit c
  | .goto row col => procGoto c row col
  | .clear => procClear c
  | .reservedZero _ => fun as => some ([], as)
  | .reservedSixSeven _ _ => fun as => some ([], as)
  | .reservedHigh _ _ => fun as => some ([], as)
  | .force8 => procNibble c 0x3#4 .command
  | .switch4 => procNibble c 0x2#4 .command
  | .functionSet => procSendByte c 0x28#8 .command
  | .displayControl => procSendByte c 0x0C#8 .command
  | .entryModeSet => procSendByte c 0x06#8 .command
  | .clearDisplay => procSendByte c 0x01#8 .command
  | .setDdramAddr a => procSendByte c (0x80#8 ||| a.zeroExtend 8) .command
  | .charData v => procSendByte c v .data

/-- The state after the events `evs`, with `env` left of the script: what was observed, and nothing of the block's
registers. -/
def observe (evs : List Event) (env : List Move) (s : State) : State :=
  { s with
    trace := s.trace ++ evs
    env := env
    display := evs.foldl (fun d e => d.see s.cfg e) s.display }

/-- The state after a request that executed with the events `evs` (R17, R85, R160), field by field; `env` is what is
left of the script. INIT also writes `init_state` and settles the link (R109, R187). -/
def respondedOk (i : Instr) (evs : List Event) (env : List Move) (s : State) : State :=
  { s with
    initState := if i = .init then .ready else s.initState
    busy := false
    seq := .idle
    delay := 0
    rsp := 0#2
    rspValid := true
    trace := s.trace ++ evs
    owner := none
    env := env
    host := s.host.answer s.owner
    display :=
      let d := evs.foldl (fun d e => d.see s.cfg e) { s.display with link := s.display.link.start i }
      if i = .init then { d with link := d.link.initDone } else d }

/-- The state after a transfer run by itself with the events `evs` (log 8): no register of the request or response
port is written. -/
def transferDone (i : Instr) (evs : List Event) (env : List Move) (s : State) : State :=
  { s with
    busy := false
    seq := .idle
    delay := 0
    trace := s.trace ++ evs
    env := env
    display := evs.foldl (fun d e => d.see s.cfg e) { s.display with link := s.display.link.start i } }

/-- The state after a rejected request (R17, R160): the response, and nothing else of the block. Of the world behind the
bus only the link may know of it, and becomes `link` (R185, log 19). -/
def rejectedWith (code : BitVec 2) (link : Link) (s : State) : State :=
  { s with
    busy := false
    seq := .idle
    rsp := code
    rspValid := true
    owner := none
    host := s.host.answer s.owner
    display := { s.display with link := link } }

/-- The event list of a nibble with both writes answered `ok` (R80). -/
def nibbleEvents (c : Config) (n : Nibble) (rs : RegSel) : List Event :=
  [.write (strobeHigh c n rs) .ok, .wait c.tEn, .write (strobeLow c n rs) .ok, .wait c.tHold]

/-- The event list of a byte with all four writes answered `ok` (R83). -/
def byteEvents (c : Config) (v : Byte) (rs : RegSel) : List Event :=
  nibbleEvents c (highNibble v) rs ++ nibbleEvents c (lowNibble v) rs ++ [.wait c.tSettle]

/-- The event list of INIT with every write answered `ok` (R110). -/
def initEvents (c : Config) : List Event :=
  [.wait c.tPowerOn] ++
    nibbleEvents c 0x3#4 .command ++ [.wait c.tForce1] ++
    nibbleEvents c 0x3#4 .command ++ [.wait c.tForce2] ++
    nibbleEvents c 0x3#4 .command ++ [.wait c.tForce3] ++
    nibbleEvents c 0x2#4 .command ++ [.wait c.tSwitch4] ++
    byteEvents c 0x28#8 .command ++ byteEvents c 0x0C#8 .command ++ byteEvents c 0x06#8 .command ++
    byteEvents c 0x01#8 .command ++ [.wait c.tClear]

/-- Whether the operation is admitted in `s` (R163); a transfer by itself always is. -/
def Admitted (i : Instr) (s : State) : Prop :=
  match i with
  | .nib _ _ | .byte _ _ | .goto _ _ | .clear => s.initState = .ready
  | .init => s.initState = .uninit
  | .reservedZero _ | .reservedSixSeven _ _ | .reservedHigh _ _ => False
  | .force8 | .switch4 | .functionSet | .displayControl | .entryModeSet | .clearDisplay => True
  | .setDdramAddr _ | .charData _ => True

/-- The script does not begin by watching a wait. -/
def NoStall : List Move → Prop
  | .stall _ :: _ => False
  | [] | .answer _ :: _ | .clock :: _ | .reset _ :: _ | .request _ :: _ | .call _ :: _ | .host _ :: _ => True

end Sys2Proof.Machine
end

