-- ==== Sys2Proof/Safety.lean ====
section
/-! DEFINITION. What holds of a machine that runs as the spec says: the invariants the statements rest on. -/

namespace Sys2Proof.Machine

/-- The codes of INIT's steps: neither UNINIT nor READY (R26). -/
def InitState.isStep : InitState → Bool
  | .uninit | .ready => false
  | .powerOnWait | .force81 | .force82 | .force83 | .switch4 => true
  | .functionSet | .displayControl | .entryModeSet | .clear => true

/-- What holds while the sequencer stands at index `k` of `i` (R21, R23, R24, R163): `i` is the operation of `req`,
`k` is in its list, the code is a step's inside INIT and READY in every other request, and the delay counter is
above 0 exactly when a wait is in progress. -/
def State.RunningOk (s : State) (i : Instr) (k : Nat) : Prop :=
  decode .req24 s.req = .instr i ∧
  k < (eventList s.cfg i).length ∧
  (if i = .init then s.initState.isStep = true else s.initState = .ready) ∧
  (0 < s.delay ↔ s.waiting ≠ none)

/-- The block's invariant; the delay counter holds no more than its width allows (R171). -/
def State.BlockOk (s : State) : Prop :=
  s.cfg.Wf ∧
  s.delay < 2 ^ s.cfg.delayWidth ∧
  (∀ o ∈ s.offers, o.format = .req24) ∧
  (s.rspValid = true → s.busy = false ∧ s.rsp ≠ 3#2) ∧
  match s.seq with
  | .idle => s.busy = false ∧ s.delay = 0 ∧ (s.initState = .uninit ∨ s.initState = .ready)
  | .running i k => s.busy = true ∧ s.RunningOk i k

/-- Every byte the block has written is a control byte with read/write 0 and backlight 1 (R43-R45). -/
def State.WritesOk (s : State) : Prop :=
  ∀ v ∈ writesOf s.trace, v.getLsbD s.cfg.rwBit.val = false ∧ v.getLsbD s.cfg.blBit.val = true

/-- Whether a thread is between taking the write lock and freeing it (R141, R145). -/
def Thread.holdsLock : Thread → Bool
  | .writeCopy _ _ _ | .writing _ _ | .writeAwait _ _ => true
  | .writeLock _ _ _ | .rowStore _ | .rowRead _ | .rowIssue _ _ | .colStore _ | .colRead _ | .colIssue _ _ => false
  | .gotoAwait | .clearStore _ | .clearIssue | .clearAwait | .clearZero | .returned _ => false

/-- Whether the row a thread is about to store is not negative (R148). -/
def Thread.rowOk : Thread → Bool
  | .rowStore x => 0 ≤ x
  | .writeLock _ _ _ | .writeCopy _ _ _ | .writing _ _ | .writeAwait _ _ => true
  | .rowRead _ | .rowIssue _ _ | .colStore _ | .colRead _ | .colIssue _ _ => true
  | .gotoAwait | .clearStore _ | .clearIssue | .clearAwait | .clearZero | .returned _ => true

/-- The host's invariant: the lock is held exactly while one write session is open, and the stored row is never
negative (R141, R142, R148). -/
def State.HostOk (s : State) : Prop :=
  s.host.threads.countP Thread.holdsLock = (if s.host.lock then 1 else 0) ∧
  0 ≤ s.host.row ∧
  s.host.threads.all Thread.rowOk = true

/-- What may be known of the controller: nothing before INIT (R187), and a known link only from an INIT's end on
(R186). -/
def State.LinkOk (s : State) : Prop :=
  (s.initState = .uninit → s.display.link = .unknown) ∧
  (s.initState = .ready → s.display.link ≠ .initializing) ∧
  (s.initState.isStep = true → s.display.link = .initializing ∨ s.display.link = .unknown)

end Sys2Proof.Machine
end

