-- ==== Sys2Proof/Certificates/Slice0/Obligations.lean ====
section
/-! DEFINITION. The statements for the provers, each from the rules of spec/ that its docstring names. -/

open Sys2Proof Sys2Proof.Machine

/-! ### Encoding -/

/-- R62, R64, R66: no bit of a well-formed instruction's word is dropped by the decoder. -/
def Obligations.DecodeOfEncode : Prop :=
  ∀ i : Instr, i.WellFormed → decode (encode i).1 (encode i).2 = .instr i

/-- R62, R64, R66: a word that decodes is the word of what it decodes to, so no two words mean the same instruction
and no row takes a neighbour's word. -/
def Obligations.EncodeOfDecode : Prop :=
  ∀ (f : Format) (w : ReqWord) (i : Instr), decode f w = .instr i → i.WellFormed ∧ encode i = (f, w)

/-- R64: which request words are illegal, field by field, and that in every idle state such a request is refused as a
whole: of the block only the latched word and the response change. What becomes of the link is left to
OtherRequestBreaksThePair. -/
def Obligations.IllegalWordsExactly : Prop :=
  ∀ w : ReqWord,
    ((opField w = 0#4 ∨ 6 ≤ (opField w).toNat ∨
      (opField w = 1#4 ∧ (rsvField w ≠ 0#3 ∨ aField w ≠ 0#8 ∨ highNibble (bField w) ≠ 0#4)) ∨
      (opField w = 2#4 ∧ (rsvField w ≠ 0#3 ∨ aField w ≠ 0#8)) ∨
      (opField w = 4#4 ∧ (rsvField w ≠ 0#3 ∨ rsField w ≠ .command)) ∨
      ((opField w = 3#4 ∨ opField w = 5#4) ∧ restField w ≠ 0#20)) →
      ∀ (s : State) (own : Option Nat) (rest : List Offer),
        s.busy = false → s.offers = ⟨own, .req24, w⟩ :: rest →
          ∃ link, step s = .next
            { s with
              req := w, offers := rest, busy := false, seq := .idle, rsp := 1#2, rspValid := true, owner := none
              host := s.host.answer own
              display := { s.display with link := link } }) ∧
    (¬ (opField w = 0#4 ∨ 6 ≤ (opField w).toNat ∨
      (opField w = 1#4 ∧ (rsvField w ≠ 0#3 ∨ aField w ≠ 0#8 ∨ highNibble (bField w) ≠ 0#4)) ∨
      (opField w = 2#4 ∧ (rsvField w ≠ 0#3 ∨ aField w ≠ 0#8)) ∨
      (opField w = 4#4 ∧ (rsvField w ≠ 0#3 ∨ rsField w ≠ .command)) ∨
      ((opField w = 3#4 ∨ opField w = 5#4) ∧ restField w ≠ 0#20)) →
      (opField w = 1#4 ∧ decode .req24 w = .instr (.nib (rsField w) (nibbleField w))) ∨
      (opField w = 2#4 ∧ decode .req24 w = .instr (.byte (rsField w) (bField w))) ∨
      (opField w = 3#4 ∧ decode .req24 w = .instr .init) ∨
      (opField w = 4#4 ∧ decode .req24 w = .instr (.goto (aField w) (bField w))) ∨
      (opField w = 5#4 ∧ decode .req24 w = .instr .clear))

/-- R62, R66: words written out from the encoding columns decode to the instructions they stand for. -/
def Obligations.SpecWordsDecode : Prop :=
  decode .req24 0b0001_0001_0000_0000_0000_1010#24 = .instr (.nib .data 0xA#4) ∧
  decode .req24 0b0010_0001_0000_0000_0100_0001#24 = .instr (.byte .data 0x41#8) ∧
  decode .req24 0b0011_0000_0000_0000_0000_0000#24 = .instr .init ∧
  decode .req24 0b0100_0000_0000_0001_0000_0101#24 = .instr (.goto 1#8 5#8) ∧
  decode .req24 0b0101_0000_0000_0000_0000_0000#24 = .instr .clear ∧
  decode .req24 0b0110_0000_0000_0000_0000_0000#24 = .instr (.reservedSixSeven 6#4 0#20) ∧
  decode .command 0b1100_0101#24 = .instr (.setDdramAddr 0x45#7)

/-- R75: the assembler's words, and its refusal of an operand out of range. -/
def Obligations.AssemblerWords : Prop :=
  ∀ v u : Nat,
    (assemble (.nib .command v) = if v < 16 then some (BitVec.ofNat 24 (0x100000 + v)) else none) ∧
    (assemble (.nib .data v) = if v < 16 then some (BitVec.ofNat 24 (0x110000 + v)) else none) ∧
    (assemble (.byte .command v) = if v < 256 then some (BitVec.ofNat 24 (0x200000 + v)) else none) ∧
    (assemble (.byte .data v) = if v < 256 then some (BitVec.ofNat 24 (0x210000 + v)) else none) ∧
    assemble .init = some 0x300000#24 ∧
    (assemble (.goto u v) =
      if u < 256 ∧ v < 256 then some (BitVec.ofNat 24 (0x400000 + 256 * u + v)) else none) ∧
    assemble .clear = some 0x500000#24 ∧
    assemble (.cmd v) = assemble (.byte .command v) ∧
    assemble (.data v) = assemble (.byte .data v) ∧
    assemble (.putc v) = if v = 0x0A then assemble (.cmd 0xC0) else assemble (.data v)

/-! ### The step -/

/-- R21: an idle block accepts the request first at its port, latching the word and becoming busy in the same step,
and runs the instruction its word decodes to. That `rsp_valid` falls is the model's choice (log 6). -/
def Obligations.StepRunsDecoded : Prop :=
  ∀ (s : State) (own : Option Nat) (w : ReqWord) (rest : List Offer) (i : Instr),
    s.busy = false → s.offers = ⟨own, .req24, w⟩ :: rest → decode .req24 w = .instr i →
      step s = exec i { s with busy := true, req := w, rspValid := false, owner := own, offers := rest }

/-- The model's way to place a word of the opcode table (logs 1 and 9): the next step runs the instruction it decodes
to, a request after latching it and clearing `rsp_valid` (the model's choice, log 6), a transfer with only `busy` set
(log 8). -/
def Obligations.PlacedWordRuns : Prop :=
  ∀ (s : State) (nbits w : Nat) (i : Instr), decodeTableWord nbits w = some i →
    step (s.withFetchWord nbits w) =
      exec i
        { s with
          busy := true, seq := .idle, delay := 0
          req := if i.isTransfer then s.req else BitVec.ofNat 24 w
          rspValid := if i.isTransfer then s.rspValid else false
          owner := none }

/-- R162: a request presented while the block is busy is held behind those already held, and nothing else happens;
and no step of a busy block drops or reorders what is held. The order is the model's choice (log 14). -/
def Obligations.HeldWhileBusy : Prop :=
  (∀ (s : State) (i : Instr) (k : Nat) (w : ReqWord) (env : List Move),
    s.busy = true → s.seq = .running i k → s.env = .request w :: env →
      step s = .next { s with env := env, offers := s.offers ++ [⟨none, .req24, w⟩] }) ∧
  (∀ s t : State, s.busy = true → step s = .next t → s.offers <+: t.offers)

/-- R191, R41: while a write is outstanding nothing but its answer or a reset moves the block, a clock edge or a stall
does nothing at all (log 13), and when the outside does nothing more the machine is stuck (log 4). -/
def Obligations.UnansweredWriteNeverPassed : Prop :=
  ∀ (s : State) (i : Instr) (k : Nat), s.busy = true → s.seq = .running i k → s.busOffer ≠ none →
    (s.env = [] → step s = .fault .transportSilent) ∧
    (∀ env, (s.env = .clock :: env ∨ ∃ x, s.env = .stall x :: env) → step s = .next { s with env := env }) ∧
    ∀ t : State, (∀ a env, s.env ≠ .answer a :: env) → (∀ l env, s.env ≠ .reset l :: env) → step s = .next t →
      t.trace = s.trace ∧ t.seq = s.seq ∧ t.busy = true ∧ t.initState = s.initState ∧ t.rspValid = s.rspValid

/-- R41, R162, R182, R191, R23: an admitted operation whose answers run out stands at a write with the byte on offer, all
answers used, and leaves whatever the outside does next in the script. When the answer comes, the step emits that write,
answered, and the operation goes on behind it, past what a failure removes. A transfer is run by itself (log 8). -/
def Obligations.RunsOutAtAWrite : Prop :=
  (∀ (i : Instr) (s : State) (as : List Answer) (rest : List Move),
    Admitted i s → s.env = as.map .answer ++ rest → NoStall rest → (∀ a more, rest ≠ .answer a :: more) →
    procedure s.cfg i as = none →
      ∃ t, exec i s = .next t ∧ t.busy = true ∧ (∃ k, t.seq = .running i k) ∧ t.busOffer ≠ none ∧ t.env = rest) ∧
  ∀ (i : Instr) (s : State) (k : Nat) (v : Byte) (a : Answer) (env : List Move),
    s.busy = true → s.seq = .running i k → s.busOffer = some v → s.env = .answer a :: env →
      ∃ (t : State) (sl : Slot) (onFail : Nat),
        (eventList s.cfg i)[k]? = some sl ∧ sl.action = .write v onFail ∧
        t = runSlots i ((eventList s.cfg i).drop (k + 1)) (k + 1) (a.removes onFail)
          ((s.enter sl.enters).emitWrite v a env) ∧
        step s = .next t ∧ (s.trace ++ [.write v a]) <+: t.trace ∧ t.env <:+ env ∧
        (t.busy = false ∧ t.seq = .idle ∨ t.busy = true ∧ ∃ k', k < k' ∧ t.seq = .running i k')

/-- R21, R23: a run that the outside holds up is the run it would have been at once. Where `exec` stands at a write
with the script used up, the step that has the answer gives what `exec` gives with that answer in the script from the
start; and where it stands at a watched wait (log 12), the step in which the wait ends, by running out or by the clock
edge that brings its counter to 0, gives what `exec` gives with the wait not watched. A transfer is run by itself (log 8). -/
def Obligations.HeldUpRunIsTheSameRun : Prop :=
  ∀ (i : Instr) (s t : State) (moves rest : List Move),
    (exec i { s with env := moves } = .next t → t.busy = true → t.busOffer ≠ none → t.env = [] →
      ∀ a : Answer, step { t with env := .answer a :: rest } = exec i { s with env := moves ++ .answer a :: rest }) ∧
    ∀ extra : Nat, exec i { s with env := moves ++ [.stall extra] } = .next t → t.busy = true → t.waiting ≠ none →
      t.env = [] →
        ((rest = [] ∨ ∃ a more, rest = .answer a :: more) →
          step { t with env := rest } = exec i { s with env := moves ++ rest }) ∧
        ∀ d : Nat, d ≤ 1 → NoStall rest →
          step { t with delay := d, env := .clock :: rest } = exec i { s with env := moves ++ rest }

/-- R24, R25: STATUS. -/
def Obligations.StatusBits : Prop :=
  ∀ s : State,
    (s.status.getLsbD 0 = true ↔ s.busy = true) ∧ (s.status.getLsbD 1 = true ↔ s.initState = .ready)

/-! ### NIB and BYTE -/

/-- R80, R81: a nibble is two writes, enable set and then cleared, each followed by its wait, and a failed write ends
it there. NIB completes with OK under every answer. -/
def Obligations.NibStrobesOnce : Prop :=
  ∀ (rs : RegSel) (n : Nibble) (s : State) (env : List Move) (l : Bool),
    s.initState = .ready →
      let base : Byte := (n.zeroExtend 8 <<< 4) ||| bitMask s.cfg.blBit |||
        (if rs = .data then bitMask s.cfg.rsBit else 0#8)
      let en := bitMask s.cfg.enBit
      (s.env = .answer .ok :: .answer .ok :: env → NoStall env →
        exec (.nib rs n) s = .next (respondedOk (.nib rs n)
          [.write (base ||| en) .ok, .wait s.cfg.tEn, .write (base &&& ~~~ en) .ok, .wait s.cfg.tHold] env s)) ∧
      (s.env = .answer (.fail l) :: env →
        exec (.nib rs n) s = .next (respondedOk (.nib rs n) [.write (base ||| en) (.fail l)] env s)) ∧
      (s.env = .answer .ok :: .answer (.fail l) :: env →
        exec (.nib rs n) s = .next (respondedOk (.nib rs n)
          [.write (base ||| en) .ok, .wait s.cfg.tEn, .write (base &&& ~~~ en) (.fail l)] env s))

/-- R82: with distinct control bits the two writes of a nibble differ only in the enable bit, which is 1 in the first
and 0 in the second, and the second is `base` itself. -/
def Obligations.StrobesDifferInEnable : Prop :=
  ∀ (c : Config) (n : Nibble) (rs : RegSel), c.Wf →
    strobeLow c n rs = controlBase c n rs ∧
    strobeHigh c n rs = controlBase c n rs ||| bitMask c.enBit ∧
    (strobeHigh c n rs).getLsbD c.enBit.val = true ∧ (strobeLow c n rs).getLsbD c.enBit.val = false ∧
    (∀ j < 8, j ≠ c.enBit.val → (strobeHigh c n rs).getLsbD j = (strobeLow c n rs).getLsbD j) ∧
    highNibble (strobeHigh c n rs) = n ∧ highNibble (strobeLow c n rs) = n

/-- R83: BYTE without failure sends the high nibble, then the low nibble, then waits the settle time. -/
def Obligations.ByteSendsHighThenLow : Prop :=
  ∀ (rs : RegSel) (v : Byte) (s : State) (env : List Move),
    s.initState = .ready → s.env = List.replicate 4 (.answer .ok) ++ env → NoStall env →
      exec (.byte rs v) s = .next (respondedOk (.byte rs v)
        [.write (strobeHigh s.cfg (v.extractLsb' 4 4) rs) .ok, .wait s.cfg.tEn,
          .write (strobeLow s.cfg (v.extractLsb' 4 4) rs) .ok, .wait s.cfg.tHold,
          .write (strobeHigh s.cfg (v.extractLsb' 0 4) rs) .ok, .wait s.cfg.tEn,
          .write (strobeLow s.cfg (v.extractLsb' 0 4) rs) .ok, .wait s.cfg.tHold,
          .wait s.cfg.tSettle] env s)

/-- R84, under BYTE: the first failed write ends the byte, with no further nibble and no settle wait. -/
def Obligations.ByteScopeEndsTheByte : Prop :=
  ∀ (rs : RegSel) (v : Byte) (s : State) (env : List Move) (l : Bool),
    s.initState = .ready → s.cfg.failScope = .byte →
      let hE := strobeHigh s.cfg (highNibble v) rs
      let h := strobeLow s.cfg (highNibble v) rs
      let lE := strobeHigh s.cfg (lowNibble v) rs
      let lo := strobeLow s.cfg (lowNibble v) rs
      let done := fun evs => exec (.byte rs v) s = .next (respondedOk (.byte rs v) evs env s)
      (s.env = .answer (.fail l) :: env → done [.write hE (.fail l)]) ∧
      (s.env = .answer .ok :: .answer (.fail l) :: env →
        done [.write hE .ok, .wait s.cfg.tEn, .write h (.fail l)]) ∧
      (s.env = .answer .ok :: .answer .ok :: .answer (.fail l) :: env →
        done [.write hE .ok, .wait s.cfg.tEn, .write h .ok, .wait s.cfg.tHold, .write lE (.fail l)]) ∧
      (s.env = .answer .ok :: .answer .ok :: .answer .ok :: .answer (.fail l) :: env →
        done [.write hE .ok, .wait s.cfg.tEn, .write h .ok, .wait s.cfg.tHold, .write lE .ok, .wait s.cfg.tEn,
          .write lo (.fail l)])

/-- R84, under NIBBLE: a failed nibble does not stop the byte; the low nibble still follows a failed high nibble and
the settle wait is still emitted. -/
def Obligations.NibbleScopeGoesOn : Prop :=
  ∀ (rs : RegSel) (v : Byte) (s : State) (env : List Move) (l m : Bool),
    s.initState = .ready → s.cfg.failScope = .nibble → NoStall env →
      let hE := strobeHigh s.cfg (highNibble v) rs
      let h := strobeLow s.cfg (highNibble v) rs
      let lE := strobeHigh s.cfg (lowNibble v) rs
      let lo := strobeLow s.cfg (lowNibble v) rs
      let done := fun evs => exec (.byte rs v) s = .next (respondedOk (.byte rs v) evs env s)
      (s.env = .answer (.fail l) :: .answer .ok :: .answer .ok :: env →
        done ([.write hE (.fail l)] ++ nibbleEvents s.cfg (lowNibble v) rs ++ [.wait s.cfg.tSettle])) ∧
      (s.env = .answer .ok :: .answer (.fail l) :: .answer .ok :: .answer .ok :: env →
        done ([.write hE .ok, .wait s.cfg.tEn, .write h (.fail l)] ++
          nibbleEvents s.cfg (lowNibble v) rs ++ [.wait s.cfg.tSettle])) ∧
      (s.env = .answer .ok :: .answer .ok :: .answer (.fail l) :: env →
        done (nibbleEvents s.cfg (highNibble v) rs ++ [.write lE (.fail l), .wait s.cfg.tSettle])) ∧
      (s.env = .answer .ok :: .answer .ok :: .answer .ok :: .answer (.fail l) :: env →
        done (nibbleEvents s.cfg (highNibble v) rs ++
          [.write lE .ok, .wait s.cfg.tEn, .write lo (.fail l), .wait s.cfg.tSettle])) ∧
      (s.env = .answer (.fail l) :: .answer (.fail m) :: env →
        done [.write hE (.fail l), .write lE (.fail m), .wait s.cfg.tSettle])

/-- R46, R48, R83: read back through its enable pulses, a byte without failure is its high nibble and then its low
nibble, each with the byte's register-select. -/
def Obligations.PulsesReadBack : Prop :=
  ∀ (c : Config) (v : Byte) (rs : RegSel), c.Wf →
    pulses c none (byteEvents c v rs) = [(rs == .data, highNibble v), (rs == .data, lowNibble v)]

/-! ### INIT -/

/-- R110: INIT without failure emits its 58 events in order, 24 writes and the rest waits, and ends READY with OK; at
the defaults of R9 they are the literal list of R110, with 50,700 µs of waits. -/
def Obligations.InitRunsTheSequence : Prop :=
  ∀ (s : State) (env : List Move),
    s.initState = .uninit → s.env = List.replicate 24 (.answer .ok) ++ env → NoStall env →
      exec .init s = .next (respondedOk .init (initEvents s.cfg) env s) ∧
      (initEvents s.cfg).length = 58 ∧ (writesOf (initEvents s.cfg)).length = 24 ∧
      totalWait (initEvents s.cfg) =
        12 * s.cfg.tEn + 12 * s.cfg.tHold + 4 * s.cfg.tSettle + s.cfg.tPowerOn + s.cfg.tForce1 + s.cfg.tForce2 +
          s.cfg.tForce3 + s.cfg.tSwitch4 + s.cfg.tClear ∧
      totalWait (initEvents Config.standard) = 50700 ∧
      let W := fun v : Byte => Event.write v .ok
      let D := Event.wait
      initEvents Config.standard =
        [D 40000,
          W 0x3C#8, D 50, W 0x38#8, D 50, D 5000,
          W 0x3C#8, D 50, W 0x38#8, D 50, D 150,
          W 0x3C#8, D 50, W 0x38#8, D 50, D 150,
          W 0x2C#8, D 50, W 0x28#8, D 50, D 2000,
          W 0x2C#8, D 50, W 0x28#8, D 50, W 0x8C#8, D 50, W 0x88#8, D 50, D 50,
          W 0x0C#8, D 50, W 0x08#8, D 50, W 0xCC#8, D 50, W 0xC8#8, D 50, D 50,
          W 0x0C#8, D 50, W 0x08#8, D 50, W 0x6C#8, D 50, W 0x68#8, D 50, D 50,
          W 0x0C#8, D 50, W 0x08#8, D 50, W 0x1C#8, D 50, W 0x18#8, D 50, D 50, D 2000]

/-- R111: whatever the bus answers, INIT runs every step of R114 with each failed nibble cut short as R81 and R84 say,
every step's own wait is emitted, in order, and it ends READY with OK. -/
def Obligations.InitNeverStopsOnFailure : Prop :=
  ∀ (s : State) (as : List Answer) (rest : List Move),
    s.initState = .uninit → s.env = as.map .answer ++ rest → 24 ≤ as.length → NoStall rest →
      ∃ (evs : List Event) (left : List Answer),
        exec .init s = .next (respondedOk .init evs (left.map .answer ++ rest) s) ∧
        procInit s.cfg as = some (evs, left) ∧
        [Event.wait s.cfg.tPowerOn, .wait s.cfg.tForce1, .wait s.cfg.tForce2, .wait s.cfg.tForce3,
          .wait s.cfg.tSwitch4, .wait s.cfg.tClear].Sublist evs

/-- R112, R24: however INIT is left, STATUS shows BUSY and not READY while it executes, and READY and not BUSY once it
has ended. -/
def Obligations.InitStatus : Prop :=
  ∀ s t : State, s.initState = .uninit → exec .init s = .next t →
    (t.busy = true ∧ t.status = 0b01#2 ∧ t.initState.isStep = true) ∨
      (t.busy = false ∧ t.status = 0b10#2 ∧ t.rsp = 0#2 ∧ t.rspValid = true)

/-- R163: the admission table. A request that is not admitted ends with BAD_STATE and has no effect; one that is
admitted executes or ends with OK. What becomes of the link is left to OtherRequestBreaksThePair. -/
def Obligations.AdmissionTable : Prop :=
  ∀ s : State,
    (∀ (i : Instr) (t : State),
      (i = .init ∧ s.initState = .uninit) ∨
        (s.initState = .ready ∧
          ((∃ rs n, i = .nib rs n) ∨ (∃ rs v, i = .byte rs v) ∨ (∃ row col, i = .goto row col) ∨ i = .clear)) →
      exec i s = .next t → t.busy = true ∨ (t.busy = false ∧ t.rspValid = true ∧ t.rsp = 0#2)) ∧
    ∃ link,
      (s.initState ≠ .uninit → exec .init s = .next (rejectedWith 2#2 link s)) ∧
      (s.initState ≠ .ready →
        (∀ rs n, exec (.nib rs n) s = .next (rejectedWith 2#2 link s)) ∧
        (∀ rs v, exec (.byte rs v) s = .next (rejectedWith 2#2 link s)) ∧
        (∀ row col, exec (.goto row col) s = .next (rejectedWith 2#2 link s)) ∧
        exec .clear s = .next (rejectedWith 2#2 link s))

/-- R161, R164: the reserved rows end with ILLEGAL in every state and have no effect; between the two NIBs of a pair the
controller is then out of step (R185, read through the link of log 19). -/
def Obligations.ReservedRejected : Prop :=
  ∀ (s : State) (op : BitVec 4) (rest : BitVec 20),
    let link := if s.display.link = .low then .unknown else s.display.link
    exec (.reservedZero rest) s = .next (rejectedWith 1#2 link s) ∧
    exec (.reservedSixSeven op rest) s = .next (rejectedWith 1#2 link s) ∧
    exec (.reservedHigh op rest) s = .next (rejectedWith 1#2 link s)

/-! ### GOTO and CLEAR -/

/-- R120-R123: GOTO sends `0x80 | addr` as a Command byte, where addr is the offset of the clamped row plus the column,
modulo 128, and completes with OK for every row and column. -/
def Obligations.GotoSendsTheAddress : Prop :=
  ∀ (row col : Byte) (s : State) (env : List Move),
    s.initState = .ready → s.env = List.replicate 4 (.answer .ok) ++ env → NoStall env →
      ∃ cmd : Byte,
        cmd.toNat = 0x80 +
          ((match min row.toNat 3 with | 0 => 0x00 | 1 => 0x40 | 2 => 0x14 | _ => 0x54) + col.toNat) % 128 ∧
        exec (.goto row col) s = .next (respondedOk (.goto row col) (byteEvents s.cfg cmd .command) env s)

/-- R121: the clamped row is `min(row, 3)`, and every row from 3 to 255 behaves as row 3: the same trace and the same
response under the same answers. -/
def Obligations.RowsFromThreeAreRowThree : Prop :=
  (∀ row : Byte, (clampRow row).val = min row.toNat 3) ∧
  ∀ (row col : Byte) (s t u : State), 3 ≤ row.toNat →
    exec (.goto row col) s = .next t → exec (.goto 3#8 col) s = .next u →
      t.trace = u.trace ∧ t.env = u.env ∧ t.busy = u.busy ∧ t.rsp = u.rsp ∧ t.rspValid = u.rspValid ∧
        t.busOffer = u.busOffer ∧ t.initState = u.initState ∧ t.display = u.display

/-- R123: for rows 0 to 3 and columns 0 to 15 the modulo changes nothing: the instruction is
`0x80 | (row_offset[row] + column)`, the sum at most 0x63. -/
def Obligations.AddressInRange : Prop :=
  ∀ row col : Byte, row.toNat ≤ 3 → col.toNat ≤ 15 →
    (rowOffset (clampRow row)).toNat + col.toNat ≤ 0x63 ∧
    (ddramAddr row col).toNat = (rowOffset (clampRow row)).toNat + col.toNat ∧
    (setAddrCommand (ddramAddr row col)).toNat = 0x80 + ((rowOffset (clampRow row)).toNat + col.toNat)

/-- R125, R126: CLEAR sends 0x01 as a Command byte and then waits the clear time; the wait is emitted whatever the bus
answered, and the request completes with OK. -/
def Obligations.ClearAlwaysWaits : Prop :=
  ∀ (s : State) (as : List Answer) (rest : List Move),
    s.initState = .ready → s.env = as.map .answer ++ rest → 4 ≤ as.length → NoStall rest →
      ∃ (evs : List Event) (left : List Answer),
        exec .clear s =
          .next (respondedOk .clear (evs ++ [.wait s.cfg.tClear]) (left.map .answer ++ rest) s) ∧
        procSendByte s.cfg 0x01#8 .command as = some (evs, left) ∧
        ((∃ more, as = List.replicate 4 .ok ++ more) → evs = byteEvents s.cfg 0x01#8 .command)

/-- R127: a second CLEAR emits the same events as the first, the 9 of its byte and the clear wait, and leaves the block's own state as the first left it. -/
def Obligations.ClearTwice : Prop :=
  ∀ (s t u : State) (as : List Answer) (rest : List Move),
    s.initState = .ready → s.env = as.map .answer ++ (as.map .answer ++ rest) → NoStall rest →
    exec .clear s = .next t → t.env = as.map .answer ++ rest → t.busy = false →
    exec .clear t = .next u →
      ∃ evs, t.trace = s.trace ++ evs ∧ u.trace = t.trace ++ evs ∧
        u.busy = t.busy ∧ u.initState = t.initState ∧ u.req = t.req ∧ u.seq = t.seq ∧ u.delay = t.delay ∧
        u.rsp = t.rsp ∧ u.rspValid = t.rspValid ∧
        (as = List.replicate 4 .ok →
          evs = byteEvents s.cfg 0x01#8 .command ++ [.wait s.cfg.tClear] ∧ evs.length = 10)

/-! ### Transfers -/

/-- R66, R72 (the model's own instructions, log 8): a single-nibble transfer emits its nibble as a Command. -/
def Obligations.NibbleTransfersComplete : Prop :=
  ∀ (s : State) (env : List Move),
    s.env = List.replicate 2 (.answer .ok) ++ env → NoStall env →
      exec .force8 s = .next (transferDone .force8 (nibbleEvents s.cfg 0x3#4 .command) env s) ∧
      exec .switch4 s = .next (transferDone .switch4 (nibbleEvents s.cfg 0x2#4 .command) env s)

/-- R66-R73 (the model's own instructions, log 8): a byte transfer emits its byte, an instruction with RS = 0 and a
character with RS = 1. -/
def Obligations.ByteTransfersComplete : Prop :=
  ∀ (s : State) (env : List Move),
    s.env = List.replicate 4 (.answer .ok) ++ env → NoStall env →
      exec .functionSet s = .next (transferDone .functionSet (byteEvents s.cfg 0x28#8 .command) env s) ∧
      exec .displayControl s = .next (transferDone .displayControl (byteEvents s.cfg 0x0C#8 .command) env s) ∧
      exec .entryModeSet s = .next (transferDone .entryModeSet (byteEvents s.cfg 0x06#8 .command) env s) ∧
      exec .clearDisplay s = .next (transferDone .clearDisplay (byteEvents s.cfg 0x01#8 .command) env s) ∧
      (∀ a : DdramAddr, exec (.setDdramAddr a) s =
        .next (transferDone (.setDdramAddr a) (byteEvents s.cfg (0x80#8 ||| a.zeroExtend 8) .command) env s)) ∧
      (∀ v : Byte, exec (.charData v) s =
        .next (transferDone (.charData v) (byteEvents s.cfg v .data) env s))

/-! ### Every operation -/

/-- R23 against R80, R83, R84, R114, R120, R126: the sequencer, walking the fixed event list and skipping what a
failure removes, does exactly what the spec's pseudocode does, for every admitted operation under every answers. A
transfer is run by itself (log 8). -/
def Obligations.SequencerIsThePseudocode : Prop :=
  ∀ (i : Instr) (s : State) (as left : List Answer) (rest : List Move) (evs : List Event),
    Admitted i s → s.env = as.map .answer ++ rest → NoStall rest → procedure s.cfg i as = some (evs, left) →
      exec i s = .next
        (if i.isTransfer then transferDone i evs (left.map .answer ++ rest) s
          else respondedOk i evs (left.map .answer ++ rest) s)

/-- R85: a request during which writes failed ends like any other: OK, and nothing in the block records it. Two runs
of one request that differ in their answers leave the block's registers equal. -/
def Obligations.FailuresLeaveNoRecord : Prop :=
  ∀ (i : Instr) (s : State) (as bs : List Answer) (t u : State),
    i.isTransfer = false → Admitted i s →
    exec i { s with env := as.map .answer } = .next t → exec i { s with env := bs.map .answer } = .next u →
    t.busy = false → u.busy = false →
      t.rsp = 0#2 ∧ t.rspValid = true ∧ t.rsp = u.rsp ∧ t.rspValid = u.rspValid ∧ t.initState = u.initState ∧
        t.req = u.req ∧ t.seq = u.seq ∧ t.delay = u.delay ∧ t.host = u.host ∧ t.offers = u.offers

/-- R86, R87, R120, R125 ("State written: none besides the events"): the frame of NIB, BYTE, GOTO and CLEAR under every
script, admitted or not, finished or not. -/
def Obligations.RequestFrame : Prop :=
  ∀ (i : Instr) (s t : State),
    ((∃ rs n, i = .nib rs n) ∨ (∃ rs v, i = .byte rs v) ∨ (∃ row col, i = .goto row col) ∨ i = .clear) →
    exec i s = .next t →
      t.cfg = s.cfg ∧ t.initState = s.initState ∧ t.req = s.req ∧ t.offers = s.offers ∧
      t.host.lock = s.host.lock ∧ t.host.row = s.host.row ∧ t.host.col = s.host.col ∧ t.host.clear = s.host.clear ∧
      (∀ n, s.owner ≠ some n → t.host.threads[n]? = s.host.threads[n]?) ∧
      s.trace <+: t.trace ∧ t.env <:+ s.env ∧
      (t.busy = true → t.rsp = s.rsp ∧ t.rspValid = s.rspValid ∧ t.owner = s.owner ∧ t.host = s.host)

/-- R100, R20: the frame of INIT, which writes `init_state` besides the events. -/
def Obligations.InitFrame : Prop :=
  ∀ s t : State, exec .init s = .next t →
    t.cfg = s.cfg ∧ t.req = s.req ∧ t.offers = s.offers ∧
    t.host.lock = s.host.lock ∧ t.host.row = s.host.row ∧ t.host.col = s.host.col ∧ t.host.clear = s.host.clear ∧
    (∀ n, s.owner ≠ some n → t.host.threads[n]? = s.host.threads[n]?) ∧
    s.trace <+: t.trace ∧ t.env <:+ s.env ∧
    (s.initState ≠ .uninit → t.initState = s.initState ∧ t.trace = s.trace ∧ t.env = s.env) ∧
    (t.busy = true → t.rsp = s.rsp ∧ t.rspValid = s.rspValid ∧ t.owner = s.owner ∧ t.host = s.host)

/-- The frame of a transfer run by itself (log 8): it touches no register of the request or response port and nothing
of the host. -/
def Obligations.TransferFrame : Prop :=
  ∀ (i : Instr) (s t : State), i.isTransfer = true → exec i s = .next t →
    t.cfg = s.cfg ∧ t.initState = s.initState ∧ t.req = s.req ∧ t.offers = s.offers ∧ t.rsp = s.rsp ∧
    t.rspValid = s.rspValid ∧ t.owner = s.owner ∧ t.host = s.host ∧ s.trace <+: t.trace ∧ t.env <:+ s.env

/-- R16: the merged form of a trace has no two adjacent waits, and merging leaves every write in its place, so that it
replaces every maximal run of waits; it keeps the sum of the waits of every run, and the merged trace is equivalent to
the trace. Traces are compared on `W(v)` and `D(t)` alone, and equal ones are equivalent. -/
def Obligations.MergedTraceIsEquivalent : Prop :=
  ∀ a : List Event,
    writesOf (mergeWaits a) = writesOf a ∧ totalWait (mergeWaits a) = totalWait a ∧ TraceEquiv (mergeWaits a) a ∧
    (∀ (pre post : List Event) (us us' : Nat), mergeWaits a ≠ pre ++ .wait us :: .wait us' :: post) ∧
    (∀ (v : Byte) (r : Answer) (b : List Event),
      mergeWaits (a ++ .write v r :: b) = mergeWaits a ++ .write v r :: mergeWaits b) ∧
    ∀ b : List Event, TraceEq a b → TraceEquiv a b

/-- R192: bus writes and minimum waits of each request at the defaults, when no write fails. -/
def Obligations.MinimumDurations : Prop :=
  ∀ (i : Instr) (evs : List Event) (left : List Answer),
    procedure Config.standard i (List.replicate 24 .ok) = some (evs, left) →
      ((∃ rs n, i = .nib rs n) → (writesOf evs).length = 2 ∧ totalWait evs = 100) ∧
      ((∃ rs v, i = .byte rs v) → (writesOf evs).length = 4 ∧ totalWait evs = 250) ∧
      ((∃ row col, i = .goto row col) → (writesOf evs).length = 4 ∧ totalWait evs = 250) ∧
      (i = .clear → (writesOf evs).length = 4 ∧ totalWait evs = 2250) ∧
      (i = .init → (writesOf evs).length = 24 ∧ totalWait evs = 50700)

/-! ### Waits and reset -/

/-- R190: a watched wait (log 12), also one that starts a step of INIT, loads `ceil(t × F_CLK_HZ / 1,000,000)` plus the
drawn extra, at most what the counter holds (R171, log 28), counts down once per clock edge, and its event is emitted when the counter reaches 0 and not before. With
no clock edge next in the script the wait runs out (R162: "every `D` wait ends"): its event is emitted and the operation
goes on behind it. -/
def Obligations.DelayCounterCounts : Prop :=
  (∀ (s : State) (t extra : Nat) (c : Option InitState) (i : Instr) (k : Nat) (rest : List Slot) (env : List Move),
    s.env = .stall extra :: env →
      ∃ d, runSlots i ({ enters := c, action := .wait t } :: rest) k 0 s =
          { s with seq := .running i k, delay := d, env := env, initState := c.getD s.initState } ∧
        d < 2 ^ s.cfg.delayWidth ∧
        (∃ least, t * s.cfg.fClkHz ≤ least * 1000000 ∧ least * 1000000 < t * s.cfg.fClkHz + 1000000 ∧
          d = min (least + extra) (2 ^ s.cfg.delayWidth - 1)) ∧
        (s.cfg.Wf → t ∈ s.cfg.waits → t * s.cfg.fClkHz ≤ d * 1000000)) ∧
  (∀ (s : State) (i : Instr) (k us : Nat) (env : List Move),
    s.busy = true → s.seq = .running i k → s.waiting = some us → s.env = .clock :: env →
      (1 < s.delay → step s = .next { s with delay := s.delay - 1, env := env }) ∧
      (s.delay ≤ 1 → ∃ t : State,
        t = runSlots i ((eventList s.cfg i).drop (k + 1)) (k + 1) 0 (State.emitWait us { s with env := env }) ∧
        step s = .next t ∧ (s.trace ++ [.wait us]) <+: t.trace ∧
        (t.busy = false ∧ t.seq = .idle ∨ t.busy = true ∧ ∃ k', k < k' ∧ t.seq = .running i k'))) ∧
  ∀ (s : State) (i : Instr) (k us : Nat),
    s.busy = true → s.seq = .running i k → s.waiting = some us → (s.env = [] ∨ ∃ a env, s.env = .answer a :: env) →
      ∃ t : State, t = runSlots i ((eventList s.cfg i).drop (k + 1)) (k + 1) 0 (s.emitWait us) ∧
        step s = .next t ∧ (s.trace ++ [.wait us]) <+: t.trace ∧
        (t.busy = false ∧ t.seq = .idle ∨ t.busy = true ∧ ∃ k', k < k' ∧ t.seq = .running i k')

/-- R181, R182: a reset of an executing block, at any event, or of an idle one with nothing held (an idle block accepts
what is held first, log 27), leaves every block register as R181 says, emits no event, gives no response and
keeps the configuration, the host's state and what is held (log 27); the pins and the link are as logs 18 and 19 say.
Of `req` and `rsp_code`, which R181 leaves unspecified,
nothing is said. -/
def Obligations.ResetAbandons : Prop :=
  ∀ (s : State) (landed : Bool) (env : List Move), s.env = .reset landed :: env →
    ((s.busy = true ∧ s.seq ≠ .idle) ∨ (s.busy = false ∧ s.offers = [])) →
      ∃ t, step s = .next t ∧ t.initState = .uninit ∧ t.busy = false ∧ t.seq = .idle ∧ t.delay = 0 ∧
        t.rspValid = false ∧ t.status = 0#2 ∧ t.busOffer = none ∧ t.cfg = s.cfg ∧ t.trace = s.trace ∧
        t.host = s.host ∧ t.offers = s.offers ∧ t.env = env ∧ t.display.link = .unknown ∧
        (t.display.pins = s.display.pins ∨ some t.display.pins = s.busOffer)

/-- R181, R147: the state after reset, the values the spec gives, and what the block's reset gives from every state: it
emits no event and keeps the configuration and the host's state. -/
def Obligations.ResetState : Prop :=
  State.reset.initState = .uninit ∧ State.reset.busy = false ∧ State.reset.seq = .idle ∧ State.reset.delay = 0 ∧
  State.reset.rspValid = false ∧ State.reset.status = 0#2 ∧ State.reset.busOffer = none ∧
  State.reset.host.lock = false ∧ State.reset.host.row = 0 ∧ State.reset.host.col = 0 ∧
  State.reset.host.clear = 0 ∧ State.reset.trace = [] ∧
  rowOffset 0 = 0x00#7 ∧ rowOffset 1 = 0x40#7 ∧ rowOffset 2 = 0x14#7 ∧ rowOffset 3 = 0x54#7 ∧
  ∀ (s : State) (landed : Bool),
    (blockReset landed s).initState = .uninit ∧ (blockReset landed s).busy = false ∧
    (blockReset landed s).seq = .idle ∧ (blockReset landed s).delay = 0 ∧
    (blockReset landed s).rspValid = false ∧ (blockReset landed s).status = 0#2 ∧
    (blockReset landed s).busOffer = none ∧ (blockReset landed s).cfg = s.cfg ∧
    (blockReset landed s).host = s.host ∧ (blockReset landed s).trace = s.trace

/-! ### Invariants and whole-machine rules -/

/-- R20-R26, R163: the block's invariant is kept by every step. That `rsp_valid` is 1 only while the block is idle is the
model's choice (log 6), and that the counter is above 0 exactly at a wait in progress is its reading of R190 (log 12). -/
def Obligations.BlockInvariantKept : Prop :=
  ∀ s t : State, s.BlockOk → step s = .next t → t.BlockOk

/-- R43-R45: with distinct control bits, every byte the block ever writes has read/write 0 and backlight 1. -/
def Obligations.ControlBytesKept : Prop :=
  ∀ s t : State, s.cfg.Wf → s.WritesOk → step s = .next t → t.cfg.Wf ∧ t.WritesOk

/-- R141, R142, R145, R148: the host's invariant is kept by every step: one write session at a time, exactly while the
lock is held, and no negative row. -/
def Obligations.HostInvariantKept : Prop :=
  ∀ s t : State, s.HostOk → step s = .next t → t.HostOk

/-- R185-R187 (read through the model's `link`, log 19): every step keeps that nothing is known of the controller before
INIT and that a link is known only once an INIT has ended. -/
def Obligations.LinkInvariantKept : Prop :=
  ∀ s t : State, s.BlockOk → s.LinkOk → step s = .next t → t.LinkOk

/-- The invariants hold after reset. -/
def Obligations.InvariantsAtReset : Prop :=
  State.reset.BlockOk ∧ State.reset.WritesOk ∧ State.reset.HostOk ∧ State.reset.LinkOk

/-- R52, R182: what has been emitted stands: a step only adds to the trace, and no step changes the configuration
(R25). -/
def Obligations.TraceOnlyGrows : Prop :=
  ∀ s t : State, step s = .next t → s.trace <+: t.trace ∧ t.cfg = s.cfg

/-- R109, R113, R91: only reset leaves READY, only reset leads back to UNINIT, and only an INIT that ends leads to
READY. -/
def Obligations.ReadyAndUninitTransitions : Prop :=
  ∀ s t : State, s.BlockOk → step s = .next t →
    (s.initState = .ready → t.initState ≠ .ready → ∃ l env, s.env = .reset l :: env) ∧
    (s.initState ≠ .uninit → t.initState = .uninit → ∃ l env, s.env = .reset l :: env) ∧
    (s.initState ≠ .ready → t.initState = .ready →
      t.busy = false ∧ t.rspValid = true ∧ t.rsp = 0#2 ∧ t.req = 0x300000#24)

/-- R187, R183: before INIT nothing is emitted: a step of an idle block in UNINIT adds to the trace only by accepting
the word of INIT. -/
def Obligations.NothingBeforeInit : Prop :=
  ∀ s t : State, s.BlockOk → s.busy = false → s.initState = .uninit → step s = .next t → t.trace ≠ s.trace →
    ∃ own rest, s.offers = ⟨own, .req24, 0x300000#24⟩ :: rest

/-- R185 (read through the model's `link`, logs 19 and 29): without failure BYTE, GOTO, CLEAR and INIT leave the
controller between bytes; a NIB turns the parity; and BYTE, GOTO and CLEAR after an unpaired NIB leave the controller
unknown. That no value sent takes the controller out of 4-bit mode is the model's choice (log 29); of a transfer by itself (log 8) it says only that
it completes. -/
def Obligations.NibblePairing : Prop :=
  ∀ (i : Instr) (s : State) (env : List Move), s.cfg.Wf → Admitted i s →
    s.env = List.replicate 24 (.answer .ok) ++ env → NoStall env →
    ∃ t, exec i s = .next t ∧
      ((∃ rs v, i = .byte rs v) ∨ (∃ row col, i = .goto row col) ∨ i = .clear →
        (s.display.link = .high → t.display.link = .high) ∧ (s.display.link = .low → t.display.link = .unknown)) ∧
      ((∃ rs n, i = .nib rs n) →
        (s.display.link = .high → t.display.link = .low) ∧ (s.display.link = .low → t.display.link = .high)) ∧
      (i = .init → t.display.link = .high)

/-- R185 (read through the model's `link`, log 19): in READY with an unpaired NIB sent, every request but a NIB, executed
or rejected, finished or not, leaves the controller out of step. -/
def Obligations.OtherRequestBreaksThePair : Prop :=
  ∀ (s t : State) (own : Option Nat) (w : ReqWord) (rest : List Offer),
    s.busy = false → s.initState = .ready → s.display.link = .low → s.offers = ⟨own, .req24, w⟩ :: rest →
    (∀ rs n, decode .req24 w ≠ .instr (.nib rs n)) → step s = .next t →
      t.display.link = .unknown

/-- R186 (read through the model's `link`, log 19): after a failed write nothing is known of the controller, and the
operation's end restores nothing. A transfer is run by itself (log 8). -/
def Obligations.FailureLosesTheController : Prop :=
  ∀ (i : Instr) (s : State) (as left : List Answer) (rest : List Move) (evs : List Event) (v : Byte) (l : Bool),
    Admitted i s → s.env = as.map .answer ++ rest → NoStall rest → procedure s.cfg i as = some (evs, left) →
    Event.write v (.fail l) ∈ evs →
      ∃ t, exec i s = .next t ∧ t.display.link = .unknown

/-! ### Host agents -/

/-- R142: a write starts at the lock, a test-and-set that never waits. -/
def Obligations.WriteTakesTheLock : Prop :=
  (∀ buf len copied, startCall (.write buf len copied) = .writeLock buf len copied) ∧
  ∀ (s : State) (n : Nat) (buf : List Byte) (len copied : Nat),
    s.host.threads[n]? = some (.writeLock buf len copied) →
      (s.host.lock = true →
        hostStep n s = { s with host := { s.host with threads := s.host.threads.set n (.returned .deviceBusy) } }) ∧
      (s.host.lock = false →
        hostStep n s =
          { s with host := { s.host with lock := true, threads := s.host.threads.set n (.writeCopy buf len copied) } })

/-- R143: at most MAX_WRITE bytes are copied, a prefix of the buffer in order, and a draw of a full copy yields
`min(len, MAX_WRITE)`. What a buffer shorter than `len` yields is the model's choice (log 16). -/
def Obligations.CopyIsABoundedPrefix : Prop :=
  ∀ (s : State) (n : Nat) (buf : List Byte) (len copied : Nat),
    s.host.threads[n]? = some (.writeCopy buf len copied) →
      ∃ (left : List Byte) (k : Nat),
        hostStep n s = { s with host := { s.host with threads := s.host.threads.set n (.writing left k) } } ∧
        left <+: buf ∧ left.length = k ∧ k ≤ min len s.cfg.maxWrite ∧ k ≤ copied ∧
        (len ≤ buf.length → min len s.cfg.maxWrite ≤ copied → k = min len s.cfg.maxWrite)

/-- R144, R145: each copied byte becomes one request, `0xC0` as a Command for a line-feed and the byte itself as Data
otherwise; the thread then waits until the block responds, and goes on with the bytes left; after the last the lock is
freed and the count returned. A response reaches the thread whose number it is for. That looking at a byte and issuing
it is one host step, and freeing the lock and returning another, is the model's choice (log 15). -/
def Obligations.WritePathIssuesPutc : Prop :=
  (∀ left k, Thread.answered (.writeAwait left k) = .writing left k) ∧
  (∀ (h : HostSide) (n : Nat) (t : Thread), h.threads[n]? = some t →
    h.answer (some n) = { h with threads := h.threads.set n t.answered }) ∧
  (∀ (s : State) (n k : Nat) (left : List Byte), s.host.threads[n]? = some (.writeAwait left k) → hostStep n s = s) ∧
  ∀ (s : State) (n : Nat) (k : Nat),
    (∀ (b : Byte) (left : List Byte), s.host.threads[n]? = some (.writing (b :: left) k) →
      hostStep n s =
        { s with
          host := { s.host with threads := s.host.threads.set n (.writeAwait left k) }
          offers := s.offers ++
            [⟨some n, .req24, BitVec.ofNat 24 (if b.toNat = 10 then 0x2000C0 else 0x210000 + b.toNat)⟩] }) ∧
    (s.host.threads[n]? = some (.writing [] k) →
      hostStep n s =
        { s with host := { s.host with lock := false, threads := s.host.threads.set n (.returned (.consumed k)) } })

/-- R148, R149: the checks and the three steps of SET_ROW and SET_COL, the words they issue, and their end when the block
responds. -/
def Obligations.SetRowAndSetCol : Prop :=
  Thread.answered .gotoAwait = .returned .done ∧
  (∀ (s : State) (n : Nat), s.host.threads[n]? = some .gotoAwait → hostStep n s = s) ∧
  startCall (.setRow .notInteger) = .returned .rejected ∧ startCall (.setCol .notInteger) = .returned .rejected ∧
  (∀ x : Int, startCall (.setRow (.int x)) = if x < 0 then .returned .refused else .rowStore x) ∧
  (∀ x : Int, startCall (.setCol (.int x)) = .colStore x) ∧
  ∀ (s : State) (n : Nat) (x y : Int),
    (s.host.threads[n]? = some (.rowStore x) →
      hostStep n s = { s with host := { s.host with row := x, threads := s.host.threads.set n (.rowRead x) } }) ∧
    (s.host.threads[n]? = some (.rowRead x) →
      hostStep n s = { s with host := { s.host with threads := s.host.threads.set n (.rowIssue x s.host.col) } }) ∧
    (s.host.threads[n]? = some (.rowIssue x y) → 0 ≤ x →
      hostStep n s =
        { s with
          host := { s.host with threads := s.host.threads.set n .gotoAwait }
          offers := s.offers ++
            [⟨some n, .req24, BitVec.ofNat 24 (0x400000 + 256 * (min x 255).toNat + (y % 256).toNat)⟩] }) ∧
    (s.host.threads[n]? = some (.colStore x) →
      hostStep n s = { s with host := { s.host with col := x, threads := s.host.threads.set n (.colRead x) } }) ∧
    (s.host.threads[n]? = some (.colRead x) →
      hostStep n s = { s with host := { s.host with threads := s.host.threads.set n (.colIssue x s.host.row) } }) ∧
    (s.host.threads[n]? = some (.colIssue x y) → 0 ≤ y →
      hostStep n s =
        { s with
          host := { s.host with threads := s.host.threads.set n .gotoAwait }
          offers := s.offers ++
            [⟨some n, .req24, BitVec.ofNat 24 (0x400000 + 256 * (min y 255).toNat + (x % 256).toNat)⟩] })

/-- R148: the two conversions of SET_ROW leave the block's address as the stored integers give it. -/
def Obligations.HostConversionsKeepTheAddress : Prop :=
  ∀ x y : Int, 0 ≤ x →
    ((ddramAddr (rowOperand x) (colOperand y)).toNat : Int) =
      ((match (min x 3).toNat with | 0 => 0x00 | 1 => 0x40 | 2 => 0x14 | _ => 0x54 : Int) + y) % 128

/-- R150: SET_CLEAR stores its value, and only a nonzero one issues CLEAR and, after the response, is reset to 0. That
these are three host steps is the model's choice (log 31). -/
def Obligations.SetClearIsOneShot : Prop :=
  Thread.answered .clearAwait = .clearZero ∧
  (∀ (s : State) (n : Nat), s.host.threads[n]? = some .clearAwait → hostStep n s = s) ∧
  startCall (.setClear .notInteger) = .returned .rejected ∧
  ∀ (s : State) (n : Nat) (x : Int),
    startCall (.setClear (.int x)) = .clearStore x ∧
    (s.host.threads[n]? = some (.clearStore x) →
      hostStep n s =
        { s with
          host :=
            { s.host with
              clear := x
              threads := s.host.threads.set n (if x = 0 then .returned .done else .clearIssue) } }) ∧
    (s.host.threads[n]? = some .clearIssue →
      hostStep n s =
        { s with
          host := { s.host with threads := s.host.threads.set n .clearAwait }
          offers := s.offers ++ [⟨some n, .req24, 0x500000#24⟩] }) ∧
    (s.host.threads[n]? = some .clearZero →
      hostStep n s = { s with host := { s.host with clear := 0, threads := s.host.threads.set n (.returned .done) } })

/-- R151: the parameter path never looks at the write lock and never touches it: its steps with the lock held and with
the lock free differ in nothing but the lock. -/
def Obligations.ParameterPathIgnoresTheLock : Prop :=
  ∀ (s : State) (n : Nat) (t : Thread) (b : Bool),
    s.host.threads[n]? = some t →
    (∀ buf len copied, t ≠ .writeLock buf len copied) → t.holdsLock = false →
      hostStep n { s with host := { s.host with lock := b } } =
        { hostStep n s with host := { (hostStep n s).host with lock := b } } ∧
      (hostStep n s).host.lock = s.host.lock

/-- R21, R152, R162, R188: a host step, a host call and a presented request, in a busy block and in an idle one with
nothing held, touch nothing of the block: they emit no event, so none can fall between the two nibbles of a byte. The
request comes to the port behind what is held, the call begins its thread, and the host step is that thread's. Other
moves do nothing to an idle block, and a stall nothing to a busy one (log 13). -/
def Obligations.HostStepsLeaveTheBlockAlone : Prop :=
  ∀ s : State, ((s.busy = true ∧ s.seq ≠ .idle) ∨ (s.busy = false ∧ s.offers = [])) →
    (∀ w env, s.env = .request w :: env →
      step s = .next { s with env := env, offers := s.offers ++ [⟨none, .req24, w⟩] }) ∧
    (∀ c env, s.env = .call c :: env →
      step s = .next { s with env := env, host := { s.host with threads := s.host.threads ++ [startCall c] } }) ∧
    (∀ n env, s.env = .host n :: env →
      ∃ t, step s = .next t ∧ t = hostStep n { s with env := env } ∧
        t.trace = s.trace ∧ t.initState = s.initState ∧ t.busy = s.busy ∧ t.req = s.req ∧ t.seq = s.seq ∧
        t.delay = s.delay ∧ t.rsp = s.rsp ∧ t.rspValid = s.rspValid ∧ t.display = s.display ∧ t.cfg = s.cfg ∧
        t.owner = s.owner ∧ t.env = env ∧ s.offers <+: t.offers) ∧
    (∀ x env, s.env = .stall x :: env → step s = .next { s with env := env }) ∧
    (∀ env, s.busy = false → (s.env = .clock :: env ∨ ∃ a, s.env = .answer a :: env) →
      step s = .next { s with env := env }) ∧
    (s.busy = false → s.env = [] → step s = .next s)

/-- R153: the rule's own schedule R1, R2, C1, C2, C3, R3: the last GOTO is at (1, 0) although (1, 5) is stored. The two
calls start on a machine that is executing another request, so that both requests are held (R162). The statement gives
their order in the queue; that the queue is served in that order is the model's choice (log 14). -/
def Obligations.StaleCoordinateRace : Prop :=
  ∀ s : State, s.busy = true → s.seq ≠ .idle → s.offers = [] →
    s.host = { lock := false, row := 0, col := 0, clear := 0, threads := [.rowStore 1, .colStore 5] } →
    s.env = [.host 0, .host 0, .host 1, .host 1, .host 1, .host 0] →
      ∃ t, Host.Core.run Sys2Proof.core 6 s = .next t ∧
        t.host.row = 1 ∧ t.host.col = 5 ∧
        t.offers = [⟨some 1, .req24, 0x400105#24⟩, ⟨some 0, .req24, 0x400100#24⟩]
end

