-- ==== Sys2Proof/Laws/Decode.lean ====
section
/-! SUPPORT. The decoder's masks read as fields of the word (30_encoding.md R60-R64), and the fields of the encoded
words. -/

namespace Sys2Proof

/-! ### Comparing words bit by bit -/

theorem eq_iff_bits {n : Nat} (a b : BitVec n) : a = b ↔ ∀ j, j < n → a.getLsbD j = b.getLsbD j :=
  ⟨fun h _ _ => h ▸ rfl, fun h => BitVec.eq_of_getLsbD_eq (fun j hj => h j hj)⟩

theorem forall_lt_succ_iff {P : Nat → Prop} {n : Nat} : (∀ j, j < n + 1 → P j) ↔ (∀ j, j < n → P j) ∧ P n := by
  constructor
  · intro h
    exact ⟨fun j hj => h j (by omega), h n (by omega)⟩
  · rintro ⟨h, hn⟩ j hj
    rcases Nat.lt_or_eq_of_le (Nat.lt_succ_iff.mp hj) with h' | rfl
    · exact h j h'
    · exact hn

theorem op_high_iff (op : BitVec 4) : 8 ≤ op.toNat ↔ op.getLsbD 3 = true := by
  revert op; decide

/-! ### The rows of R62 and R64 -/

theorem fits_nib (w : ReqWord) : fits w 0xFEFFF0#24 0x100000#24 = true ↔
    opField w = 1#4 ∧ rsvField w = 0#3 ∧ aField w = 0#8 ∧ Machine.highNibble (bField w) = 0#4 := by
  simp only [fits, beq_iff_eq, opField, rsvField, aField, bField, Machine.highNibble, eq_iff_bits]
  repeat rw [forall_lt_succ_iff]
  simp [BitVec.getLsbD_extractLsb']
  tauto

theorem fits_byte (w : ReqWord) : fits w 0xFEFF00#24 0x200000#24 = true ↔
    opField w = 2#4 ∧ rsvField w = 0#3 ∧ aField w = 0#8 := by
  simp only [fits, beq_iff_eq, opField, rsvField, aField, eq_iff_bits]
  repeat rw [forall_lt_succ_iff]
  simp [BitVec.getLsbD_extractLsb']
  tauto

theorem fits_init (w : ReqWord) : fits w 0xFFFFFF#24 0x300000#24 = true ↔ opField w = 3#4 ∧ restField w = 0#20 := by
  simp only [fits, beq_iff_eq, opField, restField, eq_iff_bits]
  repeat rw [forall_lt_succ_iff]
  simp [BitVec.getLsbD_extractLsb']
  tauto

theorem fits_goto (w : ReqWord) : fits w 0xFF0000#24 0x400000#24 = true ↔
    opField w = 4#4 ∧ rsvField w = 0#3 ∧ rsField w = .command := by
  simp only [fits, beq_iff_eq, opField, rsvField, rsField, eq_iff_bits]
  repeat rw [forall_lt_succ_iff]
  simp [BitVec.getLsbD_extractLsb']
  tauto

theorem fits_clear (w : ReqWord) : fits w 0xFFFFFF#24 0x500000#24 = true ↔ opField w = 5#4 ∧ restField w = 0#20 := by
  simp only [fits, beq_iff_eq, opField, restField, eq_iff_bits]
  repeat rw [forall_lt_succ_iff]
  simp [BitVec.getLsbD_extractLsb']
  tauto

theorem fits_reservedZero (w : ReqWord) : fits w 0xF00000#24 0x000000#24 = true ↔ opField w = 0#4 := by
  simp only [fits, beq_iff_eq, opField, eq_iff_bits]
  repeat rw [forall_lt_succ_iff]
  simp [BitVec.getLsbD_extractLsb']

theorem fits_reservedSixSeven (w : ReqWord) : fits w 0xE00000#24 0x600000#24 = true ↔
    opField w = 6#4 ∨ opField w = 7#4 := by
  simp only [fits, beq_iff_eq, opField, eq_iff_bits]
  repeat rw [forall_lt_succ_iff]
  simp [BitVec.getLsbD_extractLsb']
  have := Bool.eq_false_or_eq_true w[20]
  tauto

theorem fits_reservedHigh (w : ReqWord) : fits w 0x800000#24 0x800000#24 = true ↔ 8 ≤ (opField w).toNat := by
  rw [op_high_iff]
  simp only [fits, beq_iff_eq, opField, eq_iff_bits]
  repeat rw [forall_lt_succ_iff]
  simp

/-! ### A word is its fields -/

/-- Two words with the same OP and the same bits 19:0 are equal. -/
theorem word_ext {w u : ReqWord} (h : opField w = opField u) (h' : restField w = restField u) : w = u := by
  rw [eq_iff_bits]
  intro j hj
  rcases Nat.lt_or_ge j 20 with hj' | hj'
  · have := congrArg (BitVec.getLsbD · j) h'
    simpa [restField, BitVec.getLsbD_extractLsb', hj'] using this
  · have := congrArg (BitVec.getLsbD · (j - 20)) h
    simpa [opField, BitVec.getLsbD_extractLsb', show j - 20 < 4 by omega, show 20 + (j - 20) = j by omega] using this

/-! ### The fields of the encoded words -/

theorem opField_op_rest (op : BitVec 4) (rest : BitVec 20) :
    opField ((op.zeroExtend 24 <<< 20) ||| rest.zeroExtend 24) = op := by
  simp only [opField, eq_iff_bits]
  repeat rw [forall_lt_succ_iff]
  simp [BitVec.getLsbD_extractLsb']

theorem restField_op_rest (op : BitVec 4) (rest : BitVec 20) :
    restField ((op.zeroExtend 24 <<< 20) ||| rest.zeroExtend 24) = rest := by
  simp only [restField, eq_iff_bits]
  repeat rw [forall_lt_succ_iff]
  simp [BitVec.getLsbD_extractLsb']

theorem opField_rest (rest : BitVec 20) : opField (rest.zeroExtend 24) = 0#4 := by
  simp only [opField, eq_iff_bits]
  repeat rw [forall_lt_succ_iff]
  simp [BitVec.getLsbD_extractLsb']

theorem restField_rest (rest : BitVec 20) : restField (rest.zeroExtend 24) = rest := by
  simp only [restField, eq_iff_bits]
  repeat rw [forall_lt_succ_iff]
  simp [BitVec.getLsbD_extractLsb']

theorem fields_encode_goto (row col : Byte) :
    opField (encodeWord (.goto row col)) = 4#4 ∧ rsvField (encodeWord (.goto row col)) = 0#3 ∧
      rsField (encodeWord (.goto row col)) = .command ∧ aField (encodeWord (.goto row col)) = row ∧
      bField (encodeWord (.goto row col)) = col := by
  simp only [encodeWord, opField, rsvField, rsField, aField, bField, eq_iff_bits]
  repeat rw [forall_lt_succ_iff]
  simp [BitVec.getLsbD_extractLsb']

/-- R75: the word of GOTO as a number. -/
theorem encodeWord_goto (row col : Byte) :
    encodeWord (.goto row col) = BitVec.ofNat 24 (0x400000 + 256 * row.toNat + col.toNat) := by
  have h0 : (0x400000#24 ||| (row.zeroExtend 24 <<< 8)) &&& col.zeroExtend 24 = 0#24 := by
    simp only [eq_iff_bits]
    repeat rw [forall_lt_succ_iff]
    simp
  have h1 : 0x400000#24 &&& (row.zeroExtend 24 <<< 8) = 0#24 := by
    simp only [eq_iff_bits]
    repeat rw [forall_lt_succ_iff]
    simp
  rw [encodeWord, ← BitVec.add_eq_or_of_and_eq_zero _ _ h0, ← BitVec.add_eq_or_of_and_eq_zero _ _ h1]
  apply BitVec.eq_of_toNat_eq
  have := row.isLt
  have := col.isLt
  simp [BitVec.toNat_add, BitVec.toNat_shiftLeft, Nat.shiftLeft_eq]
  omega

end Sys2Proof
end

