-- ==== Sys2Proof/Laws/State.lean ====
section
/-! SUPPORT. One lemma per field per update of the state, so that no later proof unfolds a record update. -/

namespace Sys2Proof.Machine

/-! ### respond -/

@[simp] theorem respond_cfg (c : Response) (s : State) : (s.respond c).cfg = s.cfg := rfl
@[simp] theorem respond_initState (c : Response) (s : State) : (s.respond c).initState = s.initState := rfl
@[simp] theorem respond_busy (c : Response) (s : State) : (s.respond c).busy = false := rfl
@[simp] theorem respond_req (c : Response) (s : State) : (s.respond c).req = s.req := rfl
@[simp] theorem respond_seq (c : Response) (s : State) : (s.respond c).seq = .idle := rfl
@[simp] theorem respond_delay (c : Response) (s : State) : (s.respond c).delay = s.delay := rfl
@[simp] theorem respond_rsp (c : Response) (s : State) : (s.respond c).rsp = c.code := rfl
@[simp] theorem respond_rspValid (c : Response) (s : State) : (s.respond c).rspValid = true := rfl
@[simp] theorem respond_trace (c : Response) (s : State) : (s.respond c).trace = s.trace := rfl
@[simp] theorem respond_offers (c : Response) (s : State) : (s.respond c).offers = s.offers := rfl
@[simp] theorem respond_owner (c : Response) (s : State) : (s.respond c).owner = none := rfl
@[simp] theorem respond_env (c : Response) (s : State) : (s.respond c).env = s.env := rfl
@[simp] theorem respond_host (c : Response) (s : State) : (s.respond c).host = s.host.answer s.owner := rfl
@[simp] theorem respond_display (c : Response) (s : State) : (s.respond c).display = s.display := rfl

/-! ### reject -/

/-- Only an unpaired NIB makes another request matter (R185). -/
theorem otherRequest_eq (l : Link) : l.otherRequest = if l = .low then .unknown else l := by
  cases l <;> rfl

/-- The rejection as the statements name it. -/
theorem reject_eq_rejectedWith (c : Response) (s : State) :
    s.reject c = rejectedWith c.code s.display.link.otherRequest s := rfl

@[simp] theorem otherRequest_unknown : Link.unknown.otherRequest = .unknown := rfl

@[simp] theorem turn_unknown : Link.unknown.turn = .unknown := rfl

@[simp] theorem reject_cfg (c : Response) (s : State) : (s.reject c).cfg = s.cfg := rfl
@[simp] theorem reject_initState (c : Response) (s : State) : (s.reject c).initState = s.initState := rfl
@[simp] theorem reject_busy (c : Response) (s : State) : (s.reject c).busy = false := rfl
@[simp] theorem reject_req (c : Response) (s : State) : (s.reject c).req = s.req := rfl
@[simp] theorem reject_seq (c : Response) (s : State) : (s.reject c).seq = .idle := rfl
@[simp] theorem reject_delay (c : Response) (s : State) : (s.reject c).delay = s.delay := rfl
@[simp] theorem reject_rsp (c : Response) (s : State) : (s.reject c).rsp = c.code := rfl
@[simp] theorem reject_rspValid (c : Response) (s : State) : (s.reject c).rspValid = true := rfl
@[simp] theorem reject_trace (c : Response) (s : State) : (s.reject c).trace = s.trace := rfl
@[simp] theorem reject_offers (c : Response) (s : State) : (s.reject c).offers = s.offers := rfl
@[simp] theorem reject_owner (c : Response) (s : State) : (s.reject c).owner = none := rfl
@[simp] theorem reject_env (c : Response) (s : State) : (s.reject c).env = s.env := rfl
@[simp] theorem reject_host (c : Response) (s : State) : (s.reject c).host = s.host.answer s.owner := rfl
@[simp] theorem reject_display (c : Response) (s : State) : (s.reject c).display = { s.display with link := s.display.link.otherRequest } := rfl

/-! ### emit -/

@[simp] theorem emit_cfg (e : Event) (s : State) : (s.emit e).cfg = s.cfg := rfl
@[simp] theorem emit_initState (e : Event) (s : State) : (s.emit e).initState = s.initState := rfl
@[simp] theorem emit_busy (e : Event) (s : State) : (s.emit e).busy = s.busy := rfl
@[simp] theorem emit_req (e : Event) (s : State) : (s.emit e).req = s.req := rfl
@[simp] theorem emit_seq (e : Event) (s : State) : (s.emit e).seq = s.seq := rfl
@[simp] theorem emit_delay (e : Event) (s : State) : (s.emit e).delay = s.delay := rfl
@[simp] theorem emit_rsp (e : Event) (s : State) : (s.emit e).rsp = s.rsp := rfl
@[simp] theorem emit_rspValid (e : Event) (s : State) : (s.emit e).rspValid = s.rspValid := rfl
@[simp] theorem emit_trace (e : Event) (s : State) : (s.emit e).trace = s.trace ++ [e] := rfl
@[simp] theorem emit_offers (e : Event) (s : State) : (s.emit e).offers = s.offers := rfl
@[simp] theorem emit_owner (e : Event) (s : State) : (s.emit e).owner = s.owner := rfl
@[simp] theorem emit_env (e : Event) (s : State) : (s.emit e).env = s.env := rfl
@[simp] theorem emit_host (e : Event) (s : State) : (s.emit e).host = s.host := rfl
@[simp] theorem emit_display (e : Event) (s : State) : (s.emit e).display = s.display.see s.cfg e := rfl

/-! ### emitWrite -/

@[simp] theorem emitWrite_cfg (v : Byte) (a : Answer) (env : List Move) (s : State) : (s.emitWrite v a env).cfg = s.cfg := rfl
@[simp] theorem emitWrite_initState (v : Byte) (a : Answer) (env : List Move) (s : State) : (s.emitWrite v a env).initState = s.initState := rfl
@[simp] theorem emitWrite_busy (v : Byte) (a : Answer) (env : List Move) (s : State) : (s.emitWrite v a env).busy = s.busy := rfl
@[simp] theorem emitWrite_req (v : Byte) (a : Answer) (env : List Move) (s : State) : (s.emitWrite v a env).req = s.req := rfl
@[simp] theorem emitWrite_seq (v : Byte) (a : Answer) (env : List Move) (s : State) : (s.emitWrite v a env).seq = s.seq := rfl
@[simp] theorem emitWrite_delay (v : Byte) (a : Answer) (env : List Move) (s : State) : (s.emitWrite v a env).delay = s.delay := rfl
@[simp] theorem emitWrite_rsp (v : Byte) (a : Answer) (env : List Move) (s : State) : (s.emitWrite v a env).rsp = s.rsp := rfl
@[simp] theorem emitWrite_rspValid (v : Byte) (a : Answer) (env : List Move) (s : State) : (s.emitWrite v a env).rspValid = s.rspValid := rfl
@[simp] theorem emitWrite_trace (v : Byte) (a : Answer) (env : List Move) (s : State) : (s.emitWrite v a env).trace = s.trace ++ [.write v a] := rfl
@[simp] theorem emitWrite_offers (v : Byte) (a : Answer) (env : List Move) (s : State) : (s.emitWrite v a env).offers = s.offers := rfl
@[simp] theorem emitWrite_owner (v : Byte) (a : Answer) (env : List Move) (s : State) : (s.emitWrite v a env).owner = s.owner := rfl
@[simp] theorem emitWrite_env (v : Byte) (a : Answer) (env : List Move) (s : State) : (s.emitWrite v a env).env = env := rfl
@[simp] theorem emitWrite_host (v : Byte) (a : Answer) (env : List Move) (s : State) : (s.emitWrite v a env).host = s.host := rfl
@[simp] theorem emitWrite_display (v : Byte) (a : Answer) (env : List Move) (s : State) : (s.emitWrite v a env).display = s.display.see s.cfg (.write v a) := rfl

/-! ### emitWait -/

@[simp] theorem emitWait_cfg (us : Nat) (s : State) : (s.emitWait us).cfg = s.cfg := rfl
@[simp] theorem emitWait_initState (us : Nat) (s : State) : (s.emitWait us).initState = s.initState := rfl
@[simp] theorem emitWait_busy (us : Nat) (s : State) : (s.emitWait us).busy = s.busy := rfl
@[simp] theorem emitWait_req (us : Nat) (s : State) : (s.emitWait us).req = s.req := rfl
@[simp] theorem emitWait_seq (us : Nat) (s : State) : (s.emitWait us).seq = s.seq := rfl
@[simp] theorem emitWait_delay (us : Nat) (s : State) : (s.emitWait us).delay = 0 := rfl
@[simp] theorem emitWait_rsp (us : Nat) (s : State) : (s.emitWait us).rsp = s.rsp := rfl
@[simp] theorem emitWait_rspValid (us : Nat) (s : State) : (s.emitWait us).rspValid = s.rspValid := rfl
@[simp] theorem emitWait_trace (us : Nat) (s : State) : (s.emitWait us).trace = s.trace ++ [.wait us] := rfl
@[simp] theorem emitWait_offers (us : Nat) (s : State) : (s.emitWait us).offers = s.offers := rfl
@[simp] theorem emitWait_owner (us : Nat) (s : State) : (s.emitWait us).owner = s.owner := rfl
@[simp] theorem emitWait_env (us : Nat) (s : State) : (s.emitWait us).env = s.env := rfl
@[simp] theorem emitWait_host (us : Nat) (s : State) : (s.emitWait us).host = s.host := rfl
@[simp] theorem emitWait_display (us : Nat) (s : State) : (s.emitWait us).display = s.display := rfl

/-! ### started -/

@[simp] theorem started_cfg (i : Instr) (s : State) : (started i s).cfg = s.cfg := rfl
@[simp] theorem started_initState (i : Instr) (s : State) : (started i s).initState = s.initState := rfl
@[simp] theorem started_busy (i : Instr) (s : State) : (started i s).busy = true := rfl
@[simp] theorem started_req (i : Instr) (s : State) : (started i s).req = s.req := rfl
@[simp] theorem started_seq (i : Instr) (s : State) : (started i s).seq = .running i 0 := rfl
@[simp] theorem started_delay (i : Instr) (s : State) : (started i s).delay = 0 := rfl
@[simp] theorem started_rsp (i : Instr) (s : State) : (started i s).rsp = s.rsp := rfl
@[simp] theorem started_rspValid (i : Instr) (s : State) : (started i s).rspValid = s.rspValid := rfl
@[simp] theorem started_trace (i : Instr) (s : State) : (started i s).trace = s.trace := rfl
@[simp] theorem started_offers (i : Instr) (s : State) : (started i s).offers = s.offers := rfl
@[simp] theorem started_owner (i : Instr) (s : State) : (started i s).owner = s.owner := rfl
@[simp] theorem started_env (i : Instr) (s : State) : (started i s).env = s.env := rfl
@[simp] theorem started_host (i : Instr) (s : State) : (started i s).host = s.host := rfl
@[simp] theorem started_display (i : Instr) (s : State) : (started i s).display = { s.display with link := s.display.link.start i } := rfl

/-! ### observe -/

@[simp] theorem observe_cfg (evs : List Event) (env : List Move) (s : State) : (observe evs env s).cfg = s.cfg := rfl
@[simp] theorem observe_initState (evs : List Event) (env : List Move) (s : State) : (observe evs env s).initState = s.initState := rfl
@[simp] theorem observe_busy (evs : List Event) (env : List Move) (s : State) : (observe evs env s).busy = s.busy := rfl
@[simp] theorem observe_req (evs : List Event) (env : List Move) (s : State) : (observe evs env s).req = s.req := rfl
@[simp] theorem observe_seq (evs : List Event) (env : List Move) (s : State) : (observe evs env s).seq = s.seq := rfl
@[simp] theorem observe_delay (evs : List Event) (env : List Move) (s : State) : (observe evs env s).delay = s.delay := rfl
@[simp] theorem observe_rsp (evs : List Event) (env : List Move) (s : State) : (observe evs env s).rsp = s.rsp := rfl
@[simp] theorem observe_rspValid (evs : List Event) (env : List Move) (s : State) : (observe evs env s).rspValid = s.rspValid := rfl
@[simp] theorem observe_trace (evs : List Event) (env : List Move) (s : State) : (observe evs env s).trace = s.trace ++ evs := rfl
@[simp] theorem observe_offers (evs : List Event) (env : List Move) (s : State) : (observe evs env s).offers = s.offers := rfl
@[simp] theorem observe_owner (evs : List Event) (env : List Move) (s : State) : (observe evs env s).owner = s.owner := rfl
@[simp] theorem observe_env (evs : List Event) (env : List Move) (s : State) : (observe evs env s).env = env := rfl
@[simp] theorem observe_host (evs : List Event) (env : List Move) (s : State) : (observe evs env s).host = s.host := rfl
@[simp] theorem observe_display (evs : List Event) (env : List Move) (s : State) : (observe evs env s).display = evs.foldl (fun d e => d.see s.cfg e) s.display := rfl

/-! ### present -/

@[simp] theorem present_cfg (w : ReqWord) (s : State) : (present w s).cfg = s.cfg := rfl
@[simp] theorem present_initState (w : ReqWord) (s : State) : (present w s).initState = s.initState := rfl
@[simp] theorem present_busy (w : ReqWord) (s : State) : (present w s).busy = s.busy := rfl
@[simp] theorem present_req (w : ReqWord) (s : State) : (present w s).req = s.req := rfl
@[simp] theorem present_seq (w : ReqWord) (s : State) : (present w s).seq = s.seq := rfl
@[simp] theorem present_delay (w : ReqWord) (s : State) : (present w s).delay = s.delay := rfl
@[simp] theorem present_rsp (w : ReqWord) (s : State) : (present w s).rsp = s.rsp := rfl
@[simp] theorem present_rspValid (w : ReqWord) (s : State) : (present w s).rspValid = s.rspValid := rfl
@[simp] theorem present_trace (w : ReqWord) (s : State) : (present w s).trace = s.trace := rfl
@[simp] theorem present_offers (w : ReqWord) (s : State) : (present w s).offers = s.offers ++ [{ owner := none, format := .req24, word := w }] := rfl
@[simp] theorem present_owner (w : ReqWord) (s : State) : (present w s).owner = s.owner := rfl
@[simp] theorem present_env (w : ReqWord) (s : State) : (present w s).env = s.env := rfl
@[simp] theorem present_host (w : ReqWord) (s : State) : (present w s).host = s.host := rfl
@[simp] theorem present_display (w : ReqWord) (s : State) : (present w s).display = s.display := rfl

/-! ### hostCall -/

@[simp] theorem hostCall_cfg (c : HostCall) (s : State) : (hostCall c s).cfg = s.cfg := rfl
@[simp] theorem hostCall_initState (c : HostCall) (s : State) : (hostCall c s).initState = s.initState := rfl
@[simp] theorem hostCall_busy (c : HostCall) (s : State) : (hostCall c s).busy = s.busy := rfl
@[simp] theorem hostCall_req (c : HostCall) (s : State) : (hostCall c s).req = s.req := rfl
@[simp] theorem hostCall_seq (c : HostCall) (s : State) : (hostCall c s).seq = s.seq := rfl
@[simp] theorem hostCall_delay (c : HostCall) (s : State) : (hostCall c s).delay = s.delay := rfl
@[simp] theorem hostCall_rsp (c : HostCall) (s : State) : (hostCall c s).rsp = s.rsp := rfl
@[simp] theorem hostCall_rspValid (c : HostCall) (s : State) : (hostCall c s).rspValid = s.rspValid := rfl
@[simp] theorem hostCall_trace (c : HostCall) (s : State) : (hostCall c s).trace = s.trace := rfl
@[simp] theorem hostCall_offers (c : HostCall) (s : State) : (hostCall c s).offers = s.offers := rfl
@[simp] theorem hostCall_owner (c : HostCall) (s : State) : (hostCall c s).owner = s.owner := rfl
@[simp] theorem hostCall_env (c : HostCall) (s : State) : (hostCall c s).env = s.env := rfl
@[simp] theorem hostCall_host (c : HostCall) (s : State) : (hostCall c s).host = { s.host with threads := s.host.threads ++ [startCall c] } := rfl
@[simp] theorem hostCall_display (c : HostCall) (s : State) : (hostCall c s).display = s.display := rfl

/-! ### blockReset -/

@[simp] theorem blockReset_cfg (landed : Bool) (s : State) : (blockReset landed s).cfg = s.cfg := rfl
@[simp] theorem blockReset_initState (landed : Bool) (s : State) : (blockReset landed s).initState = .uninit := rfl
@[simp] theorem blockReset_busy (landed : Bool) (s : State) : (blockReset landed s).busy = false := rfl
@[simp] theorem blockReset_req (landed : Bool) (s : State) : (blockReset landed s).req = 0#24 := rfl
@[simp] theorem blockReset_seq (landed : Bool) (s : State) : (blockReset landed s).seq = .idle := rfl
@[simp] theorem blockReset_delay (landed : Bool) (s : State) : (blockReset landed s).delay = 0 := rfl
@[simp] theorem blockReset_rsp (landed : Bool) (s : State) : (blockReset landed s).rsp = 0#2 := rfl
@[simp] theorem blockReset_rspValid (landed : Bool) (s : State) : (blockReset landed s).rspValid = false := rfl
@[simp] theorem blockReset_trace (landed : Bool) (s : State) : (blockReset landed s).trace = s.trace := rfl
@[simp] theorem blockReset_offers (landed : Bool) (s : State) : (blockReset landed s).offers = s.offers := rfl
@[simp] theorem blockReset_owner (landed : Bool) (s : State) : (blockReset landed s).owner = none := rfl
@[simp] theorem blockReset_env (landed : Bool) (s : State) : (blockReset landed s).env = s.env := rfl
@[simp] theorem blockReset_host (landed : Bool) (s : State) : (blockReset landed s).host = s.host := rfl
@[simp] theorem blockReset_display (landed : Bool) (s : State) : (blockReset landed s).display = resetDisplay landed s := rfl

/-! ### placeOffer -/

@[simp] theorem placeOffer_cfg (o : Offer) (s : State) : (placeOffer o s).cfg = s.cfg := rfl
@[simp] theorem placeOffer_initState (o : Offer) (s : State) : (placeOffer o s).initState = s.initState := rfl
@[simp] theorem placeOffer_busy (o : Offer) (s : State) : (placeOffer o s).busy = false := rfl
@[simp] theorem placeOffer_req (o : Offer) (s : State) : (placeOffer o s).req = s.req := rfl
@[simp] theorem placeOffer_seq (o : Offer) (s : State) : (placeOffer o s).seq = .idle := rfl
@[simp] theorem placeOffer_delay (o : Offer) (s : State) : (placeOffer o s).delay = 0 := rfl
@[simp] theorem placeOffer_rsp (o : Offer) (s : State) : (placeOffer o s).rsp = s.rsp := rfl
@[simp] theorem placeOffer_rspValid (o : Offer) (s : State) : (placeOffer o s).rspValid = s.rspValid := rfl
@[simp] theorem placeOffer_trace (o : Offer) (s : State) : (placeOffer o s).trace = s.trace := rfl
@[simp] theorem placeOffer_offers (o : Offer) (s : State) : (placeOffer o s).offers = o :: s.offers := rfl
@[simp] theorem placeOffer_owner (o : Offer) (s : State) : (placeOffer o s).owner = s.owner := rfl
@[simp] theorem placeOffer_env (o : Offer) (s : State) : (placeOffer o s).env = s.env := rfl
@[simp] theorem placeOffer_host (o : Offer) (s : State) : (placeOffer o s).host = s.host := rfl
@[simp] theorem placeOffer_display (o : Offer) (s : State) : (placeOffer o s).display = s.display := rfl

/-! ### enter: only initState changes -/

@[simp] theorem enter_cfg (c : Option InitState) (s : State) : (s.enter c).cfg = s.cfg := by
  cases c <;> rfl
@[simp] theorem enter_initState (c : Option InitState) (s : State) : (s.enter c).initState = c.getD s.initState := by
  cases c <;> rfl
@[simp] theorem enter_busy (c : Option InitState) (s : State) : (s.enter c).busy = s.busy := by
  cases c <;> rfl
@[simp] theorem enter_req (c : Option InitState) (s : State) : (s.enter c).req = s.req := by
  cases c <;> rfl
@[simp] theorem enter_seq (c : Option InitState) (s : State) : (s.enter c).seq = s.seq := by
  cases c <;> rfl
@[simp] theorem enter_delay (c : Option InitState) (s : State) : (s.enter c).delay = s.delay := by
  cases c <;> rfl
@[simp] theorem enter_rsp (c : Option InitState) (s : State) : (s.enter c).rsp = s.rsp := by
  cases c <;> rfl
@[simp] theorem enter_rspValid (c : Option InitState) (s : State) : (s.enter c).rspValid = s.rspValid := by
  cases c <;> rfl
@[simp] theorem enter_trace (c : Option InitState) (s : State) : (s.enter c).trace = s.trace := by
  cases c <;> rfl
@[simp] theorem enter_offers (c : Option InitState) (s : State) : (s.enter c).offers = s.offers := by
  cases c <;> rfl
@[simp] theorem enter_owner (c : Option InitState) (s : State) : (s.enter c).owner = s.owner := by
  cases c <;> rfl
@[simp] theorem enter_env (c : Option InitState) (s : State) : (s.enter c).env = s.env := by
  cases c <;> rfl
@[simp] theorem enter_host (c : Option InitState) (s : State) : (s.enter c).host = s.host := by
  cases c <;> rfl
@[simp] theorem enter_display (c : Option InitState) (s : State) : (s.enter c).display = s.display := by
  cases c <;> rfl

/-! ### accept: a request (R21), and a transfer offer (log 8) -/

@[simp] theorem accept_req24_cfg (own : Option Nat) (w : ReqWord) (rest : List Offer) (s : State) :
    (accept ⟨own, .req24, w⟩ rest s).cfg = s.cfg := rfl
@[simp] theorem accept_req24_initState (own : Option Nat) (w : ReqWord) (rest : List Offer) (s : State) :
    (accept ⟨own, .req24, w⟩ rest s).initState = s.initState := rfl
@[simp] theorem accept_req24_busy (own : Option Nat) (w : ReqWord) (rest : List Offer) (s : State) :
    (accept ⟨own, .req24, w⟩ rest s).busy = true := rfl
@[simp] theorem accept_req24_req (own : Option Nat) (w : ReqWord) (rest : List Offer) (s : State) :
    (accept ⟨own, .req24, w⟩ rest s).req = w := rfl
@[simp] theorem accept_req24_seq (own : Option Nat) (w : ReqWord) (rest : List Offer) (s : State) :
    (accept ⟨own, .req24, w⟩ rest s).seq = s.seq := rfl
@[simp] theorem accept_req24_delay (own : Option Nat) (w : ReqWord) (rest : List Offer) (s : State) :
    (accept ⟨own, .req24, w⟩ rest s).delay = s.delay := rfl
@[simp] theorem accept_req24_rsp (own : Option Nat) (w : ReqWord) (rest : List Offer) (s : State) :
    (accept ⟨own, .req24, w⟩ rest s).rsp = s.rsp := rfl
@[simp] theorem accept_req24_rspValid (own : Option Nat) (w : ReqWord) (rest : List Offer) (s : State) :
    (accept ⟨own, .req24, w⟩ rest s).rspValid = false := rfl
@[simp] theorem accept_req24_trace (own : Option Nat) (w : ReqWord) (rest : List Offer) (s : State) :
    (accept ⟨own, .req24, w⟩ rest s).trace = s.trace := rfl
@[simp] theorem accept_req24_offers (own : Option Nat) (w : ReqWord) (rest : List Offer) (s : State) :
    (accept ⟨own, .req24, w⟩ rest s).offers = rest := rfl
@[simp] theorem accept_req24_owner (own : Option Nat) (w : ReqWord) (rest : List Offer) (s : State) :
    (accept ⟨own, .req24, w⟩ rest s).owner = own := rfl
@[simp] theorem accept_req24_env (own : Option Nat) (w : ReqWord) (rest : List Offer) (s : State) :
    (accept ⟨own, .req24, w⟩ rest s).env = s.env := rfl
@[simp] theorem accept_req24_host (own : Option Nat) (w : ReqWord) (rest : List Offer) (s : State) :
    (accept ⟨own, .req24, w⟩ rest s).host = s.host := rfl
@[simp] theorem accept_req24_display (own : Option Nat) (w : ReqWord) (rest : List Offer) (s : State) :
    (accept ⟨own, .req24, w⟩ rest s).display = s.display := rfl

@[simp] theorem accept_cfg (o : Offer) (rest : List Offer) (s : State) : (accept o rest s).cfg = s.cfg := by
  unfold accept; split <;> rfl

@[simp] theorem accept_offers (o : Offer) (rest : List Offer) (s : State) : (accept o rest s).offers = rest := by
  unfold accept; split <;> rfl

@[simp] theorem accept_busy (o : Offer) (rest : List Offer) (s : State) : (accept o rest s).busy = true := by
  unfold accept; split <;> rfl

@[simp] theorem accept_initState (o : Offer) (rest : List Offer) (s : State) :
    (accept o rest s).initState = s.initState := by
  unfold accept; split <;> rfl

@[simp] theorem accept_env (o : Offer) (rest : List Offer) (s : State) : (accept o rest s).env = s.env := by
  unfold accept; split <;> rfl

@[simp] theorem accept_trace (o : Offer) (rest : List Offer) (s : State) : (accept o rest s).trace = s.trace := by
  unfold accept; split <;> rfl

@[simp] theorem accept_host (o : Offer) (rest : List Offer) (s : State) : (accept o rest s).host = s.host := by
  unfold accept; split <;> rfl

@[simp] theorem accept_display (o : Offer) (rest : List Offer) (s : State) :
    (accept o rest s).display = s.display := by
  unfold accept; split <;> rfl

/-! ### finish: what ends an operation changes no configuration, request word, delay, trace, offers or script -/

@[simp] theorem finish_cfg (i : Instr) (s : State) : (finish i s).cfg = s.cfg := by
  cases i <;> rfl
@[simp] theorem finish_req (i : Instr) (s : State) : (finish i s).req = s.req := by
  cases i <;> rfl
@[simp] theorem finish_delay (i : Instr) (s : State) : (finish i s).delay = s.delay := by
  cases i <;> rfl
@[simp] theorem finish_trace (i : Instr) (s : State) : (finish i s).trace = s.trace := by
  cases i <;> rfl
@[simp] theorem finish_offers (i : Instr) (s : State) : (finish i s).offers = s.offers := by
  cases i <;> rfl
@[simp] theorem finish_env (i : Instr) (s : State) : (finish i s).env = s.env := by
  cases i <;> rfl

@[simp] theorem finish_busy (i : Instr) (s : State) : (finish i s).busy = false := by
  cases i <;> rfl

@[simp] theorem finish_seq (i : Instr) (s : State) : (finish i s).seq = .idle := by
  cases i <;> rfl

@[simp] theorem finish_pins (i : Instr) (s : State) : (finish i s).display.pins = s.display.pins := by
  cases i <;> rfl

theorem finish_initState (i : Instr) (s : State) :
    (finish i s).initState = if i = .init then .ready else s.initState := by
  cases i <;> rfl

theorem finish_link (i : Instr) (s : State) :
    (finish i s).display.link = if i = .init then s.display.link.initDone else s.display.link := by
  cases i <;> rfl

/-! ### hostStep: only the host and the offers change -/

@[simp] theorem hostStep_cfg (n : Nat) (s : State) : (hostStep n s).cfg = s.cfg := by
  unfold hostStep; split <;> rfl
@[simp] theorem hostStep_initState (n : Nat) (s : State) : (hostStep n s).initState = s.initState := by
  unfold hostStep; split <;> rfl
@[simp] theorem hostStep_busy (n : Nat) (s : State) : (hostStep n s).busy = s.busy := by
  unfold hostStep; split <;> rfl
@[simp] theorem hostStep_req (n : Nat) (s : State) : (hostStep n s).req = s.req := by
  unfold hostStep; split <;> rfl
@[simp] theorem hostStep_seq (n : Nat) (s : State) : (hostStep n s).seq = s.seq := by
  unfold hostStep; split <;> rfl
@[simp] theorem hostStep_delay (n : Nat) (s : State) : (hostStep n s).delay = s.delay := by
  unfold hostStep; split <;> rfl
@[simp] theorem hostStep_rsp (n : Nat) (s : State) : (hostStep n s).rsp = s.rsp := by
  unfold hostStep; split <;> rfl
@[simp] theorem hostStep_rspValid (n : Nat) (s : State) : (hostStep n s).rspValid = s.rspValid := by
  unfold hostStep; split <;> rfl
@[simp] theorem hostStep_trace (n : Nat) (s : State) : (hostStep n s).trace = s.trace := by
  unfold hostStep; split <;> rfl
@[simp] theorem hostStep_owner (n : Nat) (s : State) : (hostStep n s).owner = s.owner := by
  unfold hostStep; split <;> rfl
@[simp] theorem hostStep_env (n : Nat) (s : State) : (hostStep n s).env = s.env := by
  unfold hostStep; split <;> rfl
@[simp] theorem hostStep_display (n : Nat) (s : State) : (hostStep n s).display = s.display := by
  unfold hostStep; split <;> rfl

/-! ### the host's registers when a response reaches a thread -/

@[simp] theorem answer_lock (h : HostSide) (o : Option Nat) : (h.answer o).lock = h.lock := by
  cases o <;> rfl

@[simp] theorem answer_row (h : HostSide) (o : Option Nat) : (h.answer o).row = h.row := by
  cases o <;> rfl

@[simp] theorem answer_col (h : HostSide) (o : Option Nat) : (h.answer o).col = h.col := by
  cases o <;> rfl

@[simp] theorem answer_clear (h : HostSide) (o : Option Nat) : (h.answer o).clear = h.clear := by
  cases o <;> rfl

end Sys2Proof.Machine
end

