-- ==== Sys2Proof/Laws/Run.lean ====
section
/-! SUPPORT. What the sequencer's run of an event list can do, said once: it ends or it stops, and with the answers
at hand it ends with the events that they select (10_state.md R23). -/

namespace Sys2Proof.Machine

/-! ### observe -/

@[simp] theorem observe_nil (env : List Move) (s : State) : observe [] env s = { s with env := env } := by
  simp [observe]

theorem observe_append (e : Event) (evs : List Event) (env env' : List Move) (s : State) :
    observe (e :: evs) env s = observe evs env { (s.emit e) with env := env' } := by
  simp [observe, State.emit]

/-- No event makes the controller known again (R186). -/
theorem see_unknown (d : Display) (c : Config) (e : Event) (h : d.link = .unknown) : (d.see c e).link = .unknown := by
  cases e with
  | wait us => exact h
  | write v a => cases a <;> simp [Display.see, Display.land, h]

theorem foldl_see_unknown (c : Config) (evs : List Event) (d : Display) (h : d.link = .unknown) :
    (evs.foldl (fun d e => d.see c e) d).link = .unknown := by
  induction evs generalizing d with
  | nil => exact h
  | cons e evs ih => exact ih _ (see_unknown d c e h)

@[simp] theorem writesOf_append (a b : List Event) : writesOf (a ++ b) = writesOf a ++ writesOf b := by
  induction a with
  | nil => rfl
  | cons e rest ih => cases e <;> simp [writesOf, ih]

@[simp] theorem portTrace_append (a b : List Event) : portTrace (a ++ b) = portTrace a ++ portTrace b := by
  induction a with
  | nil => rfl
  | cons e a ih => cases e <;> simp [portTrace, ih]

/-- A wait joins the run of waits after it (R16). -/
theorem mergeWaits_wait (us : Nat) (a : List Event) :
    mergeWaits (.wait us :: a) = match mergeWaits a with
      | .wait us' :: rest => .wait (us + us') :: rest
      | [] => [.wait us]
      | .write v r :: rest => .wait us :: .write v r :: rest := rfl

/-- A write ends the run of waits before it (R16). -/
@[simp] theorem mergeWaits_write (v : Byte) (r : Answer) (a : List Event) :
    mergeWaits (.write v r :: a) = .write v r :: mergeWaits a := rfl

@[simp] theorem totalWait_append (a b : List Event) : totalWait (a ++ b) = totalWait a + totalWait b := by
  induction a with
  | nil => simp [totalWait]
  | cons e rest ih => cases e <;> simp [totalWait, ih, Nat.add_assoc]

/-! ### One entry of a list -/

theorem runSlots_skip (i : Instr) (sl : Slot) (rest : List Slot) (k n : Nat) (s : State) :
    runSlots i (sl :: rest) k (n + 1) s = runSlots i rest (k + 1) n s := rfl

/-- Writing the step's code first is the same as writing it with the entry. -/
theorem runSlots_enter (i : Instr) (c : Option InitState) (a : Action) (rest : List Slot) (k : Nat) (s : State) :
    runSlots i (⟨c, a⟩ :: rest) k 0 s = runSlots i (plain a :: rest) k 0 (s.enter c) := by
  cases a <;> cases c <;> rfl

theorem runSlots_write_answered (i : Instr) (v : Byte) (n : Nat) (rest : List Slot) (k : Nat) (s : State)
    (a : Answer) (env : List Move) (h : s.env = .answer a :: env) :
    runSlots i (plain (.write v n) :: rest) k 0 s =
      runSlots i rest (k + 1) (a.removes n) (s.emitWrite v a env) := by
  simp only [runSlots, plain, h]; rfl

theorem runSlots_write_waits (i : Instr) (v : Byte) (n : Nat) (rest : List Slot) (k : Nat) (s : State)
    (h : ∀ a env, s.env ≠ .answer a :: env) :
    runSlots i (plain (.write v n) :: rest) k 0 s = { s with seq := .running i k } := by
  simp only [runSlots, plain]
  rfl

theorem runSlots_wait_passes (i : Instr) (us : Nat) (rest : List Slot) (k : Nat) (s : State)
    (h : NoStall s.env) :
    runSlots i (plain (.wait us) :: rest) k 0 s = runSlots i rest (k + 1) 0 (s.emitWait us) := by
  simp only [runSlots, plain]
  split
  · next extra env he => rw [he] at h; exact absurd h id
  · rfl

theorem runSlots_wait_watched (i : Instr) (us : Nat) (rest : List Slot) (k : Nat) (s : State)
    (extra : Nat) (env : List Move) (h : s.env = .stall extra :: env) :
    runSlots i (plain (.wait us) :: rest) k 0 s =
      { s with seq := .running i k, delay := loadCount s.cfg us extra, env := env } := by
  simp only [runSlots, plain, h]; rfl

/-! ### What a run can do -/

/-- How a run of `slots` from `s` can have ended: the list is exhausted, or the sequencer stands at one of its
entries, a write that has no answer or a wait that is watched. -/
def RunResult (i : Instr) (slots : List Slot) (k : Nat) (s t : State) : Prop :=
  ∃ (evs : List Event) (used env : List Move) (ini : InitState) (d : Nat),
    s.env = used ++ env ∧
    (∀ v ∈ writesOf evs, ∃ sl ∈ slots, ∃ n, sl.action = .write v n) ∧
    (ini = s.initState ∨ ∃ sl ∈ slots, sl.enters = some ini) ∧
    ((t = finish i { observe evs env s with initState := ini, delay := d } ∧ (d = s.delay ∨ d = 0)) ∨
      (∃ j sl, slots[j]? = some sl ∧
        t = { observe evs env s with initState := ini, delay := d, seq := .running i (k + j) } ∧
        ((∃ v n, sl.action = .write v n ∧ (d = s.delay ∨ d = 0)) ∨
          (∃ us extra, sl.action = .wait us ∧ d = loadCount s.cfg us extra))))

/-- A run that went on from a later entry after one more event is a run of the whole list. -/
theorem RunResult.cons {i : Instr} {sl : Slot} {rest : List Slot} {k : Nat} {s s' t : State}
    (ev : List Event) (used : List Move) (hs' : s' = { observe ev s'.env s with
      initState := s'.initState, delay := s'.delay }) (henv : s.env = used ++ s'.env)
    (hw : ∀ v ∈ writesOf ev, ∃ n, sl.action = .write v n)
    (hi : s'.initState = s.initState ∨ sl.enters = some s'.initState)
    (hd : s'.delay = s.delay ∨ s'.delay = 0)
    (h : RunResult i rest (k + 1) s' t) : RunResult i (sl :: rest) k s t := by
  obtain ⟨evs, used', env, ini, d, he, hwr, hini, hres⟩ := h
  have hobs : ∀ (x : InitState) (y : Nat),
      { observe evs env s' with initState := x, delay := y } =
        { observe (ev ++ evs) env s with initState := x, delay := y } := by
    intro x y
    rw [hs']
    simp [observe, List.append_assoc]
  have hcfg : s'.cfg = s.cfg := by rw [hs']; rfl
  refine ⟨ev ++ evs, used ++ used', env, ini, d, ?_, ?_, ?_, ?_⟩
  · rw [henv, he, List.append_assoc]
  · intro v hv
    rw [writesOf_append, List.mem_append] at hv
    rcases hv with hv | hv
    · exact ⟨sl, by simp, hw v hv⟩
    · obtain ⟨sl', hm, hn⟩ := hwr v hv
      exact ⟨sl', by simp [hm], hn⟩
  · rcases hini with rfl | ⟨sl', hm, hn⟩
    · exact hi.imp id fun h => ⟨sl, by simp, h⟩
    · exact .inr ⟨sl', by simp [hm], hn⟩
  · rcases hres with ⟨ht, hdd⟩ | ⟨j, sl', hj, ht, hk⟩
    · refine .inl ⟨by rw [ht, hobs], ?_⟩
      rcases hdd with rfl | rfl
      · exact hd
      · exact .inr rfl
    · refine .inr ⟨j + 1, sl', by simpa using hj, ?_, ?_⟩
      · rw [ht]
        have := hobs ini d
        simp only [State.mk.injEq] at this ⊢
        refine ⟨?_, ?_, ?_, ?_, ?_, ?_, ?_, ?_, ?_, ?_, ?_, ?_, ?_, ?_⟩ <;>
          first
            | (simp only [this])
            | (simp only [Seq.running.injEq, true_and]; omega)
      · rcases hk with ⟨v, n, hv, hdd⟩ | ⟨us, extra, hu, hdd⟩
        · refine .inl ⟨v, n, hv, ?_⟩
          rcases hdd with rfl | rfl
          · exact hd
          · exact .inr rfl
        · exact .inr ⟨us, extra, hu, by rw [hdd, hcfg]⟩

/-- Everything the sequencer's run can do. -/
theorem runSlots_result (i : Instr) (slots : List Slot) (k skip : Nat) (s : State) :
    RunResult i slots k s (runSlots i slots k skip s) := by
  induction slots generalizing k skip s with
  | nil =>
    exact ⟨[], [], s.env, s.initState, s.delay, rfl, by simp [writesOf], .inl rfl, .inl ⟨by simp [runSlots], .inl rfl⟩⟩
  | cons sl rest ih =>
    cases skip with
    | succ n =>
      rw [runSlots_skip]
      exact (ih (k + 1) n s).cons [] [] (by simp) rfl (by simp [writesOf]) (.inl rfl) (.inl rfl)
    | zero =>
      obtain ⟨c, a⟩ := sl
      have hini : (s.enter c).initState = s.initState ∨ c = some (s.enter c).initState := by
        cases c
        · exact .inl rfl
        · exact .inr rfl
      rw [runSlots_enter]
      cases a with
      | write v n =>
        by_cases h : ∃ b env, s.env = .answer b :: env
        · obtain ⟨b, env, he⟩ := h
          rw [runSlots_write_answered i v n rest k _ b env (by simpa using he)]
          refine (ih (k + 1) _ _).cons [.write v b] [.answer b] ?_ (by simp [he]) ?_ ?_ ?_
          · cases c <;> simp [observe, State.emitWrite, State.emit, State.enter]
          · intro w hw; simp [writesOf] at hw; exact ⟨n, by rw [hw]⟩
          · simpa using hini
          · simp
        · rw [runSlots_write_waits i v n rest k _ (by simpa using h)]
          refine ⟨[], [], s.env, (s.enter c).initState, s.delay, rfl, by simp [writesOf], ?_, .inr ⟨0, _, rfl, ?_, ?_⟩⟩
          · exact hini.imp id fun h => ⟨⟨c, _⟩, List.mem_cons_self, h⟩
          · cases c <;> simp [State.enter]
          · exact .inl ⟨v, n, rfl, .inl rfl⟩
      | wait us =>
        by_cases h : ∃ x env, s.env = .stall x :: env
        · obtain ⟨x, env, he⟩ := h
          rw [runSlots_wait_watched i us rest k _ x env (by simpa using he)]
          refine ⟨[], [.stall x], env, (s.enter c).initState, loadCount s.cfg us x, by simp [he], by simp [writesOf], ?_,
            .inr ⟨0, _, rfl, ?_, ?_⟩⟩
          · exact hini.imp id fun h => ⟨⟨c, _⟩, List.mem_cons_self, h⟩
          · cases c <;> simp [State.enter]
          · exact .inr ⟨us, x, rfl, rfl⟩
        · have hn : NoStall (s.enter c).env := by
            rw [enter_env]
            unfold NoStall
            split
            · next e r he => exact absurd ⟨_, _, he⟩ h
            all_goals trivial
          rw [runSlots_wait_passes i us rest k _ hn]
          refine (ih (k + 1) _ _).cons [.wait us] [] ?_ (by simp) ?_ ?_ ?_
          · cases c <;> simp [observe, State.emitWait, State.emit, State.enter, Display.see]
          · intro w hw; simp [writesOf] at hw
          · simpa using hini
          · simp

/-- What ends an operation does not look at the position it had. -/
theorem finish_ignores_seq (i : Instr) (s : State) (q : Seq) : finish i { s with seq := q } = finish i s := by
  cases i <;> rfl

/-- A run takes its position from its index, not from the state (R23): so a run that goes on is the run from there. -/
theorem runSlots_ignores_seq (i : Instr) (slots : List Slot) (k skip : Nat) (s : State) (q : Seq) :
    runSlots i slots k skip { s with seq := q } = runSlots i slots k skip s := by
  induction slots generalizing k skip s with
  | nil => simp only [runSlots, finish_ignores_seq]
  | cons sl rest ih =>
    cases skip with
    | succ n => rw [runSlots_skip, runSlots_skip, ih]
    | zero =>
      obtain ⟨c, act⟩ := sl
      cases act with
      | write v n =>
        simp only [runSlots]
        split
        · next a env he =>
          rw [← ih _ _ (State.emitWrite v a env (s.enter c))]
          cases c <;> rfl
        · cases c <;> rfl
      | wait us =>
        simp only [runSlots]
        split
        · cases c <;> rfl
        · rw [← ih _ _ (State.emitWait us (s.enter c))]
          cases c <;> rfl

/-! ### A run with the answers at hand -/

/-- The events that the answers select from a list, and the answers left; `none` when they run out (R23). -/
def play : List Slot → (skip : Nat) → List Answer → Option (List Event × List Answer)
  | [], _, as => some ([], as)
  | _ :: rest, skip + 1, as => play rest skip as
  | sl :: rest, 0, as =>
    match sl.action with
    | .write v n =>
      match as with
      | [] => none
      | a :: as => (play rest (a.removes n) as).map fun r => (.write v a :: r.1, r.2)
    | .wait us => (play rest 0 as).map fun r => (.wait us :: r.1, r.2)

/-- With the answers at hand a run exhausts its list, and its events are the ones the answers select. -/
theorem runSlots_play (i : Instr) (slots : List Slot) (k skip : Nat) (s : State) (as left : List Answer)
    (rest : List Move) (evs : List Event) (henv : s.env = as.map .answer ++ rest) (hrest : NoStall rest)
    (hplay : play slots skip as = some (evs, left)) (hd : s.delay = 0) :
    ∃ ini, (ini = s.initState ∨ ∃ sl ∈ slots, sl.enters = some ini) ∧
      runSlots i slots k skip s =
        finish i { observe evs (left.map .answer ++ rest) s with initState := ini, delay := 0 } := by
  induction slots generalizing k skip s as evs with
  | nil =>
    simp only [play, Option.some.injEq, Prod.mk.injEq] at hplay
    obtain ⟨rfl, rfl⟩ := hplay
    exact ⟨s.initState, .inl rfl, by simp [runSlots, ← henv, ← hd]⟩
  | cons sl slots ih =>
    cases skip with
    | succ n =>
      rw [runSlots_skip]
      obtain ⟨ini, hini, h⟩ := ih (k + 1) n s as evs henv hplay hd
      exact ⟨ini, hini.imp id fun ⟨x, hx, hy⟩ => ⟨x, by simp [hx], hy⟩, h⟩
    | zero =>
      obtain ⟨c, a⟩ := sl
      have hini0 : (s.enter c).initState = s.initState ∨ c = some (s.enter c).initState := by
        cases c
        · exact .inl rfl
        · exact .inr rfl
      have hfix : ∀ ini : InitState,
          (ini = (s.enter c).initState ∨ ∃ sl ∈ slots, sl.enters = some ini) →
            (ini = s.initState ∨ ∃ sl ∈ (⟨c, a⟩ : Slot) :: slots, sl.enters = some ini) := by
        rintro ini (rfl | ⟨x, hx, hy⟩)
        · exact hini0.imp id fun h => ⟨⟨c, a⟩, List.mem_cons_self, h⟩
        · exact .inr ⟨x, by simp [hx], hy⟩
      rw [runSlots_enter]
      cases a with
      | write v n =>
        cases as with
        | nil => simp [play] at hplay
        | cons b as =>
          simp only [play, Option.map_eq_some_iff, Prod.mk.injEq, Prod.exists] at hplay
          obtain ⟨evs', left', hp, rfl, rfl⟩ := hplay
          rw [runSlots_write_answered i v n slots k _ b (as.map .answer ++ rest) (by simp [henv])]
          obtain ⟨ini, hini, h⟩ := ih (k + 1) (b.removes n) ((s.enter c).emitWrite v b (as.map .answer ++ rest)) as evs'
            (by simp) hp (by simpa using hd)
          refine ⟨ini, hfix ini (by simpa using hini), ?_⟩
          rw [h]
          cases c <;> simp [observe, State.emitWrite, State.emit, State.enter]
      | wait us =>
        simp only [play, Option.map_eq_some_iff, Prod.mk.injEq, Prod.exists] at hplay
        obtain ⟨evs', left', hp, rfl, rfl⟩ := hplay
        have hn : NoStall (s.enter c).env := by
          rw [enter_env, henv]
          cases as with
          | nil => simpa using hrest
          | cons b as => trivial
        rw [runSlots_wait_passes i us slots k _ hn]
        obtain ⟨ini, hini, h⟩ := ih (k + 1) 0 ((s.enter c).emitWait us) as evs' (by simpa using henv) hp rfl
        refine ⟨ini, hfix ini (by simpa using hini), ?_⟩
        rw [h]
        cases c <;> simp [observe, State.emitWait, State.emit, State.enter, Display.see]

end Sys2Proof.Machine
end

