-- ==== Sys2Proof/Laws/Exec.lean ====
section
/-! SUPPORT. What an admitted operation and a rejected one do, from the run of the sequencer (60_exceptions.md R160). -/

namespace Sys2Proof.Machine

/-- Only INIT's list writes `init_state` (R20, R24). -/
theorem eventList_enters_none (c : Config) (i : Instr) (hi : i ≠ .init) : ∀ sl ∈ eventList c i, sl.enters = none := by
  cases i <;> first
    | exact absurd rfl hi
    | simp [eventList, clearSlots, byteSlots, nibbleSlots, plain]

/-- INIT's list writes only the codes of its steps (R112). -/
theorem initSlots_enters (c : Config) : ∀ sl ∈ initSlots c, ∀ x, sl.enters = some x →
    x ≠ .uninit ∧ x ≠ .ready := by
  simp [initSlots, clearSlots, byteSlots, nibbleSlots, entering, plain]

/-- What ends an admitted operation. -/
def endState (i : Instr) (evs : List Event) (env : List Move) (s : State) : State :=
  if i.isTransfer then transferDone i evs env s else respondedOk i evs env s

theorem finish_observed (i : Instr) (s : State) (evs : List Event) (env : List Move) (ini : InitState)
    (hi : i = .init ∨ ini = s.initState) (hr : i.isTransfer = true ∨ Admitted i s) :
    finish i { observe evs env (started i s) with initState := ini, delay := 0 } = endState i evs env s := by
  have hr' : (∀ x, i ≠ .reservedZero x) ∧ (∀ x y, i ≠ .reservedSixSeven x y) ∧ ∀ x y, i ≠ .reservedHigh x y := by
    refine ⟨?_, ?_, ?_⟩ <;> rintro x <;> intros <;> rintro rfl <;> simp_all [Instr.isTransfer, Admitted]
  obtain ⟨h1, h2, h3⟩ := hr'
  cases i
  case init => rfl
  case reservedZero => exact absurd rfl (h1 _)
  case reservedSixSeven => exact absurd rfl (h2 _ _)
  case reservedHigh => exact absurd rfl (h3 _ _)
  all_goals
    obtain h | rfl := hi
    · cases h
    · rfl

/-- With the answers at hand an operation ends, its events the ones the answers select (R23). -/
theorem begin_play (i : Instr) (s : State) (as left : List Answer) (rest : List Move) (evs : List Event)
    (hr : i.isTransfer = true ∨ Admitted i s) (henv : s.env = as.map .answer ++ rest) (hrest : NoStall rest)
    (hplay : play (eventList s.cfg i) 0 as = some (evs, left)) :
    begin i s = endState i evs (left.map .answer ++ rest) s := by
  obtain ⟨ini, hini, h⟩ := runSlots_play i (eventList s.cfg i) 0 0 (started i s) as left rest evs henv hrest hplay rfl
  rw [begin, h]
  refine finish_observed i s evs _ ini ?_ hr
  by_cases hi : i = .init
  · exact .inl hi
  · rcases hini with h | ⟨sl, hsl, hx⟩
    · exact .inr h
    · rw [eventList_enters_none _ i hi sl hsl] at hx
      cases hx

/-- An admitted operation is run from its start. -/
theorem exec_admitted (i : Instr) (s : State) (h : Admitted i s) : exec i s = .next (begin i s) := by
  cases i <;> simp only [Admitted] at h <;>
    first
      | rfl
      | simp [exec, execNib, execByte, execInit, execGoto, execClear, admitReady, admitUninit, h]

/-- The end of an admitted operation whose answers are at hand. -/
theorem exec_play (i : Instr) (s : State) (as left : List Answer) (rest : List Move) (evs : List Event)
    (h : Admitted i s) (henv : s.env = as.map .answer ++ rest) (hrest : NoStall rest)
    (hplay : play (eventList s.cfg i) 0 as = some (evs, left)) :
    exec i s = .next (endState i evs (left.map .answer ++ rest) s) := by
  rw [exec_admitted i s h, begin_play i s as left rest evs (.inr h) henv hrest hplay]

/-- The three ways `exec` answers: it always answers a next state. -/
theorem exec_cases (i : Instr) (s : State) :
    (Admitted i s ∧ exec i s = .next (begin i s)) ∨
    (¬ Admitted i s ∧ i.isTransfer = false ∧ (exec i s = .next (s.reject .badState) ∨ exec i s = .next (s.reject .illegal))) := by
  by_cases h : Admitted i s
  · exact .inl ⟨h, exec_admitted i s h⟩
  · right
    refine ⟨h, ?_⟩
    cases i <;> simp only [Admitted] at h <;>
      simp_all [exec, execNib, execByte, execInit, execGoto, execClear, execReservedZero, execReservedSixSeven,
        execReservedHigh, admitReady, admitUninit, Instr.isTransfer]

/-- A run of an operation from its start, as a result of `runSlots_result`. -/
theorem begin_result (i : Instr) (s : State) :
    RunResult i (eventList s.cfg i) 0 (started i s) (begin i s) := runSlots_result ..

end Sys2Proof.Machine
end

