-- ==== Sys2Proof/Laws/Events.lean ====
section
/-! SUPPORT. Facts of the event lists, the delay counter's load and what a request word decodes to. -/

namespace Sys2Proof.Machine

/-- A positive wait loads a positive count (R190). -/
theorem minCount_pos (c : Config) (t : Nat) (hc : c.Wf) (ht : 1 ≤ t) : 0 < minCount c t := by
  unfold minCount
  have : 1 ≤ t * c.fClkHz := Nat.mul_pos ht hc.2.2.1
  omega

/-- The load is the least count that covers the wait (R190). -/
theorem minCount_covers (c : Config) (t : Nat) :
    t * c.fClkHz ≤ minCount c t * 1000000 ∧ minCount c t * 1000000 < t * c.fClkHz + 1000000 := by
  unfold minCount
  omega

/-- The counter is large enough for every wait of a legal configuration (R171). -/
theorem minCount_le_maxCount (c : Config) (t : Nat) (hc : c.Wf) (ht : t ∈ c.waits) : minCount c t ≤ maxCount c := by
  have := hc.2.2.2.2 t ht
  unfold minCount maxCount
  omega

/-- The counter holds what it is loaded with (R171). -/
theorem loadCount_lt (c : Config) (t extra : Nat) : loadCount c t extra < 2 ^ c.delayWidth := by
  have : 0 < 2 ^ c.delayWidth := Nat.two_pow_pos _
  unfold loadCount maxCount
  omega

/-- The load is never less than the rule's least count (R190). -/
theorem minCount_le_loadCount (c : Config) (t extra : Nat) (hc : c.Wf) (ht : t ∈ c.waits) :
    minCount c t ≤ loadCount c t extra := by
  exact Nat.le_min.2 ⟨Nat.le_add_right _ _, minCount_le_maxCount c t hc ht⟩

/-- Every wait of every list is one of the configuration's. -/
theorem eventList_waits (c : Config) (i : Instr) :
    ∀ sl ∈ eventList c i, ∀ us, sl.action = .wait us → us ∈ c.waits := by
  cases i <;> simp [eventList, initSlots, clearSlots, byteSlots, nibbleSlots, plain, entering, Config.waits]

/-- At a clock the counter can follow, it holds every wait up to 40 ms (R171). -/
theorem fits_of_le_fastestClk (f w t : Nat) (hf : f ≤ Config.fastestClk w) (ht : t ≤ 40000) :
    t * f ≤ (2 ^ w - 1) * 1000000 := by
  have h := Nat.mul_le_mul ht hf
  unfold Config.fastestClk at h
  generalize 2 ^ w - 1 = m at h ⊢
  omega

/-- The defaults meet every constraint, whatever the OPEN parameters are. -/
theorem standard_wf : Config.standard.Wf := by
  refine ⟨by decide, by decide, ?_, by decide, fun t ht => ?_⟩
  · have : 2 ≤ 2 ^ (Config.openWidthLessOne + 1) := Nat.le_self_pow (Nat.succ_ne_zero _) 2
    have : 0 < Config.fastestClk (Config.openWidthLessOne + 1) := by unfold Config.fastestClk; omega
    exact Nat.lt_min.2 ⟨Nat.succ_pos _, this⟩
  · exact fits_of_le_fastestClk _ _ t (Nat.min_le_right _ _) ((by decide : ∀ t ∈ Config.standard.waits, t ≤ 40000) t ht)

/-- Every wait of every list is at least 1 µs (R9). -/
theorem eventList_waits_pos (c : Config) (hc : c.Wf) (i : Instr) :
    ∀ sl ∈ eventList c i, ∀ us, sl.action = .wait us → 1 ≤ us := by
  intro sl hsl us hus
  obtain ⟨-, ⟨h1, h2, h3, h4, h5, h6, h7, h8, h9⟩, -⟩ := hc
  have hm := eventList_waits c i sl hsl us hus
  simp only [Config.waits, List.mem_cons, List.not_mem_nil, or_false] at hm
  omega

/-- Every write of every list is one of the two strobes of some nibble (R43, R80). -/
theorem eventList_writes (c : Config) (i : Instr) :
    ∀ sl ∈ eventList c i, ∀ v n, sl.action = .write v n →
      ∃ nib rs, v = strobeHigh c nib rs ∨ v = strobeLow c nib rs := by
  have hn : ∀ nib rs b, ∀ sl ∈ nibbleSlots c nib rs b, ∀ v n, sl.action = .write v n →
      ∃ nib rs, v = strobeHigh c nib rs ∨ v = strobeLow c nib rs := by
    intro nib rs b sl hsl v n hv
    simp only [nibbleSlots, plain, List.mem_cons, List.not_mem_nil, or_false] at hsl
    rcases hsl with rfl | rfl | rfl | rfl <;> simp at hv
    · exact ⟨nib, rs, .inl hv.1.symm⟩
    · exact ⟨nib, rs, .inr hv.1.symm⟩
  have hb : ∀ v rs, ∀ sl ∈ byteSlots c v rs, ∀ v n, sl.action = .write v n →
      ∃ nib rs, v = strobeHigh c nib rs ∨ v = strobeLow c nib rs := by
    intro v rs sl hsl v n hv
    simp only [byteSlots, List.mem_append] at hsl
    rcases hsl with (h | h) | h
    · exact hn _ _ _ sl h v n hv
    · exact hn _ _ _ sl h v n hv
    · simp [plain] at h; subst h; simp at hv
  have he : ∀ x l, (∀ sl ∈ l, ∀ v n, sl.action = .write v n → ∃ nib rs, v = strobeHigh c nib rs ∨ v = strobeLow c nib rs) →
      ∀ sl ∈ entering x l, ∀ v n, sl.action = .write v n → ∃ nib rs, v = strobeHigh c nib rs ∨ v = strobeLow c nib rs := by
    intro x l h sl hsl v n hv
    cases l with
    | nil => simp [entering] at hsl
    | cons sl0 l =>
      simp only [entering, List.mem_cons] at hsl
      rcases hsl with rfl | hsl
      · exact h sl0 (by simp) v n hv
      · exact h sl (by simp [hsl]) v n hv
  have hw : ∀ us, ∀ sl ∈ [plain (.wait us)], ∀ v n, sl.action = .write v n →
      ∃ nib rs, v = strobeHigh c nib rs ∨ v = strobeLow c nib rs := by
    intro us sl hsl v n hv
    simp [plain] at hsl; subst hsl; simp at hv
  have hc : ∀ sl ∈ clearSlots c, ∀ v n, sl.action = .write v n →
      ∃ nib rs, v = strobeHigh c nib rs ∨ v = strobeLow c nib rs := by
    intro sl hsl
    rcases List.mem_append.1 hsl with h | h
    · exact hb _ _ sl h
    · exact hw _ sl h
  intro sl hsl v n hv
  cases i <;> simp only [eventList, List.not_mem_nil] at hsl
  case init =>
    simp only [initSlots, List.mem_append, or_assoc] at hsl
    rcases hsl with h | h | h | h | h | h | h | h | h | h | h | h | h
    · exact he _ _ (hw _) sl h v n hv
    · exact he _ _ (hn _ _ _) sl h v n hv
    · exact hw _ sl h v n hv
    · exact he _ _ (hn _ _ _) sl h v n hv
    · exact hw _ sl h v n hv
    · exact he _ _ (hn _ _ _) sl h v n hv
    · exact hw _ sl h v n hv
    · exact he _ _ (hn _ _ _) sl h v n hv
    · exact hw _ sl h v n hv
    · exact he _ _ (hb _ _) sl h v n hv
    · exact he _ _ (hb _ _) sl h v n hv
    · exact he _ _ (hb _ _) sl h v n hv
    · exact he _ _ hc sl h v n hv
  case clear => exact hc sl hsl v n hv
  all_goals first
    | exact hn _ _ _ sl hsl v n hv
    | exact hb _ _ sl hsl v n hv

/-- A request word never decodes to a transfer (R60, log 8). -/
theorem decodeRequest_isTransfer {w : ReqWord} {i : Instr} (h : decode .req24 w = .instr i) : i.isTransfer = false := by
  simp only [decode, decodeRequest] at h
  repeat' split at h
  all_goals cases h; try rfl

end Sys2Proof.Machine
end

