-- ==== Sys2Proof/Laws/PerInstr.lean ====
section
/-! SUPPORT. One law per constructor: the word of a well-formed instruction lies in its row of
spec/opcode_table.json, that is, `(word & mask) = match` (30_encoding.md R62). -/

namespace Sys2Proof.Laws.TableRow

/-- The instruction's word fits its row's mask and match. -/
def Statement (i : Instr) : Prop :=
  i.WellFormed → fits (encodeWord i) (rowMatchMask i).2 (rowMatchMask i).1 = true

theorem nib (rs : RegSel) (n : Nibble) : Statement (.nib rs n) := by
  intro _
  revert n
  cases rs <;> decide

theorem byte (rs : RegSel) (v : Byte) : Statement (.byte rs v) := by
  intro _
  revert v
  cases rs <;> decide

theorem init : Statement .init := by intro _; decide

theorem goto (row col : Byte) : Statement (.goto row col) := by
  intro _
  obtain ⟨h1, h2, h3, -, -⟩ := fields_encode_goto row col
  exact (fits_goto _).2 ⟨h1, h2, h3⟩

theorem clear : Statement .clear := by intro _; decide

theorem reservedZero (rest : BitVec 20) : Statement (.reservedZero rest) := by
  intro _
  exact (fits_reservedZero _).2 (opField_rest rest)

theorem reservedSixSeven (op : BitVec 4) (rest : BitVec 20) : Statement (.reservedSixSeven op rest) := by
  intro h
  refine (fits_reservedSixSeven _).2 ?_
  rw [encodeWord, opField_op_rest]
  simpa [Instr.WellFormed, Instr.illFormed, or_iff_not_imp_left] using h

theorem reservedHigh (op : BitVec 4) (rest : BitVec 20) : Statement (.reservedHigh op rest) := by
  intro h
  refine (fits_reservedHigh _).2 ?_
  rw [encodeWord, opField_op_rest]
  simpa [Instr.WellFormed, Instr.illFormed] using h

theorem force8 : Statement .force8 := by intro _; decide

theorem switch4 : Statement .switch4 := by intro _; decide

theorem functionSet : Statement .functionSet := by intro _; decide

theorem displayControl : Statement .displayControl := by intro _; decide

theorem entryModeSet : Statement .entryModeSet := by intro _; decide

theorem clearDisplay : Statement .clearDisplay := by intro _; decide

theorem setDdramAddr (a : DdramAddr) : Statement (.setDdramAddr a) := by
  intro _
  revert a
  decide

theorem charData (v : Byte) : Statement (.charData v) := by
  intro _
  revert v
  decide

end Sys2Proof.Laws.TableRow
end

