-- ==== Sys2Proof/Laws/Pseudocode.lean ====
section
/-! SUPPORT. What the answers select from the lists of a nibble and of a byte is what SendNibble and SendByte do
(40_nibble_byte.md R80-R84). -/

namespace Sys2Proof.Machine

/-- Which entries go with a failed nibble. -/
def NibbleOutcome.removes : NibbleOutcome → Nat → Nat
  | .done, _ => 0
  | .failed, n => n

/-- Put events before a result of `play`. -/
def prepend (evs : List Event) (r : Option (List Event × List Answer)) : Option (List Event × List Answer) :=
  r.map fun x => (evs ++ x.1, x.2)

@[simp] theorem prepend_none (evs : List Event) : prepend evs none = none := rfl

@[simp] theorem prepend_some (evs e : List Event) (l : List Answer) : prepend evs (some (e, l)) = some (evs ++ e, l) := rfl

theorem prepend_prepend (a b : List Event) (r : Option (List Event × List Answer)) :
    prepend a (prepend b r) = prepend (a ++ b) r := by
  cases r <;> simp [prepend]

theorem play_write_cons (v : Byte) (n : Nat) (rest : List Slot) (a : Answer) (as : List Answer) :
    play (plain (.write v n) :: rest) 0 (a :: as) = prepend [.write v a] (play rest (a.removes n) as) := rfl

theorem play_wait (us : Nat) (rest : List Slot) (as : List Answer) :
    play (plain (.wait us) :: rest) 0 as = prepend [.wait us] (play rest 0 as) := rfl

/-- `entering` changes nothing of what the answers select. -/
theorem play_entering (c : InitState) (l rest : List Slot) (skip : Nat) (as : List Answer) :
    play (entering c l ++ rest) skip as = play (l ++ rest) skip as := by
  cases l with
  | nil => rfl
  | cons sl l => cases skip <;> rfl

theorem play_entering_self (c : InitState) (l : List Slot) (skip : Nat) (as : List Answer) :
    play (entering c l) skip as = play l skip as := by
  rw [← List.append_nil (entering c l), play_entering, List.append_nil]

/-- SendNibble (R80, R81), with what comes after it in the list. -/
theorem play_nibbleSlots (c : Config) (n : Nibble) (rs : RegSel) (beyond : Nat) (rest : List Slot) (as : List Answer) :
    play (nibbleSlots c n rs beyond ++ rest) 0 as =
      match procSendNibble c n rs as with
      | none => none
      | some (evs, o, as') => prepend evs (play rest (o.removes beyond) as') := by
  match as with
  | [] => rfl
  | .fail l :: as =>
    simp only [nibbleSlots, procSendNibble, List.cons_append, play_write_cons, Answer.removes,
      NibbleOutcome.removes]
    rw [Nat.add_comm 3 beyond]
    rfl
  | [.ok] => rfl
  | .ok :: .fail l :: as =>
    simp only [nibbleSlots, procSendNibble, List.cons_append, play_write_cons, play_wait, Answer.removes,
      NibbleOutcome.removes, prepend_prepend]
    rw [Nat.add_comm 1 beyond]
    rfl
  | .ok :: .ok :: as =>
    simp [nibbleSlots, procSendNibble, play_write_cons, play_wait, Answer.removes, NibbleOutcome.removes,
      prepend_prepend, strobeHigh, strobeLow]

/-- SendByte (R83, R84), with what comes after it in the list. -/
theorem play_byteSlots (c : Config) (v : Byte) (rs : RegSel) (rest : List Slot) (as : List Answer) :
    play (byteSlots c v rs ++ rest) 0 as =
      match procSendByte c v rs as with
      | none => none
      | some (evs, as') => prepend evs (play rest 0 as') := by
  simp only [byteSlots, List.append_assoc, procSendByte]
  rw [play_nibbleSlots]
  rcases procSendNibble c (highNibble v) rs as with _ | ⟨e1, o1, a1⟩
  · rfl
  rcases o1 with _ | _ <;> rcases hf : c.failScope with _ | _ <;>
    simp only [NibbleOutcome.removes, FailScope.reach, reduceCtorEq, and_false, and_self, false_and, if_false, if_true]
  case failed.byte => rfl
  all_goals
    rw [play_nibbleSlots]
    rcases procSendNibble c (lowNibble v) rs a1 with _ | ⟨e2, o2, a2⟩
    · rfl
    rcases o2 with _ | _ <;>
      simp [NibbleOutcome.removes, play_wait, prepend_prepend]
  rfl

end Sys2Proof.Machine
end

