-- ==== Sys2Proof/Laws/Step.lean ====
section
/-! SUPPORT. Everything one step can do, said once. -/

namespace Sys2Proof.Machine

/-- The four ways a step answers a next state. -/
theorem step_cases {s t : State} (h : step s = .next t) :
    (∃ i k, s.busy = true ∧ s.seq = .running i k ∧ stepBusy i k s = .next t) ∨
    (s.busy = false ∧ s.offers = [] ∧ t = stepIdle s) ∨
    (∃ o rest i, s.busy = false ∧ s.offers = o :: rest ∧ decode o.format o.word = .instr i ∧
      exec i (accept o rest s) = .next t) ∨
    (∃ o rest, s.busy = false ∧ s.offers = o :: rest ∧
      decode o.format o.word = .error .reservedFieldNonzero ∧ t = (accept o rest s).reject .illegal) := by
  unfold step at h
  split at h
  · next hb =>
    split at h
    · cases h
    · next i k hs => exact .inl ⟨i, k, hb, hs, h⟩
  · next hb =>
    have hb' : s.busy = false := by simpa using hb
    split at h
    · next ho => cases h; exact .inr (.inl ⟨hb', ho, rfl⟩)
    · next o rest ho =>
      split at h
      · next i hd => exact .inr (.inr (.inl ⟨o, rest, i, hb', ho, hd, h⟩))
      · next e hd =>
        cases e with
        | reservedFieldNonzero => cases h; exact .inr (.inr (.inr ⟨o, rest, hb', ho, hd, rfl⟩))
        | noSuchTransfer => cases h

/-- The ways a busy block's step answers a next state: the operation goes on from a write whose answer is at hand, a
wait ends, the counter counts, the block is reset, or the outside moves and the block stays as it is. -/
theorem stepBusy_cases {i : Instr} {k : Nat} {s t : State} (h : stepBusy i k s = .next t) :
    (s.waiting = none ∧ t = resume i k s) ∨
    (∃ us, s.waiting = some us ∧ t = endWait i k us s) ∨
    (∃ us env, s.env = .clock :: env ∧ s.waiting = some us ∧ s.delay ≤ 1 ∧ t = endWait i k us { s with env := env }) ∨
    (∃ us env, s.env = .clock :: env ∧ s.waiting = some us ∧ 1 < s.delay ∧
      t = { s with env := env, delay := s.delay - 1 }) ∨
    (∃ landed env, s.env = .reset landed :: env ∧ t = blockReset landed { s with env := env }) ∨
    (∃ m env, s.env = m :: env ∧
      (t = { s with env := env } ∨ (∃ w, m = .request w ∧ t = present w { s with env := env }) ∨
        (∃ c, m = .call c ∧ t = hostCall c { s with env := env }) ∨
        (∃ n, m = .host n ∧ t = hostStep n { s with env := env }))) := by
  have hp : ∀ {t}, progress i k s = .next t →
      (s.waiting = none ∧ t = resume i k s) ∨ (∃ us, s.waiting = some us ∧ t = endWait i k us s) := by
    intro t h
    unfold progress at h
    split at h
    · next us hw => cases h; exact .inr ⟨us, hw, rfl⟩
    · next hw =>
      split at h <;> cases h <;> exact .inl ⟨hw, rfl⟩
  unfold stepBusy at h
  split at h
  · exact (hp h).imp id .inl
  · exact (hp h).imp id .inl
  · next x env he => cases h; exact .inr (.inr (.inr (.inr (.inr ⟨_, env, he, .inl rfl⟩))))
  · next env he =>
    cases h
    have hw : ({ s with env := env } : State).waiting = s.waiting := rfl
    unfold clockEdge
    rw [hw]
    split
    · next us hws =>
      split
      · next hd => exact .inr (.inr (.inl ⟨us, env, he, hws, hd, rfl⟩))
      · next hd => exact .inr (.inr (.inr (.inl ⟨us, env, he, hws, by simpa using hd, rfl⟩)))
    · exact .inr (.inr (.inr (.inr (.inr ⟨_, env, he, .inl rfl⟩))))
  · next landed env he => cases h; exact .inr (.inr (.inr (.inr (.inl ⟨landed, env, he, rfl⟩))))
  · next w env he => cases h; exact .inr (.inr (.inr (.inr (.inr ⟨_, env, he, .inr (.inl ⟨w, rfl, rfl⟩)⟩))))
  · next c env he =>
    cases h; exact .inr (.inr (.inr (.inr (.inr ⟨_, env, he, .inr (.inr (.inl ⟨c, rfl, rfl⟩))⟩))))
  · next n env he =>
    cases h; exact .inr (.inr (.inr (.inr (.inr ⟨_, env, he, .inr (.inr (.inr ⟨n, rfl, rfl⟩))⟩))))

/-- What an idle block's step can do when nothing is presented. -/
theorem stepIdle_cases (s : State) :
    stepIdle s = s ∨
    (∃ landed env, s.env = .reset landed :: env ∧ stepIdle s = blockReset landed { s with env := env }) ∨
    (∃ m env, s.env = m :: env ∧
      (stepIdle s = { s with env := env } ∨ (∃ w, m = .request w ∧ stepIdle s = present w { s with env := env }) ∨
        (∃ c, m = .call c ∧ stepIdle s = hostCall c { s with env := env }) ∨
        (∃ n, m = .host n ∧ stepIdle s = hostStep n { s with env := env }))) := by
  unfold stepIdle
  split
  · exact .inl rfl
  · next a env he => exact .inr (.inr ⟨_, env, he, .inl rfl⟩)
  · next x env he => exact .inr (.inr ⟨_, env, he, .inl rfl⟩)
  · next env he => exact .inr (.inr ⟨_, env, he, .inl rfl⟩)
  · next l env he => exact .inr (.inl ⟨l, env, he, rfl⟩)
  · next w env he => exact .inr (.inr ⟨_, env, he, .inr (.inl ⟨w, rfl, rfl⟩)⟩)
  · next c env he => exact .inr (.inr ⟨_, env, he, .inr (.inr (.inl ⟨c, rfl, rfl⟩))⟩)
  · next n env he => exact .inr (.inr ⟨_, env, he, .inr (.inr (.inr ⟨n, rfl, rfl⟩))⟩)

/-- Going on from index `k`, as a result of `runSlots_result`. -/
theorem resume_result (i : Instr) (k : Nat) (s : State) :
    RunResult i ((eventList s.cfg i).drop k) k s (resume i k s) := runSlots_result ..

/-- Going on after a wait, as a result of `runSlots_result`. -/
theorem endWait_result (i : Instr) (k us : Nat) (s : State) :
    RunResult i ((eventList s.cfg i).drop (k + 1)) (k + 1) (s.emitWait us) (endWait i k us s) := runSlots_result ..

end Sys2Proof.Machine
end

