-- ==== Sys2Proof/Tests/Slice0.lean ====
section
/-! SUPPORT. Tests: words written out from the spec's encodings, vectors of 95_test_vectors.md, the WellFormed smoke, and
for every statement with hypotheses a state and operands that meet them all. Expected values come from the rule or the
vector each test names. -/

namespace Sys2Proof.Tests

open Sys2Proof Sys2Proof.Machine

/-! ### Helpers -/

/-- The default configuration with the OPEN parameters given: 1 MHz, so one count is 1 µs. -/
def cfg : Config := { Config.standard with fClkHz := 1000000, delayWidth := 17, expanderAddr := 0x27#7 }

/-- The same with P_FAIL_SCOPE = BYTE. -/
def cfgByte : Config := { cfg with failScope := .byte }

/-- The block in UNINIT, idle, with the given script. -/
def fresh (env : List Move) : State := { State.reset with cfg := cfg, env := env }

/-- The block in READY, idle, with the given script. -/
def ready (env : List Move) : State := { fresh env with initState := .ready }

/-- INIT stopped at its first write (index 1), unanswered. -/
def atWrite (env : List Move) : State :=
  { fresh env with busy := true, req := 0x300000#24, seq := .running .init 1, initState := .force81 }

/-- INIT stopped inside its first wait (index 0), the counter at `d`. -/
def inWait (d : Nat) (env : List Move) : State :=
  { fresh env with busy := true, req := 0x300000#24, seq := .running .init 0, initState := .powerOnWait, delay := d }

/-- A READY block whose host has the one given thread. -/
def withThread (t : Thread) (lock : Bool) : State :=
  { ready [] with host := { lock := lock, row := 2, col := 3, clear := 0, threads := [t] } }

/-- What is presented: one word. -/
def offering (w : ReqWord) (s : State) : State := { s with offers := [⟨none, .req24, w⟩] }

/-- `n` answers `ok`. -/
def oks (n : Nat) : List Move := List.replicate n (.answer .ok)

/-- The next state of an outcome. -/
def nextOf : Host.Outcome State Fault Refusal → Option State
  | .next s => some s
  | .fault _ => none
  | .refused _ => none

/-- The trace after an outcome. -/
def traceOf (o : Host.Outcome State Fault Refusal) : Option (List Event) := (nextOf o).map State.trace

/-- Response, init state, STATUS after an outcome. -/
def portOf (o : Host.Outcome State Fault Refusal) : Option (Bool × BitVec 2 × InitState × BitVec 2) :=
  (nextOf o).map fun s => (s.rspValid, s.rsp, s.initState, s.status)

/-- `W(v)` answered `ok`. -/
abbrev W (v : Byte) : Event := .write v .ok

/-- `W(v)!`, the byte not on the pins. -/
abbrev X (v : Byte) : Event := .write v (.fail false)

/-- `D(t)`. -/
abbrev D (t : Nat) : Event := .wait t

/-! ### WellFormed smoke: an ill-formed term for each check (R64) -/

theorem test_wf_refuses_op_five : ¬ (Instr.reservedSixSeven 5#4 0#20).WellFormed := by decide
theorem test_wf_refuses_op_three : ¬ (Instr.reservedHigh 3#4 0#20).WellFormed := by decide
theorem test_wf_accepts_op_seven : (Instr.reservedSixSeven 7#4 0#20).WellFormed := by decide

/-! ### Decoding: one word for each constructor, bit by bit from R62, R64, R66 -/

theorem test_decode_nib : decode .req24 0b0001_0001_0000_0000_0000_1010#24 = .instr (.nib .data 10#4) := by decide
theorem test_decode_byte : decode .req24 0b0010_0000_0000_0000_1100_0000#24 = .instr (.byte .command 0xC0#8) := by decide
theorem test_decode_init : decode .req24 0b0011_0000_0000_0000_0000_0000#24 = .instr .init := by decide
theorem test_decode_goto : decode .req24 0b0100_0000_0000_1001_0000_0011#24 = .instr (.goto 9#8 3#8) := by decide
theorem test_decode_clear : decode .req24 0b0101_0000_0000_0000_0000_0000#24 = .instr .clear := by decide
theorem test_decode_op_zero : decode .req24 0b0000_0000_0000_0000_0000_0001#24 = .instr (.reservedZero 1#20) := by decide
theorem test_decode_op_six : decode .req24 0b0110_0000_0000_0000_0000_0000#24 = .instr (.reservedSixSeven 6#4 0#20) := by
  decide
theorem test_decode_op_fifteen : decode .req24 0b1111_0000_0000_0000_0000_0000#24 = .instr (.reservedHigh 15#4 0#20) := by
  decide
theorem test_decode_force8 : decode .nibble 0b0011#24 = .instr .force8 := by decide
theorem test_decode_switch4 : decode .nibble 0b0010#24 = .instr .switch4 := by decide
theorem test_decode_functionSet : decode .command 0b0010_1000#24 = .instr .functionSet := by decide
theorem test_decode_displayControl : decode .command 0b0000_1100#24 = .instr .displayControl := by decide
theorem test_decode_entryModeSet : decode .command 0b0000_0110#24 = .instr .entryModeSet := by decide
theorem test_decode_clearDisplay : decode .command 0b0000_0001#24 = .instr .clearDisplay := by decide
theorem test_decode_setDdramAddr : decode .command 0b1100_0000#24 = .instr (.setDdramAddr 0x40#7) := by decide
theorem test_decode_charData : decode .character 0b0100_0001#24 = .instr (.charData 0x41#8) := by decide

/-- L2.7: words with a nonzero reserved field. -/
theorem test_decode_reserved_fields :
    ([0x120000#24, 0x100010#24, 0x100100#24, 0x200100#24, 0x240041#24, 0x410000#24, 0x310000#24, 0x580000#24,
      0x500001#24, 0x300001#24].all fun w => decode .req24 w == .error .reservedFieldNonzero) = true := by decide

/-- The words of the table's rows, with the bits the table gives them. -/
theorem test_table_words :
    decodeTableWord 24 0x100000 = some (.nib .command 0#4) ∧ decodeTableWord 24 0x600000 = some (.reservedSixSeven 6#4 0#20) ∧
      decodeTableWord 8 0x3 = some .force8 ∧ decodeTableWord 8 0x28 = some .functionSet ∧
      decodeTableWord 8 0x80 = some (.setDdramAddr 0#7) ∧ decodeTableWord 8 0x00 = some (.charData 0#8) := by decide

/-! ### NIB and BYTE (L2.1-L2.3) -/

theorem test_nib_c_3 : traceOf (exec (.nib .command 3#4) (ready (oks 2))) = some [W 0x3C, D 50, W 0x38, D 50] := by decide
theorem test_nib_second_write_fails :
    traceOf (exec (.nib .command 3#4) (ready [.answer .ok, .answer (.fail false)])) = some [W 0x3C, D 50, X 0x38] := by
  decide
theorem test_byte_data_41 :
    traceOf (exec (.byte .data 0x41#8) (ready (oks 4))) =
      some [W 0x4D, D 50, W 0x49, D 50, W 0x1D, D 50, W 0x19, D 50, D 50] := by decide
theorem test_byte_scope_byte_fail_at_w2 :
    traceOf (exec (.byte .data 0x41#8)
      { ready [.answer .ok, .answer (.fail false)] with cfg := cfgByte }) = some [W 0x4D, D 50, X 0x49] := by decide

/-! ### INIT (R110, L2.4) -/

theorem test_init_trace : traceOf (exec .init (fresh (oks 24))) = some
    [D 40000,
      W 0x3C, D 50, W 0x38, D 50, D 5000, W 0x3C, D 50, W 0x38, D 50, D 150, W 0x3C, D 50, W 0x38, D 50, D 150,
      W 0x2C, D 50, W 0x28, D 50, D 2000,
      W 0x2C, D 50, W 0x28, D 50, W 0x8C, D 50, W 0x88, D 50, D 50,
      W 0x0C, D 50, W 0x08, D 50, W 0xCC, D 50, W 0xC8, D 50, D 50,
      W 0x0C, D 50, W 0x08, D 50, W 0x6C, D 50, W 0x68, D 50, D 50,
      W 0x0C, D 50, W 0x08, D 50, W 0x1C, D 50, W 0x18, D 50, D 50, D 2000] := by decide

/-- L2.4, every write failing under NIBBLE scope: 22 events less the spacing of the list, READY and OK. -/
theorem test_init_all_fail :
    traceOf (exec .init (fresh (List.replicate 12 (.answer (.fail false))))) = some
      [D 40000, X 0x3C, D 5000, X 0x3C, D 150, X 0x3C, D 150, X 0x2C, D 2000, X 0x2C, X 0x8C, D 50, X 0x0C, X 0xCC, D 50,
        X 0x0C, X 0x6C, D 50, X 0x0C, X 0x1C, D 50, D 2000] ∧
      portOf (exec .init (fresh (List.replicate 12 (.answer (.fail false))))) =
        some (true, 0#2, .ready, 0b10#2) := by decide

/-! ### GOTO and CLEAR (L2.5, L2.6) -/

theorem test_goto_wraps : traceOf (exec (.goto 3#8 255#8) (ready (oks 4))) =
    some [W 0xDC, D 50, W 0xD8, D 50, W 0x3C, D 50, W 0x38, D 50, D 50] := by decide
theorem test_goto_clamps_row_9 : traceOf (exec (.goto 9#8 3#8) (ready (oks 4))) =
    some [W 0xDC, D 50, W 0xD8, D 50, W 0x7C, D 50, W 0x78, D 50, D 50] := by decide
theorem test_clear : traceOf (exec .clear (ready (oks 4))) =
    some [W 0x0C, D 50, W 0x08, D 50, W 0x1C, D 50, W 0x18, D 50, D 50, D 2000] := by decide
theorem test_clear_scope_byte_first_fails :
    traceOf (exec .clear { ready [.answer (.fail false)] with cfg := cfgByte }) = some [X 0x0C, D 2000] := by decide

/-! ### Rejections (L2.7) -/

theorem test_reserved_words : portOf (exec (.reservedZero 0#20) (ready [])) = some (true, 1#2, .ready, 0b10#2) ∧
    portOf (exec (.reservedSixSeven 6#4 0#20) (fresh [])) = some (true, 1#2, .uninit, 0b00#2) ∧
    portOf (exec (.reservedHigh 15#4 0#20) (ready [])) = some (true, 1#2, .ready, 0b10#2) := by decide
theorem test_init_twice : portOf (exec .init (ready (oks 24))) = some (true, 2#2, .ready, 0b10#2) ∧
    traceOf (exec .init (ready (oks 24))) = some [] := by decide
theorem test_clear_before_init : portOf (exec .clear (fresh (oks 4))) = some (true, 2#2, .uninit, 0b00#2) := by decide
/-- L2.7: INIT with RS set, in UNINIT: decoding comes before the state (R165). -/
theorem test_illegal_before_state : portOf (step (offering 0x310000#24 (fresh []))) = some (true, 1#2, .uninit, 0b00#2) := by
  decide

/-! ### Transfers (R66-R73: the control bytes of the table's rows) -/

theorem test_force8 : traceOf (exec .force8 (ready (oks 2))) = some [W 0x3C, D 50, W 0x38, D 50] := by decide
theorem test_switch4 : traceOf (exec .switch4 (ready (oks 2))) = some [W 0x2C, D 50, W 0x28, D 50] := by decide
theorem test_functionSet : traceOf (exec .functionSet (ready (oks 4))) =
    some [W 0x2C, D 50, W 0x28, D 50, W 0x8C, D 50, W 0x88, D 50, D 50] := by decide
theorem test_displayControl : traceOf (exec .displayControl (ready (oks 4))) =
    some [W 0x0C, D 50, W 0x08, D 50, W 0xCC, D 50, W 0xC8, D 50, D 50] := by decide
theorem test_entryModeSet : traceOf (exec .entryModeSet (ready (oks 4))) =
    some [W 0x0C, D 50, W 0x08, D 50, W 0x6C, D 50, W 0x68, D 50, D 50] := by decide
theorem test_clearDisplay : traceOf (exec .clearDisplay (ready (oks 4))) =
    some [W 0x0C, D 50, W 0x08, D 50, W 0x1C, D 50, W 0x18, D 50, D 50] := by decide
theorem test_setDdramAddr : traceOf (exec (.setDdramAddr 0x45#7) (ready (oks 4))) =
    some [W 0xCC, D 50, W 0xC8, D 50, W 0x5C, D 50, W 0x58, D 50, D 50] := by decide
theorem test_charData : traceOf (exec (.charData 0xFF#8) (ready (oks 4))) =
    some [W 0xFD, D 50, W 0xF9, D 50, W 0xFD, D 50, W 0xF9, D 50, D 50] := by decide

/-! ### The step: acceptance, hold, reset, hang (L2.8, R190) -/

theorem test_step_accepts : (nextOf (step (offering 0x300000#24 (fresh [])))).map
    (fun s => (s.busy, s.req, s.seq, s.initState)) = some (true, 0x300000#24, .running .init 1, .force81) := by decide
theorem test_step_accepts_offers_first_byte : (nextOf (step (offering 0x300000#24 (fresh [])))).map
    (fun s => (s.trace, s.busOffer)) = some ([D 40000], some 0x3C#8) := by decide
theorem test_clear_held_during_init : (nextOf (step (atWrite [.request 0x500000#24]))).map
    (fun s => (s.offers, s.seq, s.trace, s.rspValid)) =
      some ([⟨none, .req24, 0x500000#24⟩], .running .init 1, [], false) := by decide
theorem test_reset_mid_init : (nextOf (step (atWrite [.reset true]))).map
    (fun s => (s.initState, s.seq, s.rspValid, s.trace, s.display.pins)) = some (.uninit, .idle, false, [], 0x3C#8) := by
  decide
theorem test_hang : (match step (atWrite []) with | .fault r => some r | _ => none) = some .transportSilent := by decide
theorem test_stalled_wait_loads : (nextOf (exec .init (fresh [.stall 3]))).map (fun s => (s.delay, s.trace, s.busy)) =
    some (40003, [], true) := by with_unfolding_all decide
/-- R171: a draw beyond a counter of 17 bits is cut to what it holds. -/
theorem test_load_fits_the_counter : (nextOf (exec .init (fresh [.stall 1000000]))).map (fun s => s.delay) = some 131071 := by
  with_unfolding_all decide
theorem test_clock_ends_wait : (nextOf (step (inWait 1 [.clock]))).map (fun s => (s.delay, s.trace, s.seq)) =
    some (0, [D 40000], .running .init 1) := by decide

/-- R23: the answer resumes the list at the outstanding write, which is emitted once (L1.9's second and third events). -/
theorem test_answer_resumes : (nextOf (step (atWrite (oks 1)))).map (fun s => (s.trace, s.seq, s.busOffer)) =
    some ([W 0x3C, D 50], .running .init 3, some 0x38#8) := by decide
/-- R162: a watched wait runs out when the script has no clock edge for it. -/
theorem test_watched_wait_runs_out : (nextOf (step (inWait 9 []))).map (fun s => (s.delay, s.trace, s.seq)) =
    some (0, [D 40000], .running .init 1) := by decide

/-! ### The controller's link (P4, P5) -/

theorem test_unpaired_nib : ((nextOf (exec (.nib .command 3#4)
    { ready (oks 2) with display := ⟨0#8, .high⟩ })).map fun s => s.display.link) = some .low := by decide
/-- R185: an illegal request between the two NIBs of a pair is a violation; the second NIB repairs nothing. -/
theorem test_rejected_between_nibs : ((nextOf (step
    { offering 0x120000#24 (ready []) with display := ⟨0#8, .low⟩ })).map fun s => (s.display.link, s.display.link.turn)) =
      some (.unknown, .unknown) := by decide
theorem test_failure_loses_link : ((nextOf (exec (.byte .data 0x41#8)
    { ready (.answer (.fail true) :: oks 2) with display := ⟨0#8, .high⟩ })).map fun s => s.display.link) =
      some .unknown := by decide

/-! ### Host agents (L2.9) and the assembler (R75) -/

theorem test_host_line_feed : (hostStep 0 (withThread (.writing [0x0A#8] 1) true)).offers =
    [⟨some 0, .req24, 0x2000C0#24⟩] := by decide
/-- R144: any other byte is character data, verbatim (L2.9: `DATA 0x41`). -/
theorem test_host_character : (hostStep 0 (withThread (.writing [0x41#8] 1) true)).offers =
    [⟨some 0, .req24, 0x210041#24⟩] := by decide
theorem test_host_row_300 : (hostStep 0 (withThread (.rowIssue 300 2) false)).offers =
    [⟨some 0, .req24, 0x40FF02#24⟩] := by decide
theorem test_host_col_minus_1 : (hostStep 0 (withThread (.colIssue (-1) 0) false)).offers =
    [⟨some 0, .req24, 0x4000FF#24⟩] := by decide
theorem test_host_response_arrives : ((nextOf (exec .clear
    { withThread .clearAwait false with owner := some 0, env := oks 4 })).map fun s => s.host.threads) =
      some [.clearZero] := by decide
theorem test_asm_nib : assembleText ['N', 'I', 'B', ' ', 'C', ',', ' ', '3'] = some 0x100003#24 := by decide
theorem test_asm_putc : assembleText ['P', 'U', 'T', 'C', ' ', '0', 'x', '0', 'A'] = some 0x2000C0#24 := by decide
theorem test_asm_refuses : assembleText ['N', 'I', 'B', ' ', 'C', ',', ' ', '1', '6'] = none := by decide
/-- R16: the comparison looks at `W(v)` and `D(t)` alone. -/
theorem test_trace_eq_ignores_answers :
    TraceEq [.write 0x4D#8 (.fail true), D 50] [.write 0x4D#8 (.fail false), D 50] ∧
    ¬ TraceEq [D 50, D 50] [D 100] ∧ TraceEquiv [D 50, D 50] [D 100] := by decide
theorem test_merge_waits : mergeWaits [W 0x19, D 50, D 50, D 2000] = [W 0x19, D 2100] := by decide

/-! ### Witnesses: for every statement with hypotheses, a state and operands that meet them all -/

theorem witness_DecodeOfEncode : (Instr.goto 255#8 255#8).WellFormed ∧ (Instr.reservedHigh 8#4 0#20).WellFormed := by decide

theorem witness_EncodeOfDecode : decode .req24 0x4000FF#24 = .instr (.goto 0#8 255#8) := by decide

/-- One word under each clause of the statement, at the edge of its range, and an idle state that presents it. -/
theorem witness_IllegalWordsExactly :
    opField 0x0FFFFF#24 = 0#4 ∧ 6 ≤ (opField 0x600000#24).toNat ∧
    (opField 0x100010#24 = 1#4 ∧ highNibble (bField 0x100010#24) ≠ 0#4) ∧
    (opField 0x200100#24 = 2#4 ∧ aField 0x200100#24 ≠ 0#8) ∧
    (opField 0x410000#24 = 4#4 ∧ rsField 0x410000#24 ≠ .command) ∧
    (opField 0x500001#24 = 5#4 ∧ restField 0x500001#24 ≠ 0#20) ∧
    (offering 0x500001#24 (ready [])).busy = false ∧
    (offering 0x500001#24 (ready [])).offers = ⟨none, .req24, 0x500001#24⟩ :: [] ∧
    ¬ (opField 0x4FFFFF#24 = 0#4) ∧ rsvField 0x40FFFF#24 = 0#3 ∧ rsField 0x40FFFF#24 = .command := by decide

theorem witness_StepRunsDecoded :
    (offering 0x100003#24 (ready (oks 2))).busy = false ∧
    (offering 0x100003#24 (ready (oks 2))).offers = ⟨none, .req24, 0x100003#24⟩ :: [] ∧
    decode .req24 0x100003#24 = .instr (.nib .command 3#4) := by decide

theorem witness_PlacedWordRuns :
    decodeTableWord 24 0x300000 = some .init ∧ decodeTableWord 8 0x28 = some .functionSet := by decide

theorem witness_HeldWhileBusy :
    (atWrite [.request 0x500000#24]).busy = true ∧ (atWrite [.request 0x500000#24]).seq = .running .init 1 ∧
    (nextOf (step (atWrite [.request 0x500000#24]))).isSome = true := by decide

theorem witness_UnansweredWriteNeverPassed :
    (atWrite []).busy = true ∧ (atWrite []).seq = .running .init 1 ∧ (atWrite []).busOffer ≠ none ∧ (atWrite []).env = [] ∧
    (atWrite [.clock]).busOffer ≠ none ∧ (nextOf (step (atWrite [.clock]))).isSome = true := by decide

theorem witness_RunsOutAtAWrite :
    Admitted .clear (ready (oks 1 ++ [.reset true])) ∧
    (ready (oks 1 ++ [.reset true])).env = [Answer.ok].map .answer ++ [.reset true] ∧ NoStall [.reset true] ∧
    (∀ a more, [Move.reset true] ≠ .answer a :: more) ∧
    procedure (ready []).cfg .clear [.ok] = none := ⟨rfl, rfl, trivial, by simp, rfl⟩

/-- The second clause: INIT stands at its first write, and the answer comes; also the last write of a list. -/
theorem witness_RunsOutAtAWrite_answered :
    (atWrite (oks 1)).busy = true ∧ (atWrite (oks 1)).seq = .running .init 1 ∧ (atWrite (oks 1)).busOffer = some 0x3C#8 ∧
    (atWrite (oks 1)).env = .answer .ok :: [] ∧
    ({ ready (oks 1) with busy := true, seq := .running .clear 6 } : State).busOffer = some 0x18#8 := by decide

/-- NIB stands at its second write, and at its first wait, watched. -/
theorem witness_HeldUpRunIsTheSameRun :
    ((nextOf (exec (.nib .command 3#4) { ready [] with env := oks 1 })).map
      fun t => (t.busy, t.busOffer, t.env)) = some (true, some 0x38#8, []) ∧
    ((nextOf (exec (.nib .command 3#4) { ready [] with env := oks 1 ++ [.stall 7] })).map
      fun t => (t.busy, t.waiting, t.env)) = some (true, some 50, []) := by decide

theorem witness_NibStrobesOnce :
    (ready (oks 2)).initState = .ready ∧ (ready (oks 2)).env = .answer .ok :: .answer .ok :: [] ∧ NoStall [] ∧
    (ready [.answer (.fail true)]).env = .answer (.fail true) :: [] ∧
    (ready [.answer .ok, .answer (.fail true)]).env = .answer .ok :: .answer (.fail true) :: [] :=
  ⟨rfl, rfl, trivial, rfl, rfl⟩

/-- Config.Wf of the test configuration: R9's constraints hold of its defaults. -/
theorem witness_ConfigWf : cfg.Wf ∧ cfgByte.Wf := by decide

/-- Also of GotoSendsTheAddress, ClearAlwaysWaits (with as = four ok) and ByteTransfersComplete. -/
theorem witness_ByteSendsHighThenLow :
    (ready (oks 4)).initState = .ready ∧ (ready (oks 4)).env = List.replicate 4 (.answer .ok) ++ [] ∧
    (ready (oks 4)).env = (List.replicate 4 Answer.ok).map .answer ++ [] ∧ NoStall [] := ⟨rfl, rfl, rfl, trivial⟩

theorem witness_ByteScopeEndsTheByte :
    ({ ready [.answer (.fail true)] with cfg := cfgByte } : State).initState = .ready ∧
    ({ ready [.answer (.fail true)] with cfg := cfgByte } : State).cfg.failScope = .byte ∧
    ({ ready [.answer (.fail true)] with cfg := cfgByte } : State).env = .answer (.fail true) :: [] ∧
    (ready (oks 1 ++ [.answer (.fail true)])).env = .answer .ok :: .answer (.fail true) :: [] ∧
    (ready (oks 2 ++ [.answer (.fail true)])).env = .answer .ok :: .answer .ok :: .answer (.fail true) :: [] ∧
    (ready (oks 3 ++ [.answer (.fail true)])).env = .answer .ok :: .answer .ok :: .answer .ok :: .answer (.fail true) :: [] := by
  decide

theorem witness_NibbleScopeGoesOn :
    (ready []).initState = .ready ∧ (ready []).cfg.failScope = .nibble ∧ NoStall [] ∧
    (ready (.answer (.fail true) :: oks 2)).env = .answer (.fail true) :: .answer .ok :: .answer .ok :: [] ∧
    (ready (oks 1 ++ .answer (.fail true) :: oks 2)).env =
      .answer .ok :: .answer (.fail true) :: .answer .ok :: .answer .ok :: [] ∧
    (ready (oks 2 ++ [.answer (.fail true)])).env = .answer .ok :: .answer .ok :: .answer (.fail true) :: [] ∧
    (ready (oks 3 ++ [.answer (.fail true)])).env =
      .answer .ok :: .answer .ok :: .answer .ok :: .answer (.fail true) :: [] ∧
    (ready [.answer (.fail true), .answer (.fail false)]).env = .answer (.fail true) :: .answer (.fail false) :: [] :=
  ⟨rfl, rfl, trivial, rfl, rfl, rfl, rfl, rfl⟩

/-- Also of InitNeverStopsOnFailure (as = 24 ok). -/
theorem witness_InitRunsTheSequence :
    (fresh (oks 24)).initState = .uninit ∧ (fresh (oks 24)).env = List.replicate 24 (.answer .ok) ++ [] ∧
    (fresh (oks 24)).env = (List.replicate 24 Answer.ok).map .answer ++ [] ∧
    24 ≤ (List.replicate 24 Answer.ok).length ∧ NoStall [] := ⟨rfl, rfl, rfl, by decide, trivial⟩

/-- Also of InitFrame: INIT stops at an unanswered write in the first state and ends in the second. -/
theorem witness_InitStatus :
    (fresh []).initState = .uninit ∧ ((nextOf (exec .init (fresh []))).map State.busy) = some true ∧
    ((nextOf (exec .init (fresh (oks 24)))).map State.busy) = some false := by decide

/-- Not admitted, and admitted: an admitted request stands at its first write, or ends. -/
theorem witness_AdmissionTable : (ready []).initState ≠ .uninit ∧ (fresh []).initState ≠ .ready ∧
    (fresh []).initState = .uninit ∧ (nextOf (exec .init (fresh []))).isSome = true ∧
    (ready (oks 4)).initState = .ready ∧ (nextOf (exec .clear (ready (oks 4)))).isSome = true := by decide

theorem witness_RowsFromThreeAreRowThree :
    3 ≤ (3#8).toNat ∧ 3 ≤ (255#8).toNat ∧ (nextOf (exec (.goto 255#8 15#8) (ready (oks 4)))).isSome = true ∧
    (nextOf (exec (.goto 3#8 15#8) (ready (oks 4)))).isSome = true := by decide

theorem witness_AddressInRange : (3#8).toNat ≤ 3 ∧ (15#8).toNat ≤ 15 ∧ (0#8).toNat ≤ 3 ∧ (0#8).toNat ≤ 15 := by decide

/-- Two CLEARs with four `ok` each: the first leaves the answers of the second. -/
theorem witness_ClearTwice :
    (ready (oks 8)).initState = .ready ∧
    (ready (oks 8)).env = (List.replicate 4 Answer.ok).map .answer ++ ((List.replicate 4 Answer.ok).map .answer ++ []) ∧
    ((nextOf (exec .clear (ready (oks 8)))).map fun t => (t.env, t.busy)) =
      some ((List.replicate 4 Answer.ok).map .answer ++ [], false) ∧
    ((nextOf (exec .clear (ready (oks 8)))).bind fun t => nextOf (exec .clear t)).isSome = true := by decide

theorem witness_NibbleTransfersComplete : (ready (oks 2)).env = List.replicate 2 (.answer .ok) ++ [] ∧ NoStall [] :=
  ⟨rfl, trivial⟩

theorem witness_SequencerIsThePseudocode :
    Admitted (.nib .command 3#4) (ready [.answer (.fail true), .answer .ok]) ∧
    (ready [.answer (.fail true), .answer .ok]).env = [Answer.fail true, .ok].map .answer ++ [] ∧ NoStall [] ∧
    procedure (ready []).cfg (.nib .command 3#4) [.fail true, .ok] = some ([.write 0x3C#8 (.fail true)], [.ok]) :=
  ⟨rfl, rfl, trivial, by decide⟩

theorem witness_FailuresLeaveNoRecord :
    Instr.isTransfer (.nib .command 3#4) = false ∧ (ready []).initState = .ready ∧
    ((nextOf (exec (.nib .command 3#4) { ready [] with env := [Answer.fail true].map .answer })).map State.busy) = some false ∧
    ((nextOf (exec (.nib .command 3#4) { ready [] with env := [Answer.ok, .ok].map .answer })).map State.busy) = some false := by
  decide

/-- Each of the four requests answers a next state. -/
theorem witness_RequestFrame :
    (nextOf (exec (.nib .data 0#4) (ready (oks 2)))).isSome = true ∧ (nextOf (exec (.byte .data 0#8) (ready []))).isSome = true ∧
    (nextOf (exec (.goto 0#8 0#8) (fresh []))).isSome = true ∧ (nextOf (exec .clear (ready (oks 4)))).isSome = true := by decide

theorem witness_TransferFrame :
    Instr.isTransfer .functionSet = true ∧ (nextOf (exec .functionSet (ready (oks 4)))).isSome = true := by decide

/-- Each request's pseudocode ends under 24 answers `ok`. -/
theorem witness_MinimumDurations :
    (procedure Config.standard (.nib .data 0#4) (List.replicate 24 .ok)).isSome = true ∧
    (procedure Config.standard (.byte .data 0#8) (List.replicate 24 .ok)).isSome = true ∧
    (procedure Config.standard (.goto 0#8 0#8) (List.replicate 24 .ok)).isSome = true ∧
    (procedure Config.standard .clear (List.replicate 24 .ok)).isSome = true ∧
    (procedure Config.standard .init (List.replicate 24 .ok)).isSome = true := by decide

theorem witness_DelayCounterCounts :
    (fresh [.stall 3]).env = .stall 3 :: [] ∧ (inWait 2 [.clock]).busy = true ∧ (inWait 2 [.clock]).seq = .running .init 0 ∧
    (inWait 2 [.clock]).waiting = some 40000 ∧ (inWait 2 [.clock]).env = .clock :: [] ∧ 1 < (inWait 2 [.clock]).delay ∧
    (inWait 1 [.clock]).delay ≤ 1 ∧ (inWait 1 [.clock]).waiting = some 40000 ∧
    cfg.Wf ∧ 40000 ∈ cfg.waits ∧ (inWait 2 []).waiting = some 40000 ∧ (inWait 2 []).env = [] ∧ (inWait 2 (oks 1)).env = .answer .ok :: [] := by decide

theorem witness_ResetAbandons :
    (atWrite [.reset false]).env = .reset false :: [] ∧ (atWrite [.reset false]).busy = true ∧
    (atWrite [.reset false]).seq ≠ .idle ∧ (ready [.reset true]).busy = false ∧ (ready [.reset true]).offers = [] := by decide

/-- A state inside INIT meets every invariant and steps: the premises of the statements about every step. -/
theorem witness_BlockInvariantKept : (inWait 2 [.clock]).BlockOk ∧ (nextOf (step (inWait 2 [.clock]))).isSome = true := by
  refine ⟨⟨by decide, by decide, by decide, by decide, ?_⟩, by decide⟩
  exact ⟨rfl, by decide, by decide, rfl, by decide⟩

/-- Also of TraceOnlyGrows. -/
theorem witness_ControlBytesKept : (atWrite (oks 23)).cfg.Wf ∧
    ({ atWrite (oks 23) with trace := [W 0x3C] } : State).WritesOk ∧ (nextOf (step (atWrite (oks 23)))).isSome = true := by
  refine ⟨by decide, ?_, by decide⟩
  unfold State.WritesOk
  decide

theorem witness_HostInvariantKept : ({ withThread (.writing [] 1) true with env := [.host 0] } : State).HostOk ∧
    (nextOf (step { withThread (.writing [] 1) true with env := [.host 0] })).isSome = true := by
  refine ⟨⟨by decide, by decide, by decide⟩, by decide⟩

theorem witness_LinkInvariantKept : ({ inWait 2 [.clock] with display := ⟨0#8, .initializing⟩ } : State).BlockOk ∧
    ({ inWait 2 [.clock] with display := ⟨0#8, .initializing⟩ } : State).LinkOk ∧
    (nextOf (step { inWait 2 [.clock] with display := ⟨0#8, .initializing⟩ })).isSome = true := by
  refine ⟨⟨by decide, by decide, by decide, by decide, ?_⟩, ⟨by decide, by decide, by decide⟩, by decide⟩
  exact ⟨rfl, by decide, by decide, rfl, by decide⟩

/-- One step for each of the three clauses: a reset in READY, a reset inside INIT, and the end of INIT. -/
theorem witness_ReadyAndUninitTransitions :
    (ready [.reset true]).BlockOk ∧ (ready [.reset true]).initState = .ready ∧
    ((nextOf (step (ready [.reset true]))).map State.initState) = some .uninit ∧
    (offering 0x300000#24 (fresh (oks 24))).BlockOk ∧ (offering 0x300000#24 (fresh (oks 24))).initState ≠ .ready ∧
    ((nextOf (step (offering 0x300000#24 (fresh (oks 24))))).map State.initState) = some .ready := by
  refine ⟨⟨by decide, by decide, by decide, by decide, ?_⟩, by decide, by decide, ⟨by decide, by decide, by decide, by decide, ?_⟩, by decide, by decide⟩
  · exact ⟨rfl, rfl, .inr rfl⟩
  · exact ⟨rfl, rfl, .inl rfl⟩

theorem witness_NothingBeforeInit :
    (offering 0x300000#24 (fresh [])).BlockOk ∧ (offering 0x300000#24 (fresh [])).busy = false ∧
    (offering 0x300000#24 (fresh [])).initState = .uninit ∧
    traceOf (step (offering 0x300000#24 (fresh []))) ≠ some (offering 0x300000#24 (fresh [])).trace := by
  refine ⟨⟨by decide, by decide, by decide, by decide, ?_⟩, by decide, by decide, by decide⟩
  exact ⟨rfl, rfl, .inl rfl⟩

theorem witness_NibblePairing :
    cfg.Wf ∧ Admitted .clear (ready (oks 24)) ∧ Admitted .init (fresh (oks 24)) ∧
    (ready (oks 24)).env = List.replicate 24 (.answer .ok) ++ [] ∧ NoStall [] ∧
    ({ ready (oks 24) with display := ⟨0#8, .high⟩ } : State).display.link = .high :=
  ⟨by decide, rfl, rfl, rfl, trivial, rfl⟩

/-- In READY with an unpaired NIB sent: a BYTE, an INIT and a word with a nonzero reserved field. -/
theorem witness_OtherRequestBreaksThePair :
    let s : ReqWord → State := fun w => { offering w (ready []) with display := ⟨0#8, .low⟩ }
    (s 0x210041#24).busy = false ∧ (s 0x210041#24).initState = .ready ∧ (s 0x210041#24).display.link = .low ∧
      (s 0x210041#24).offers = ⟨none, .req24, 0x210041#24⟩ :: [] ∧
      decode .req24 0x210041#24 = .instr (.byte .data 0x41#8) ∧ decode .req24 0x300000#24 = .instr .init ∧
      decode .req24 0x120000#24 = .error .reservedFieldNonzero ∧
      (nextOf (step (s 0x210041#24))).isSome = true ∧ (nextOf (step (s 0x300000#24))).isSome = true ∧
      (nextOf (step (s 0x120000#24))).isSome = true := by decide

theorem witness_FailureLosesTheController :
    Admitted (.nib .command 3#4) (ready [.answer (.fail true)]) ∧
    (ready [.answer (.fail true)]).env = [Answer.fail true].map .answer ++ [] ∧ NoStall [] ∧
    procedure (ready []).cfg (.nib .command 3#4) [.fail true] = some ([.write 0x3C#8 (.fail true)], []) ∧
    Event.write 0x3C#8 (.fail true) ∈ [Event.write 0x3C#8 (.fail true)] :=
  ⟨rfl, rfl, trivial, by decide, by decide⟩

theorem witness_WriteTakesTheLock :
    (withThread (.writeLock [0x41#8] 1 1) true).host.threads[0]? = some (.writeLock [0x41#8] 1 1) ∧
    (withThread (.writeLock [0x41#8] 1 1) true).host.lock = true ∧
    (withThread (.writeLock [0x41#8] 1 1) false).host.lock = false := by decide

theorem witness_CopyIsABoundedPrefix :
    (withThread (.writeCopy [0x41#8] 1 1) true).host.threads[0]? = some (.writeCopy [0x41#8] 1 1) ∧
    1 ≤ [0x41#8].length ∧ min 1 (withThread (.writeCopy [0x41#8] 1 1) true).cfg.maxWrite ≤ 1 := by decide

/-- The line-feed, the bytes next to it and the greatest byte; a thread that awaits; no byte left. -/
theorem witness_WritePathIssuesPutc :
    (withThread (.writing [0x09#8] 1) true).host.threads[0]? = some (.writing [0x09#8] 1) ∧ (0x09#8).toNat ≠ 10 ∧
    (withThread (.writing [0x0B#8] 1) true).host.threads[0]? = some (.writing [0x0B#8] 1) ∧ (0x0B#8).toNat ≠ 10 ∧
    (withThread (.writing [0xFF#8] 1) true).host.threads[0]? = some (.writing [0xFF#8] 1) ∧ (0xFF#8).toNat ≠ 10 ∧
    (0x0A#8).toNat = 10 ∧
    (withThread (.writing [0x0A#8] 1) true).host.threads[0]? = some (.writing [0x0A#8] 1) ∧
    (withThread (.writeAwait [] 1) true).host.threads[0]? = some (.writeAwait [] 1) ∧
    (withThread (.writing [] 1) true).host.threads[0]? = some (.writing [] 1) :=
  ⟨rfl, by decide, rfl, by decide, rfl, by decide, rfl, rfl, rfl, rfl⟩

theorem witness_SetRowAndSetCol :
    (withThread (.rowStore 0) false).host.threads[0]? = some (.rowStore 0) ∧
    (withThread (.rowRead 0) false).host.threads[0]? = some (.rowRead 0) ∧
    (withThread (.rowIssue 0 (-1)) false).host.threads[0]? = some (.rowIssue 0 (-1)) ∧
    (withThread (.colStore 0) false).host.threads[0]? = some (.colStore 0) ∧
    (withThread (.colRead 0) false).host.threads[0]? = some (.colRead 0) ∧
    (withThread (.colIssue (-1) 0) false).host.threads[0]? = some (.colIssue (-1) 0) ∧
    (withThread .gotoAwait false).host.threads[0]? = some .gotoAwait := ⟨rfl, rfl, rfl, rfl, rfl, rfl, rfl⟩

theorem witness_HostConversionsKeepTheAddress : (0 : Int) ≤ 0 ∧ (0 : Int) ≤ 300 := by decide

theorem witness_SetClearIsOneShot :
    (withThread (.clearStore 5) false).host.threads[0]? = some (.clearStore 5) ∧
    (withThread (.clearStore 0) false).host.threads[0]? = some (.clearStore 0) ∧
    (withThread .clearIssue false).host.threads[0]? = some .clearIssue ∧
    (withThread .clearAwait false).host.threads[0]? = some .clearAwait ∧
    (withThread .clearZero false).host.threads[0]? = some .clearZero := ⟨rfl, rfl, rfl, rfl, rfl⟩

theorem witness_ParameterPathIgnoresTheLock :
    (withThread (.rowStore 1) true).host.threads[0]? = some (.rowStore 1) ∧
    (∀ buf len copied, Thread.rowStore 1 ≠ .writeLock buf len copied) ∧ (Thread.rowStore 1).holdsLock = false :=
  ⟨rfl, by simp, rfl⟩

theorem witness_HostStepsLeaveTheBlockAlone :
    (atWrite [.host 0]).busy = true ∧ (atWrite [.host 0]).env = .host 0 :: [] ∧
    (nextOf (step (atWrite [.host 0]))).isSome = true ∧ (nextOf (step (atWrite [.call (.setRow (.int 1))]))).isSome = true ∧
    (atWrite [.host 0]).seq ≠ .idle ∧ (ready [.request 0x500000#24]).busy = false ∧
    (atWrite [.stall 1]).env = .stall 1 :: [] ∧ (ready [.clock]).env = .clock :: [] ∧ (ready []).env = [] ∧
    (ready [.request 0x500000#24]).offers = [] ∧ (nextOf (step (ready [.request 0x500000#24]))).isSome = true := by decide

theorem witness_StaleCoordinateRace :
    let s : State := { atWrite [.host 0, .host 0, .host 1, .host 1, .host 1, .host 0] with
      host := { lock := false, row := 0, col := 0, clear := 0, threads := [.rowStore 1, .colStore 5] } }
    s.busy = true ∧ s.seq ≠ .idle ∧ s.offers = [] ∧
      s.env = [.host 0, .host 0, .host 1, .host 1, .host 1, .host 0] := by decide

end Sys2Proof.Tests
end

section
/-! PROOFS. What a step writes to the bus: it only adds strobe bytes to the trace, and a strobe byte has read/write 0
and backlight 1 (10_state.md R43-R45, 40_nibble_byte.md R80). -/

namespace Sys2Proof.Machine

/-! ### The control bits of a strobe byte -/

/-- A mask has its own bit and no other (R43). -/
theorem getLsbD_bitMask (b j : Fin 4) : (bitMask b).getLsbD j.val = decide (j = b) := by
  revert b j; decide

/-- The low four bits of the base byte are backlight and, for Data, register-select (R80): the nibble stands above. -/
theorem getLsbD_controlBase (c : Config) (n : Nibble) (rs : RegSel) (j : Fin 4) :
    (controlBase c n rs).getLsbD j.val = (decide (j = c.blBit) || decide (rs = .data) && decide (j = c.rsBit)) := by
  have hj : j.val < 4 := j.isLt
  cases rs <;> simp [controlBase, rsMask, getLsbD_bitMask, hj]

/-- Both strobes have every low bit but enable from the base byte (R80). -/
theorem getLsbD_strobe {c : Config} {v : Byte} {n : Nibble} {rs : RegSel} {j : Fin 4} (hj : j ≠ c.enBit)
    (hv : v = strobeHigh c n rs ∨ v = strobeLow c n rs) : v.getLsbD j.val = (controlBase c n rs).getLsbD j.val := by
  have hlt : j.val < 8 := by omega
  have hen : (bitMask c.enBit).getLsbD j.val = false := by simp [getLsbD_bitMask, hj]
  rcases hv with rfl | rfl
  · rw [strobeHigh, BitVec.getLsbD_or, hen, Bool.or_false]
  · simp only [strobeLow, BitVec.getLsbD_and, BitVec.getLsbD_not, hen, hlt, decide_true, Bool.not_false, Bool.and_true]

/-- R44, R45: a strobe byte has read/write 0 and backlight 1 when the control bits are distinct. -/
theorem strobe_readWrite_backlight {c : Config} {v : Byte} {n : Nibble} {rs : RegSel} (hc : c.Wf)
    (hv : v = strobeHigh c n rs ∨ v = strobeLow c n rs) :
    v.getLsbD c.rwBit.val = false ∧ v.getLsbD c.blBit.val = true := by
  obtain ⟨⟨hrsrw, -, -, hrwen, hrwbl, henbl⟩, -⟩ := hc
  constructor
  · rw [getLsbD_strobe hrwen hv, getLsbD_controlBase]
    simp [hrwbl, hrsrw.symm]
  · rw [getLsbD_strobe henbl.symm hv, getLsbD_controlBase]
    simp

/-! ### What a step adds to the trace -/

/-- `t` has the configuration of `s` and its trace, with events added whose writes are all strobe bytes. -/
def EmitsStrobes (s t : State) : Prop :=
  t.cfg = s.cfg ∧ ∃ evs, t.trace = s.trace ++ evs ∧
    ∀ v ∈ writesOf evs, ∃ n rs, v = strobeHigh s.cfg n rs ∨ v = strobeLow s.cfg n rs

theorem EmitsStrobes.of_trace_eq {s t : State} (hc : t.cfg = s.cfg) (ht : t.trace = s.trace) : EmitsStrobes s t :=
  ⟨hc, [], by simp [ht], by simp [writesOf]⟩

theorem EmitsStrobes.trans {s u t : State} (h : EmitsStrobes s u) (h' : EmitsStrobes u t) : EmitsStrobes s t := by
  obtain ⟨hc, evs, ht, hw⟩ := h
  obtain ⟨hc', evs', ht', hw'⟩ := h'
  refine ⟨hc'.trans hc, evs ++ evs', by rw [ht', ht, List.append_assoc], fun v hv => ?_⟩
  rw [writesOf_append, List.mem_append] at hv
  rcases hv with hv | hv
  · exact hw v hv
  · exact hc ▸ hw' v hv

theorem emitsStrobes_emitWait (us : Nat) (s : State) : EmitsStrobes s (s.emitWait us) :=
  ⟨rfl, [.wait us], rfl, by simp [writesOf]⟩

theorem emitsStrobes_accept (o : Offer) (rest : List Offer) (s : State) : EmitsStrobes s (accept o rest s) :=
  .of_trace_eq (accept_cfg ..) (accept_trace ..)

/-- A run of a part of an event list writes the list's strobes only. -/
theorem RunResult.emitsStrobes {i : Instr} {slots : List Slot} {k : Nat} {s t : State}
    (h : RunResult i slots k s t) (hsub : slots ⊆ eventList s.cfg i) : EmitsStrobes s t := by
  obtain ⟨evs, used, env, ini, d, -, hw, -, ht⟩ := h
  have hstrobe : ∀ v ∈ writesOf evs, ∃ n rs, v = strobeHigh s.cfg n rs ∨ v = strobeLow s.cfg n rs := by
    intro v hv
    obtain ⟨sl, hsl, n, hn⟩ := hw v hv
    exact eventList_writes s.cfg i sl (hsub hsl) v n hn
  rcases ht with ⟨rfl, -⟩ | ⟨j, sl, -, rfl, -⟩
  · exact ⟨by simp, evs, by simp, hstrobe⟩
  · exact ⟨rfl, evs, rfl, hstrobe⟩

theorem emitsStrobes_resume (i : Instr) (k : Nat) (s : State) : EmitsStrobes s (resume i k s) :=
  (resume_result i k s).emitsStrobes (List.drop_subset ..)

theorem emitsStrobes_endWait (i : Instr) (k us : Nat) (s : State) : EmitsStrobes s (endWait i k us s) :=
  (emitsStrobes_emitWait us s).trans ((endWait_result i k us s).emitsStrobes (List.drop_subset ..))

theorem emitsStrobes_begin (i : Instr) (s : State) : EmitsStrobes s (begin i s) :=
  have hstarted : EmitsStrobes s (started i s) := .of_trace_eq rfl rfl
  hstarted.trans ((begin_result i s).emitsStrobes (List.Subset.refl _))

theorem exec_emitsStrobes {i : Instr} {s t : State} (h : exec i s = .next t) : EmitsStrobes s t := by
  rcases exec_cases i s with ⟨-, he⟩ | ⟨-, -, he | he⟩ <;> rw [he] at h <;> cases h
  · exact emitsStrobes_begin i s
  · exact .of_trace_eq rfl rfl
  · exact .of_trace_eq rfl rfl

theorem stepBusy_emitsStrobes {i : Instr} {k : Nat} {s t : State} (h : stepBusy i k s = .next t) :
    EmitsStrobes s t := by
  rcases stepBusy_cases h with ⟨-, rfl⟩ | ⟨us, -, rfl⟩ | ⟨us, env, -, -, -, rfl⟩ | ⟨us, env, -, -, -, rfl⟩ |
    ⟨landed, env, -, rfl⟩ | ⟨m, env, -, rfl | ⟨w, -, rfl⟩ | ⟨c, -, rfl⟩ | ⟨n, -, rfl⟩⟩
  · exact emitsStrobes_resume i k s
  · exact emitsStrobes_endWait i k us s
  · exact emitsStrobes_endWait i k us { s with env := env }
  all_goals exact .of_trace_eq (by simp) (by simp)

theorem stepIdle_emitsStrobes (s : State) : EmitsStrobes s (stepIdle s) := by
  rcases stepIdle_cases s with h | ⟨landed, env, -, h⟩ |
    ⟨m, env, -, h | ⟨w, -, h⟩ | ⟨c, -, h⟩ | ⟨n, -, h⟩⟩ <;> rw [h]
  all_goals exact .of_trace_eq (by simp) (by simp)

/-- Every step keeps the configuration and the trace so far, and writes strobe bytes only (R43, R52, R80). -/
theorem step_emitsStrobes {s t : State} (h : step s = .next t) : EmitsStrobes s t := by
  rcases step_cases h with ⟨i, k, -, -, hbusy⟩ | ⟨-, -, rfl⟩ | ⟨o, rest, i, -, -, -, hexec⟩ | ⟨o, rest, -, -, -, rfl⟩
  · exact stepBusy_emitsStrobes hbusy
  · exact stepIdle_emitsStrobes s
  · exact (emitsStrobes_accept o rest s).trans (exec_emitsStrobes hexec)
  · exact (emitsStrobes_accept o rest s).trans (.of_trace_eq rfl rfl)

/-! ### The statement -/

/-- Strobe bytes added to a trace keep read/write 0 and backlight 1 in all of it (R44, R45). -/
theorem EmitsStrobes.writesOk {s t : State} (h : EmitsStrobes s t) (hc : s.cfg.Wf) (hs : s.WritesOk) : t.WritesOk := by
  obtain ⟨hcfg, evs, htrace, hw⟩ := h
  intro v hv
  rw [htrace, writesOf_append, List.mem_append] at hv
  rw [hcfg]
  rcases hv with hv | hv
  · exact hs v hv
  · obtain ⟨n, rs, hstrobe⟩ := hw v hv
    exact strobe_readWrite_backlight hc hstrobe

/-- Settles O42: every byte a step adds to the trace is a strobe byte. -/
theorem controlBytesKept : Obligations.ControlBytesKept := by
  intro s t hc hs h
  have hemits := step_emitsStrobes h
  exact ⟨hemits.1 ▸ hc, hemits.writesOk hc hs⟩

end Sys2Proof.Machine
end

section
/-! PROOFS. Which request words are illegal (30_encoding.md R64), and that an idle block refuses each of them as a
whole (60_exceptions.md R161): the words R64 does not list are those of R62's five rows, and every other word is
rejected, by the decoder or by a reserved row. -/

namespace Sys2Proof.Machine

/-! ### The words of R62 and the words R64 lists -/

/-- R64's list of illegal request words. -/
def IllegalWord (w : ReqWord) : Prop :=
  opField w = 0#4 ∨ 6 ≤ (opField w).toNat ∨
    (opField w = 1#4 ∧ (rsvField w ≠ 0#3 ∨ aField w ≠ 0#8 ∨ highNibble (bField w) ≠ 0#4)) ∨
    (opField w = 2#4 ∧ (rsvField w ≠ 0#3 ∨ aField w ≠ 0#8)) ∨
    (opField w = 4#4 ∧ (rsvField w ≠ 0#3 ∨ rsField w ≠ .command)) ∨
    ((opField w = 3#4 ∨ opField w = 5#4) ∧ restField w ≠ 0#20)

/-- The word spells one of the five operations of R62. -/
def SpellsOperation (w : ReqWord) : Prop :=
  fits w 0xFEFFF0#24 0x100000#24 ∨ fits w 0xFEFF00#24 0x200000#24 ∨ fits w 0xFFFFFF#24 0x300000#24 ∨
    fits w 0xFF0000#24 0x400000#24 ∨ fits w 0xFFFFFF#24 0x500000#24

/-- The operation codes of R60: the reserved ones from 6 on, and the six below. -/
theorem op_cases (op : BitVec 4) :
    6 ≤ op.toNat ∨ op = 0#4 ∨ op = 1#4 ∨ op = 2#4 ∨ op = 3#4 ∨ op = 4#4 ∨ op = 5#4 := by
  revert op; decide

/-- R62 and R64 divide the words between them: a word is illegal or spells an operation, and never both. -/
theorem not_illegalWord_iff (w : ReqWord) : ¬ IllegalWord w ↔ SpellsOperation w := by
  simp only [IllegalWord, SpellsOperation, fits_nib, fits_byte, fits_init, fits_goto, fits_clear]
  rcases op_cases (opField w) with hhigh | h | h | h | h | h | h
  · have hlow : ∀ op : BitVec 4, op.toNat < 6 → opField w ≠ op := by
      rintro op hop rfl
      omega
    simp [hhigh, hlow]
  all_goals simp [h]

/-! ### What the decoder makes of them -/

/-- R62, R63: a word that spells an operation decodes to it, with the operands of its fields. -/
theorem decode_of_spellsOperation {w : ReqWord} (h : SpellsOperation w) :
    (opField w = 1#4 ∧ decode .req24 w = .instr (.nib (rsField w) (nibbleField w))) ∨
    (opField w = 2#4 ∧ decode .req24 w = .instr (.byte (rsField w) (bField w))) ∨
    (opField w = 3#4 ∧ decode .req24 w = .instr .init) ∨
    (opField w = 4#4 ∧ decode .req24 w = .instr (.goto (aField w) (bField w))) ∨
    (opField w = 5#4 ∧ decode .req24 w = .instr .clear) := by
  simp only [SpellsOperation, fits_nib, fits_byte, fits_init, fits_goto, fits_clear] at h
  simp only [decode, decodeRequest, fits_nib, fits_byte, fits_init, fits_goto, fits_clear]
  rcases h with h | h | h | h | h <;> simp [h]

/-- R64: an illegal word decodes to an error or to a reserved row, whose meaning is the rejection. -/
theorem decode_of_illegalWord {w : ReqWord} (h : IllegalWord w) :
    decode .req24 w = .error .reservedFieldNonzero ∨
    ∃ i, decode .req24 w = .instr i ∧ ∀ s, exec i s = .next (s.reject .illegal) := by
  have hno : ¬ SpellsOperation w := fun hs => (not_illegalWord_iff w).mpr hs h
  simp only [SpellsOperation, not_or] at hno
  obtain ⟨hnib, hbyte, hinit, hgoto, hclear⟩ := hno
  simp only [decode, decodeRequest]
  rw [if_neg hnib, if_neg hbyte, if_neg hinit, if_neg hgoto, if_neg hclear]
  split_ifs
  · exact .inr ⟨_, rfl, fun _ => rfl⟩
  · exact .inr ⟨_, rfl, fun _ => rfl⟩
  · exact .inr ⟨_, rfl, fun _ => rfl⟩
  · exact .inl rfl

/-! ### The step of an idle block with something at its port -/

section
variable {s : State} {o : Offer} {rest : List Offer} (hbusy : s.busy = false) (hoffers : s.offers = o :: rest)
include hbusy hoffers

/-- R21: the block accepts the first offer and runs what its word decodes to. -/
theorem step_of_decode_instr {i : Instr} (hd : decode o.format o.word = .instr i) :
    step s = exec i (accept o rest s) := by
  simp [step, hbusy, hoffers, hd]

/-- R63: the block accepts the first offer and refuses a word that decodes to nothing. -/
theorem step_of_decode_error {e : DecodeError} (hd : decode o.format o.word = .error e) :
    step s = refuseWord e (accept o rest s) := by
  simp [step, hbusy, hoffers, hd]

end

/-- R161: an idle block accepts an illegal word and rejects it with ILLEGAL, in every state. -/
theorem step_of_illegalWord {s : State} {own : Option Nat} {w : ReqWord} {rest : List Offer} (hw : IllegalWord w)
    (hbusy : s.busy = false) (hoffers : s.offers = ⟨own, .req24, w⟩ :: rest) :
    step s = .next ((accept ⟨own, .req24, w⟩ rest s).reject .illegal) := by
  rcases decode_of_illegalWord hw with hd | ⟨i, hd, hexec⟩
  · exact step_of_decode_error hbusy hoffers hd
  · rw [step_of_decode_instr hbusy hoffers hd, hexec]

/-! ### The statement -/

/-- Settles O3: R64's list is the complement of R62's rows, and each of its words is rejected. -/
theorem illegalWordsExactly : Obligations.IllegalWordsExactly := by
  intro w
  constructor
  · intro hw s own rest hbusy hoffers
    exact ⟨s.display.link.otherRequest, step_of_illegalWord hw hbusy hoffers⟩
  · intro hw
    exact decode_of_spellsOperation ((not_illegalWord_iff w).mp hw)

end Sys2Proof.Machine
end

section
/-! PROOFS. The two writes of a nibble (40_nibble_byte.md R80, R82): both carry the nibble in bits 7:4, and they differ
in the enable bit alone, which the base byte has clear. -/

namespace Sys2Proof.Machine

/-! ### The bits of a mask, at any position -/

/-- A mask has its own bit and no other, bits 7:4 among them (R43). -/
theorem getLsbD_bitMask_nat (b : Fin 4) (j : Nat) : (bitMask b).getLsbD j = decide (b.val = j) := by
  have hb : b.val < 8 := by omega
  rw [bitMask, ← BitVec.twoPow_eq, BitVec.getLsbD_twoPow]
  simp [hb]

/-- A byte without a mask's bit is unchanged by clearing it. -/
theorem and_not_bitMask {v : Byte} {b : Fin 4} (h : v.getLsbD b.val = false) : v &&& ~~~ bitMask b = v := by
  apply BitVec.eq_of_getLsbD_eq
  intro j hj
  rw [BitVec.getLsbD_and, BitVec.getLsbD_not, getLsbD_bitMask_nat]
  by_cases hbj : b.val = j
  · simp [← hbj, h]
  · simp [hbj, hj]

/-! ### The base byte and its strobes -/

/-- The base byte has enable clear when the control bits are distinct (R80). -/
theorem getLsbD_controlBase_enable {c : Config} (hc : c.Wf) (n : Nibble) (rs : RegSel) :
    (controlBase c n rs).getLsbD c.enBit.val = false := by
  obtain ⟨⟨-, hrsen, -, -, -, henbl⟩, -⟩ := hc
  rw [getLsbD_controlBase]
  simp [henbl, hrsen.symm]

/-- Clearing enable changes nothing of the base byte (R82). -/
theorem strobeLow_eq_controlBase {c : Config} (hc : c.Wf) (n : Nibble) (rs : RegSel) :
    strobeLow c n rs = controlBase c n rs :=
  and_not_bitMask (getLsbD_controlBase_enable hc n rs)

/-- The first write is the base byte, with enable set (R80). -/
theorem getLsbD_strobeHigh (c : Config) (n : Nibble) (rs : RegSel) (j : Nat) :
    (strobeHigh c n rs).getLsbD j = ((controlBase c n rs).getLsbD j || decide (c.enBit.val = j)) := by
  rw [strobeHigh, BitVec.getLsbD_or, getLsbD_bitMask_nat]

/-! ### The nibble in bits 7:4 -/

theorem highNibble_or (v w : Byte) : highNibble (v ||| w) = highNibble v ||| highNibble w :=
  BitVec.extractLsb'_or

/-- The control bits all lie in bits 3:0 (R9, R43). -/
theorem highNibble_bitMask (b : Fin 4) : highNibble (bitMask b) = 0#4 := by
  revert b; decide

theorem highNibble_shifted (n : Nibble) : highNibble (n.zeroExtend 8 <<< 4) = n := by
  revert n; decide

/-- The base byte carries the nibble in bits 7:4 (R80). -/
theorem highNibble_controlBase (c : Config) (n : Nibble) (rs : RegSel) : highNibble (controlBase c n rs) = n := by
  have hrs : highNibble (rsMask c rs) = 0#4 := by
    cases rs with
    | command => exact BitVec.extractLsb'_zero
    | data => exact highNibble_bitMask c.rsBit
  simp [controlBase, highNibble_or, highNibble_shifted, highNibble_bitMask, hrs]

/-- The first write carries the nibble in bits 7:4 (R80). -/
theorem highNibble_strobeHigh (c : Config) (n : Nibble) (rs : RegSel) : highNibble (strobeHigh c n rs) = n := by
  simp [strobeHigh, highNibble_or, highNibble_controlBase, highNibble_bitMask]

/-! ### The statement -/

/-- Settles O14: the second write is the base byte, and the first one adds the enable bit, which lies below the
nibble. -/
theorem strobesDifferInEnable : Obligations.StrobesDifferInEnable := by
  intro c n rs hc
  have hen := getLsbD_controlBase_enable hc n rs
  rw [strobeLow_eq_controlBase hc]
  refine ⟨rfl, rfl, ?_, hen, ?_, highNibble_strobeHigh c n rs, highNibble_controlBase c n rs⟩
  · simp [getLsbD_strobeHigh]
  · intro j _ hj
    simp [getLsbD_strobeHigh, hj.symm]

end Sys2Proof.Machine
end

section
/-! PROOFS. A request that ran to its end (40_nibble_byte.md R85): whatever the answers were, it ended in the response
`OK`, and only what the outside observed tells two runs apart. -/

namespace Sys2Proof.Machine

/-- A code that stands after a part of the operation's list is the one before it, or the operation is INIT (R20, R24). -/
theorem init_or_initState_kept {i : Instr} {s : State} {ini : InitState}
    (h : ini = s.initState ∨ ∃ sl ∈ eventList s.cfg i, sl.enters = some ini) : i = .init ∨ ini = s.initState := by
  rcases h with h | ⟨sl, hsl, henters⟩
  · exact .inr h
  · by_contra! hne
    rw [eventList_enters_none s.cfg i hne.1 sl hsl] at henters
    cases henters

/-- An admitted operation that left the block idle has exhausted its list, under any script (R23, R160). -/
theorem exec_ended {i : Instr} {s t : State} (hadm : Admitted i s) (h : exec i s = .next t) (hidle : t.busy = false) :
    ∃ evs env, t = endState i evs env s := by
  rw [exec_admitted i s hadm] at h
  cases h
  obtain ⟨evs, -, env, ini, d, -, -, hini, hres⟩ := begin_result i s
  rcases hres with ⟨ht, hd⟩ | ⟨j, sl, -, ht, -⟩
  · have hd0 : d = 0 := hd.elim id id
    refine ⟨evs, env, ?_⟩
    rw [ht, hd0]
    exact finish_observed i s evs env ini (init_or_initState_kept hini) (.inr hadm)
  · rw [ht] at hidle
    cases hidle

/-- An admitted request that left the block idle has responded OK (R85). -/
theorem exec_request_ended {i : Instr} {s t : State} (hreq : i.isTransfer = false) (hadm : Admitted i s)
    (h : exec i s = .next t) (hidle : t.busy = false) : ∃ evs env, t = respondedOk i evs env s := by
  simpa [endState, hreq] using exec_ended hadm h hidle

/-- Settles O32: both runs end in `respondedOk`, whose registers do not depend on the events or on the script left. -/
theorem failuresLeaveNoRecord : Obligations.FailuresLeaveNoRecord := by
  intro i s as bs t u hreq hadm ht hu htidle huidle
  obtain ⟨evs, env, rfl⟩ := exec_request_ended hreq (s := { s with env := as.map .answer }) hadm ht htidle
  obtain ⟨evs', env', rfl⟩ := exec_request_ended hreq (s := { s with env := bs.map .answer }) hadm hu huidle
  exact ⟨rfl, rfl, rfl, rfl, rfl, rfl, rfl, rfl, rfl, rfl⟩

end Sys2Proof.Machine
end

section
/-! PROOFS. A part of an event list against the pseudocode of that part: they select the same events from any answers,
whatever follows in the list (10_state.md R23, 40_nibble_byte.md R80-R84). -/

namespace Sys2Proof.Machine

/-- The part `slots` of an event list performs `f`: from any answers it selects the events of `f`, and the rest of the
list goes on with the answers that `f` leaves. -/
def Performs (slots : List Slot) (f : Procedure) : Prop :=
  ∀ (rest : List Slot) (as : List Answer),
    play (slots ++ rest) 0 as = (f as).bind fun r => prepend r.1 (play rest 0 r.2)

theorem performs_wait (us : Nat) : Performs [plain (.wait us)] (procWait us) := fun _ _ => rfl

theorem performs_nibbleSlots (c : Config) (n : Nibble) (rs : RegSel) :
    Performs (nibbleSlots c n rs 0) (procNibble c n rs) := by
  intro rest as
  rw [play_nibbleSlots, procNibble]
  rcases procSendNibble c n rs as with _ | ⟨evs, o, left⟩
  · rfl
  · cases o <;> rfl

theorem performs_byteSlots (c : Config) (v : Byte) (rs : RegSel) :
    Performs (byteSlots c v rs) (procSendByte c v rs) := by
  intro rest as
  rw [play_byteSlots]
  cases procSendByte c v rs as <;> rfl

/-- Two parts in a row perform one procedure after the other. -/
theorem Performs.append {a b : List Slot} {f g : Procedure} (ha : Performs a f) (hb : Performs b g) :
    Performs (a ++ b) (procThen f g) := by
  intro rest as
  rw [List.append_assoc, ha, procThen]
  rcases f as with _ | ⟨evs, left⟩
  · rfl
  · simp only [Option.bind_some, hb rest left]
    cases g left with
    | none => rfl
    | some r => exact prepend_prepend ..

/-- Writing a step's code first selects the same events (R112). -/
theorem Performs.entering {slots : List Slot} {f : Procedure} (h : Performs slots f) (c : InitState) :
    Performs (entering c slots) f := fun rest as => (play_entering c slots rest 0 as).trans (h rest as)

/-- A whole event list that performs `f` selects what `f` emits. -/
theorem Performs.play_eq {slots : List Slot} {f : Procedure} (h : Performs slots f) (as : List Answer) :
    play slots 0 as = f as := by
  have hnil := h [] as
  rw [List.append_nil] at hnil
  rw [hnil]
  cases f as <;> simp [play]

end Sys2Proof.Machine
end

section
/-! PROOFS. The sequence of INIT (41_init.md R110, R111, R114): what it emits without failure, and what it emits
whatever the bus answers. -/

namespace Sys2Proof.Machine

/-! ### INIT's event list performs R114 -/

theorem performs_clearSlots (c : Config) : Performs (clearSlots c) (procClear c) :=
  (performs_byteSlots c _ _).append (performs_wait _)

/-- The event list of INIT, step by step, performs the pseudocode of R114. -/
theorem performs_initSlots (c : Config) : Performs (initSlots c) (procInit c) := by
  have force8 := performs_nibbleSlots c 0x3#4 .command
  have switch4 := performs_nibbleSlots c 0x2#4 .command
  have send := fun v => performs_byteSlots c v .command
  simp only [initSlots, List.append_assoc]
  exact ((performs_wait _).entering _).append <|
    (force8.entering _).append <| (performs_wait _).append <|
    (force8.entering _).append <| (performs_wait _).append <|
    (force8.entering _).append <| (performs_wait _).append <|
    (switch4.entering _).append <| (performs_wait _).append <|
    ((send _).entering _).append <| ((send _).entering _).append <| ((send _).entering _).append <|
    (performs_clearSlots c).entering _

/-- INIT admitted, with answers under which R114 ends: it emits the events of R114 and responds OK. -/
theorem exec_init_of_procInit {s : State} {as left : List Answer} {rest : List Move} {evs : List Event}
    (hs : s.initState = .uninit) (henv : s.env = as.map .answer ++ rest) (hrest : NoStall rest)
    (h : procInit s.cfg as = some (evs, left)) :
    exec .init s = .next (respondedOk .init evs (left.map .answer ++ rest) s) :=
  exec_play .init s as left rest evs hs henv hrest (((performs_initSlots s.cfg).play_eq as).trans h)

/-! ### Without failure -/

/-- With its `n` writes answered `ok`, `f` emits `evs` and leaves the answers after them. -/
def SucceedsWith (n : Nat) (evs : List Event) (f : Procedure) : Prop :=
  ∀ as : List Answer, f (List.replicate n .ok ++ as) = some (evs, as)

theorem succeedsWith_wait (us : Nat) : SucceedsWith 0 [.wait us] (procWait us) := fun _ => rfl

theorem succeedsWith_nibble (c : Config) (n : Nibble) (rs : RegSel) :
    SucceedsWith 2 (nibbleEvents c n rs) (procNibble c n rs) := fun _ => rfl

theorem succeedsWith_byte (c : Config) (v : Byte) (rs : RegSel) :
    SucceedsWith 4 (byteEvents c v rs) (procSendByte c v rs) := fun _ => rfl

theorem SucceedsWith.andThen {m n : Nat} {a b : List Event} {f g : Procedure} (hf : SucceedsWith m a f)
    (hg : SucceedsWith n b g) : SucceedsWith (m + n) (a ++ b) (procThen f g) := by
  intro as
  simp only [procThen, List.replicate_add, List.append_assoc, hf _, hg _]

theorem succeedsWith_procInit (c : Config) : SucceedsWith 24 (initEvents c) (procInit c) := by
  have force8 := succeedsWith_nibble c 0x3#4 .command
  have switch4 := succeedsWith_nibble c 0x2#4 .command
  have send := fun v => succeedsWith_byte c v .command
  have clear := (send 0x01#8).andThen (succeedsWith_wait c.tClear)
  simp only [initEvents, List.append_assoc]
  exact (succeedsWith_wait _).andThen <|
    force8.andThen <| (succeedsWith_wait _).andThen <|
    force8.andThen <| (succeedsWith_wait _).andThen <|
    force8.andThen <| (succeedsWith_wait _).andThen <|
    switch4.andThen <| (succeedsWith_wait _).andThen <|
    (send _).andThen <| (send _).andThen <| (send _).andThen clear

/-- The 58 events of INIT's sequence: its six own waits, four nibbles and four bytes (R110). -/
theorem length_initEvents (c : Config) : (initEvents c).length = 58 := by
  simp [initEvents, byteEvents, nibbleEvents]

/-- 24 of the events are writes, two for each nibble (R110). -/
theorem length_writesOf_initEvents (c : Config) : (writesOf (initEvents c)).length = 24 := by
  simp [initEvents, byteEvents, nibbleEvents, writesOf]

@[simp] theorem totalWait_nibbleEvents (c : Config) (n : Nibble) (rs : RegSel) :
    totalWait (nibbleEvents c n rs) = c.tEn + c.tHold := rfl

@[simp] theorem totalWait_byteEvents (c : Config) (v : Byte) (rs : RegSel) :
    totalWait (byteEvents c v rs) = 2 * c.tEn + 2 * c.tHold + c.tSettle := by
  simp only [byteEvents, totalWait_append, totalWait_nibbleEvents, totalWait]
  omega

/-- The waits of INIT's sequence, nibble by nibble and byte by byte (R110). -/
theorem totalWait_initEvents (c : Config) :
    totalWait (initEvents c) =
      12 * c.tEn + 12 * c.tHold + 4 * c.tSettle + c.tPowerOn + c.tForce1 + c.tForce2 + c.tForce3 + c.tSwitch4 +
        c.tClear := by
  simp only [initEvents, totalWait_append, totalWait_nibbleEvents, totalWait_byteEvents, totalWait]
  omega

/-- Settles O19: the event list performs R114, which emits `initEvents` when every write is answered `ok`. -/
theorem initRunsTheSequence : Obligations.InitRunsTheSequence := by
  intro s env hs henv hstall
  have hok : procInit s.cfg (List.replicate 24 .ok) = some (initEvents s.cfg, []) :=
    succeedsWith_procInit s.cfg []
  have henv' : s.env = (List.replicate 24 Answer.ok).map .answer ++ env := by rw [henv, List.map_replicate]
  refine ⟨exec_init_of_procInit hs henv' hstall hok, length_initEvents s.cfg, length_writesOf_initEvents s.cfg,
    totalWait_initEvents s.cfg, ?_, ?_⟩
  · rw [totalWait_initEvents]
    rfl
  · decide

/-! ### Whatever the bus answers -/

/-- Any `n` answers suffice for `f` to end, and its events contain `own`, in order, under all of them. -/
def EndsWithin (n : Nat) (own : List Event) (f : Procedure) : Prop :=
  ∀ as : List Answer, n ≤ as.length →
    ∃ evs left, f as = some (evs, left) ∧ as.length ≤ left.length + n ∧ own.Sublist evs

theorem endsWithin_wait (us : Nat) : EndsWithin 0 [.wait us] (procWait us) :=
  fun as _ => ⟨_, as, rfl, le_rfl, List.Sublist.refl _⟩

/-- SendNibble ends within two answers, failed or not (R80, R81). -/
theorem procSendNibble_ends (c : Config) (n : Nibble) (rs : RegSel) (as : List Answer) (h : 2 ≤ as.length) :
    ∃ evs o left, procSendNibble c n rs as = some (evs, o, left) ∧ as.length ≤ left.length + 2 := by
  match as with
  | .fail _ :: as => exact ⟨_, _, _, rfl, by simp⟩
  | .ok :: .fail _ :: as => exact ⟨_, _, _, rfl, by simp⟩
  | .ok :: .ok :: as => exact ⟨_, _, _, rfl, by simp⟩

theorem endsWithin_nibble (c : Config) (n : Nibble) (rs : RegSel) : EndsWithin 2 [] (procNibble c n rs) := by
  intro as h
  obtain ⟨evs, o, left, heq, hleft⟩ := procSendNibble_ends c n rs as h
  exact ⟨evs, left, by rw [procNibble, heq], hleft, List.nil_sublist _⟩

/-- SendByte ends within four answers under either scope of a failure (R83, R84). -/
theorem endsWithin_byte (c : Config) (v : Byte) (rs : RegSel) : EndsWithin 4 [] (procSendByte c v rs) := by
  intro as h
  obtain ⟨evs, o, left, heq, hleft⟩ := procSendNibble_ends c (highNibble v) rs as (by omega)
  obtain ⟨evs', o', left', heq', hleft'⟩ := procSendNibble_ends c (lowNibble v) rs left (by omega)
  simp only [procSendByte, heq, heq']
  split_ifs <;> exact ⟨_, _, rfl, by omega, List.nil_sublist _⟩

theorem EndsWithin.andThen {m n : Nat} {a b : List Event} {f g : Procedure} (hf : EndsWithin m a f)
    (hg : EndsWithin n b g) : EndsWithin (m + n) (a ++ b) (procThen f g) := by
  intro as h
  obtain ⟨evs, left, heq, hleft, hsub⟩ := hf as (by omega)
  obtain ⟨evs', left', heq', hleft', hsub'⟩ := hg left (by omega)
  exact ⟨evs ++ evs', left', by simp only [procThen, heq, heq'], by omega, hsub.append hsub'⟩

/-- R114 ends within 24 answers, four nibbles and four bytes, and emits every own wait of a step (R111). -/
theorem endsWithin_procInit (c : Config) :
    EndsWithin 24 [.wait c.tPowerOn, .wait c.tForce1, .wait c.tForce2, .wait c.tForce3, .wait c.tSwitch4,
      .wait c.tClear] (procInit c) := by
  have force8 := endsWithin_nibble c 0x3#4 .command
  have switch4 := endsWithin_nibble c 0x2#4 .command
  have send := fun v => endsWithin_byte c v .command
  have clear := (send 0x01#8).andThen (endsWithin_wait c.tClear)
  exact (endsWithin_wait _).andThen <|
    force8.andThen <| (endsWithin_wait _).andThen <|
    force8.andThen <| (endsWithin_wait _).andThen <|
    force8.andThen <| (endsWithin_wait _).andThen <|
    switch4.andThen <| (endsWithin_wait _).andThen <|
    (send _).andThen <| (send _).andThen <| (send _).andThen clear

/-- Settles O20: no answer ends R114 early, so the run of its event list ends with every own wait emitted. -/
theorem initNeverStopsOnFailure : Obligations.InitNeverStopsOnFailure := by
  intro s as rest hs henv hlen hstall
  obtain ⟨evs, left, hproc, -, hwaits⟩ := endsWithin_procInit s.cfg as hlen
  exact ⟨evs, left, exec_init_of_procInit hs henv hstall hproc, hproc, hwaits⟩

end Sys2Proof.Machine
end

section
/-! PROOFS. GOTO (42_cursor_clear.md R120-R123): the address it sends, and that every row from 3 on runs as row 3. -/

namespace Sys2Proof.Machine

/-! ### The address and its instruction -/

/-- SET_DDRAM_ADDR sets bit 7, which no address has (R71). -/
theorem toNat_setAddrCommand (a : DdramAddr) : (setAddrCommand a).toNat = 0x80 + a.toNat := by
  revert a; decide

/-- R122: the exact sum, modulo 128. -/
theorem toNat_ddramAddr (row col : Byte) :
    (ddramAddr row col).toNat = ((rowOffset (clampRow row)).toNat + col.toNat) % 128 := by
  rw [ddramAddr, BitVec.toNat_ofNat]

/-- R121: a row from 3 on selects row 3. -/
theorem clampRow_of_three_le {row : Byte} (h : 3 ≤ row.toNat) : clampRow row = 3 :=
  Fin.ext (Nat.min_eq_right h)

/-- Settles O24: the event list of GOTO is that of its Command byte, whose value is R122's sum, row by row. -/
theorem gotoSendsTheAddress : Obligations.GotoSendsTheAddress := by
  intro row col s env hs henv hstall
  refine ⟨setAddrCommand (ddramAddr row col), ?_, ?_⟩
  · rw [toNat_setAddrCommand, toNat_ddramAddr]
    obtain hr | hr | hr | hr : min row.toNat 3 = 0 ∨ min row.toNat 3 = 1 ∨ min row.toNat 3 = 2 ∨ min row.toNat 3 = 3 := by
      omega
    all_goals
      have hoffset : clampRow row = ⟨min row.toNat 3, by omega⟩ := rfl
      simp only [hoffset, hr]
      rfl
  · have hplay := ((performs_byteSlots s.cfg (setAddrCommand (ddramAddr row col)) .command).play_eq _).trans
      (succeedsWith_byte s.cfg _ .command [])
    exact exec_play (.goto row col) s _ [] env _ hs (by rw [henv, List.append_nil, List.map_replicate]) hstall hplay

/-! ### The same list run under another operation's name -/

/-- The state with operation `j` standing where an operation stands in the sequencer. -/
def State.runAs (j : Instr) (s : State) : State :=
  { s with
    seq := match s.seq with
      | .idle => .idle
      | .running _ k => .running j k }

/-- Two operations that end alike run one list alike, but for the operation the sequencer names (R23). -/
theorem runSlots_runAs {i j : Instr} (hfinish : ∀ s, finish j s = (finish i s).runAs j) (slots : List Slot)
    (k skip : Nat) (s : State) : runSlots j slots k skip s = (runSlots i slots k skip s).runAs j := by
  induction slots generalizing k skip s with
  | nil => exact hfinish s
  | cons sl rest ih =>
    cases skip with
    | succ n => exact ih (k + 1) n s
    | zero =>
      obtain ⟨c, act⟩ := sl
      cases act with
      | write v n =>
        simp only [runSlots]
        split
        · exact ih ..
        · rfl
      | wait us =>
        simp only [runSlots]
        split
        · rfl
        · exact ih ..

/-- The sequencer of a run that has stopped names the operation that was run (R23). -/
theorem begin_seq (i : Instr) (s : State) : (begin i s).seq = .idle ∨ ∃ k, (begin i s).seq = .running i k := by
  obtain ⟨evs, used, env, ini, d, -, -, -, hres⟩ := begin_result i s
  rcases hres with ⟨ht, -⟩ | ⟨j, sl, -, ht, -⟩
  · exact .inl (by rw [ht, finish_seq])
  · exact .inr ⟨0 + j, by rw [ht]⟩

/-- An operation with the same event list has the same byte on offer (R40). -/
theorem busOffer_runAs {i j : Instr} {s : State} (hlist : eventList s.cfg j = eventList s.cfg i)
    (hseq : s.seq = .idle ∨ ∃ k, s.seq = .running i k) : (s.runAs j).busOffer = s.busOffer := by
  rcases hseq with h | ⟨k, h⟩
  · simp only [State.busOffer, State.runAs, h]
  · simp only [State.busOffer, State.runAs, h, hlist]

/-! ### The rows from 3 on -/

/-- The event list of GOTO depends on the row through its clamp only (R121, R122). -/
theorem eventList_goto_of_clampRow {row row' : Byte} (h : clampRow row = clampRow row') (col : Byte) (c : Config) :
    eventList c (.goto row col) = eventList c (.goto row' col) := by
  simp only [eventList, ddramAddr, h]

/-- Rows with one clamp run alike, but for the row the sequencer names (R121). -/
theorem begin_goto_of_clampRow {row row' : Byte} (h : clampRow row = clampRow row') (col : Byte) (s : State) :
    begin (.goto row' col) s = (begin (.goto row col) s).runAs (.goto row' col) := by
  have hstart : started (.goto row' col) s =
      { started (.goto row col) s with seq := .running (.goto row' col) 0 } := rfl
  rw [begin, hstart, runSlots_ignores_seq, ← eventList_goto_of_clampRow h]
  exact runSlots_runAs (fun _ => rfl) ..

/-- Settles O25: both rows run the list of the clamped row 3, or both are rejected. -/
theorem rowsFromThreeAreRowThree : Obligations.RowsFromThreeAreRowThree := by
  refine ⟨fun _ => rfl, ?_⟩
  intro row col s t u hrow ht hu
  have hclamp : clampRow row = clampRow 3#8 := clampRow_of_three_le hrow
  by_cases hs : s.initState = .ready
  · have hbegin : ∀ r, exec (.goto r col) s = .next (begin (.goto r col) s) := fun _ => exec_admitted _ s hs
    rw [hbegin] at ht hu
    cases ht
    cases hu
    rw [begin_goto_of_clampRow hclamp]
    exact ⟨rfl, rfl, rfl, rfl, rfl,
      (busOffer_runAs (eventList_goto_of_clampRow hclamp col _).symm (begin_seq ..)).symm, rfl, rfl⟩
  · have hreject : ∀ r, exec (.goto r col) s = .next (s.reject .badState) := fun _ =>
      congrArg Host.Outcome.next (if_neg hs)
    rw [hreject] at ht hu
    cases ht
    cases hu
    exact ⟨rfl, rfl, rfl, rfl, rfl, rfl, rfl, rfl⟩

end Sys2Proof.Machine
end

section
/-! PROOFS. CLEAR twice (42_cursor_clear.md R126, R127): a run that ended has used exactly the answers that select its
events, so the same answers select them again. -/

namespace Sys2Proof.Machine

/-! ### What a run that ended has used -/

/-- A script watches its next wait, or it does not. -/
theorem noStall_or_stall (env : List Move) : NoStall env ∨ ∃ extra env', env = .stall extra :: env' := by
  unfold NoStall
  split
  · exact .inr ⟨_, _, rfl⟩
  all_goals exact .inl trivial

theorem noStall_answers_append (as : List Answer) {rest : List Move} (h : NoStall rest) :
    NoStall (as.map .answer ++ rest) := by
  cases as with
  | nil => exact h
  | cons a as => trivial

/-- The converse of `runSlots_play`: a run that left the block idle has used answers only, and they select its events
to the end of the list. -/
theorem play_of_runSlots_idle {i : Instr} {slots : List Slot} {k skip : Nat} {s : State} (hbusy : s.busy = true)
    (hidle : (runSlots i slots k skip s).busy = false) :
    ∃ as evs, s.env = as.map .answer ++ (runSlots i slots k skip s).env ∧ play slots skip as = some (evs, []) := by
  induction slots generalizing k skip s with
  | nil => exact ⟨[], [], by simp [runSlots], rfl⟩
  | cons sl slots ih =>
    cases skip with
    | succ n => exact ih hbusy hidle
    | zero =>
      obtain ⟨c, act⟩ := sl
      rw [runSlots_enter] at hidle ⊢
      cases act with
      | write v n =>
        by_cases hans : ∃ a env, s.env = .answer a :: env
        · obtain ⟨a, env, henv⟩ := hans
          rw [runSlots_write_answered i v n slots k _ a env (by simpa using henv)] at hidle ⊢
          obtain ⟨as, evs, has, hplay⟩ := ih (by simpa using hbusy) hidle
          refine ⟨a :: as, .write v a :: evs, ?_, by simp [play, hplay]⟩
          rw [henv, List.map_cons, List.cons_append, ← has, emitWrite_env]
        · rw [runSlots_write_waits i v n slots k _ (by simpa using hans)] at hidle
          simp [hbusy] at hidle
      | wait us =>
        rcases noStall_or_stall (s.enter c).env with hno | ⟨extra, env, henv⟩
        · rw [runSlots_wait_passes i us slots k _ hno] at hidle ⊢
          obtain ⟨as, evs, has, hplay⟩ := ih (by simpa using hbusy) hidle
          exact ⟨as, .wait us :: evs, by simpa using has, by simp [play, hplay]⟩
        · rw [runSlots_wait_watched i us slots k _ extra env henv] at hidle
          simp [hbusy] at hidle

/-- An admitted operation that left the block idle has used the answers that select its whole list (R23). -/
theorem play_of_exec_idle {i : Instr} {s t : State} (hadm : Admitted i s) (h : exec i s = .next t)
    (hidle : t.busy = false) :
    ∃ as evs, s.env = as.map .answer ++ t.env ∧ play (eventList s.cfg i) 0 as = some (evs, []) := by
  rw [exec_admitted i s hadm] at h
  cases h
  exact play_of_runSlots_idle (s := started i s) rfl hidle

/-! ### CLEAR -/

/-- CLEAR admitted, with exactly the answers that its list takes: it emits the events they select and responds OK. -/
theorem exec_clear_of_play {s : State} {as : List Answer} {rest : List Move} {evs : List Event}
    (hs : s.initState = .ready) (henv : s.env = as.map .answer ++ rest) (hrest : NoStall rest)
    (hplay : play (clearSlots s.cfg) 0 as = some (evs, [])) :
    exec .clear s = .next (respondedOk .clear evs rest s) :=
  exec_play .clear s as [] rest evs hs henv hrest hplay

/-- With its four writes answered `ok`, CLEAR's list selects the events of its byte and the clear wait (R126). -/
theorem play_clearSlots_ok (c : Config) :
    play (clearSlots c) 0 (List.replicate 4 .ok) = some (byteEvents c 0x01#8 .command ++ [.wait c.tClear], []) :=
  ((performs_clearSlots c).play_eq _).trans
    (((succeedsWith_byte c 0x01#8 .command).andThen (succeedsWith_wait c.tClear)) [])

/-- Settles O28: the first CLEAR used the answers `as`, so `as` selects the events of the first and of the second. -/
theorem clearTwice : Obligations.ClearTwice := by
  intro s t u as rest hs henv hrest ht htenv htidle hu
  obtain ⟨used, evs, hused, hplay⟩ := play_of_exec_idle (i := .clear) hs ht htidle
  have has : as = used := by
    rw [henv, htenv, List.append_cancel_right_eq] at hused
    exact List.map_injective_iff.mpr (fun _ _ => Move.answer.inj) hused
  subst has
  rw [exec_clear_of_play hs henv (noStall_answers_append as hrest) hplay] at ht
  cases ht
  rw [exec_clear_of_play (s := respondedOk .clear evs _ s) hs htenv hrest hplay] at hu
  cases hu
  refine ⟨evs, rfl, rfl, rfl, rfl, rfl, rfl, rfl, rfl, rfl, ?_⟩
  rintro rfl
  have hevs := hplay.symm.trans (play_clearSlots_ok s.cfg)
  simp only [Option.some.injEq, Prod.mk.injEq, and_true] at hevs
  exact ⟨hevs, by rw [hevs]; rfl⟩

end Sys2Proof.Machine
end

section
/-! PROOFS. The host agents' steps (45_host_frontends.md): the write session's start (R142), SET_ROW and SET_COL
(R148, R149), and what the parameter path does not read (R151). -/

namespace Sys2Proof.Machine

/-! ### A host step is its thread's step -/

theorem hostStep_of_thread {n : Nat} {s : State} {t : Thread} (ht : s.host.threads[n]? = some t) :
    hostStep n s =
      { s with
        host := { (threadStep s.cfg s.host t).1 with
          threads := s.host.threads.set n (threadStep s.cfg s.host t).2.1 }
        offers := s.offers ++ issued n (threadStep s.cfg s.host t).2.2 } := by
  simp only [hostStep, ht]

/-- A thread's step that issues no request changes the host's registers and the thread only. -/
theorem hostStep_of_issues_none {n : Nat} {s : State} {t t' : Thread} {h' : HostSide}
    (ht : s.host.threads[n]? = some t) (hstep : threadStep s.cfg s.host t = (h', t', none)) :
    hostStep n s = { s with host := { h' with threads := s.host.threads.set n t' } } := by
  rw [hostStep_of_thread ht, hstep, issued, List.append_nil]

theorem hostStep_of_waits {n : Nat} {s : State} {t : Thread} (ht : s.host.threads[n]? = some t)
    (hwait : threadStep s.cfg s.host t = (s.host, t, none)) : hostStep n s = s := by
  have hset : s.host.threads.set n t = s.host.threads := by
    obtain ⟨hn, rfl⟩ := List.getElem?_eq_some_iff.mp ht
    exact List.set_getElem_self hn
  rw [hostStep_of_issues_none ht hwait, hset]

/-! ### The lock step (R142) -/

theorem threadStep_writeLock_held (c : Config) {h : HostSide} (hheld : h.lock = true) (buf : List Byte)
    (len copied : Nat) : threadStep c h (.writeLock buf len copied) = (h, .returned .deviceBusy, none) :=
  if_pos hheld

theorem threadStep_writeLock_free (c : Config) {h : HostSide} (hfree : h.lock = false) (buf : List Byte)
    (len copied : Nat) :
    threadStep c h (.writeLock buf len copied) = ({ h with lock := true }, .writeCopy buf len copied, none) :=
  if_neg (by simp [hfree])

/-- Settles O52: the two branches of the lock step, neither of which issues a request. -/
theorem writeTakesTheLock : Obligations.WriteTakesTheLock := by
  refine ⟨fun _ _ _ => rfl, fun s n buf len copied ht => ⟨fun hheld => ?_, fun hfree => ?_⟩⟩
  · exact hostStep_of_issues_none ht (threadStep_writeLock_held s.cfg hheld buf len copied)
  · exact hostStep_of_issues_none ht (threadStep_writeLock_free s.cfg hfree buf len copied)

/-! ### The GOTO that SET_ROW and SET_COL issue -/

@[simp] theorem toNat_rowOperand (x : Int) : (rowOperand x).toNat = (min x 255).toNat := by
  rw [rowOperand, BitVec.toNat_ofNat, Nat.mod_eq_of_lt (by omega)]

@[simp] theorem toNat_colOperand (x : Int) : (colOperand x).toNat = (x % 256).toNat := by
  rw [colOperand, BitVec.toNat_ofNat, Nat.mod_eq_of_lt (by omega)]

/-- The word issued for a stored row and column (R148, R149). -/
theorem issued_goto (n : Nat) (row col : Int) :
    issued n (some (.goto (rowOperand row) (colOperand col))) =
      [⟨some n, .req24, BitVec.ofNat 24 (0x400000 + 256 * (min row 255).toNat + (col % 256).toNat)⟩] := by
  rw [issued, encodeWord_goto, toNat_rowOperand, toNat_colOperand]

/-- A thread's step that issues the GOTO of a stored row and column and then waits (R148, R149). -/
theorem hostStep_of_issues_goto {n : Nat} {s : State} {t : Thread} {row col : Int}
    (ht : s.host.threads[n]? = some t)
    (hgoto : threadStep s.cfg s.host t = (s.host, .gotoAwait, some (.goto (rowOperand row) (colOperand col)))) :
    hostStep n s =
      { s with
        host := { s.host with threads := s.host.threads.set n .gotoAwait }
        offers := s.offers ++
          [⟨some n, .req24, BitVec.ofNat 24 (0x400000 + 256 * (min row 255).toNat + (col % 256).toNat)⟩] } := by
  rw [hostStep_of_thread ht, hgoto, issued_goto]

/-- Settles O55: the store and read steps issue nothing and the third step issues the GOTO, for a row of either sign. -/
theorem setRowAndSetCol : Obligations.SetRowAndSetCol := by
  refine ⟨rfl, fun s n ht => hostStep_of_waits ht rfl, rfl, rfl, fun _ => rfl, fun _ => rfl, fun s n x y => ?_⟩
  exact ⟨fun hstore => hostStep_of_issues_none hstore rfl, fun hread => hostStep_of_issues_none hread rfl,
    fun hissue _ => hostStep_of_issues_goto hissue rfl,
    fun hstore => hostStep_of_issues_none hstore rfl, fun hread => hostStep_of_issues_none hread rfl,
    fun hissue _ => hostStep_of_issues_goto hissue rfl⟩

/-! ### The parameter path and the lock -/

/-- Outside the write path a thread's step neither reads nor writes the lock (R151). -/
theorem threadStep_ignores_lock (c : Config) (h : HostSide) (b : Bool) {t : Thread}
    (hlock : ∀ buf len copied, t ≠ .writeLock buf len copied) (hheld : t.holdsLock = false) :
    threadStep c { h with lock := b } t = ({ (threadStep c h t).1 with lock := b }, (threadStep c h t).2) ∧
      (threadStep c h t).1.lock = h.lock := by
  cases t with
  | writeLock buf len copied => exact absurd rfl (hlock buf len copied)
  | writeCopy | writing | writeAwait => cases hheld
  | rowStore | rowRead | rowIssue | colStore | colRead | colIssue => exact ⟨rfl, rfl⟩
  | gotoAwait | clearStore | clearIssue | clearAwait | clearZero | returned => exact ⟨rfl, rfl⟩

/-- Settles O58: the host step is the thread's step, which neither reads nor writes the lock. -/
theorem parameterPathIgnoresTheLock : Obligations.ParameterPathIgnoresTheLock := by
  intro s n t b ht hlock hheld
  obtain ⟨hsame, hkept⟩ := threadStep_ignores_lock s.cfg s.host b hlock hheld
  rw [hostStep_of_thread ht, hostStep_of_thread (s := { s with host := { s.host with lock := b } }) ht, hsame]
  exact ⟨rfl, hkept⟩

end Sys2Proof.Machine
end

section
/-! PROOFS. The admission table (60_exceptions.md R163): what an operation does that is admitted, and what one does that
is not. -/

namespace Sys2Proof.Machine

/-- An admitted request executes, or has ended with OK (R160). -/
theorem exec_request_runs_or_ok {i : Instr} {s t : State} (hreq : i.isTransfer = false) (hadm : Admitted i s)
    (h : exec i s = .next t) : t.busy = true ∨ (t.busy = false ∧ t.rspValid = true ∧ t.rsp = 0#2) := by
  cases hbusy : t.busy with
  | true => exact .inl rfl
  | false =>
    obtain ⟨evs, env, rfl⟩ := exec_request_ended hreq hadm h hbusy
    exact .inr ⟨rfl, rfl, rfl⟩

/-- Outside READY, the admission of NIB, BYTE, GOTO and CLEAR rejects (R163). -/
theorem admitReady_of_ne_ready {s : State} (h : s.initState ≠ .ready) (i : Instr) :
    admitReady i s = rejectedWith 2#2 s.display.link.otherRequest s :=
  (if_neg h).trans (reject_eq_rejectedWith .badState s)

/-- Outside UNINIT, the admission of INIT rejects (R101, R163). -/
theorem admitUninit_of_ne_uninit {s : State} (h : s.initState ≠ .uninit) (i : Instr) :
    admitUninit i s = rejectedWith 2#2 s.display.link.otherRequest s :=
  (if_neg h).trans (reject_eq_rejectedWith .badState s)

/-- Settles O22: the admitted half is the end of a request's run, and the other half the two admissions, with whatever
operands. -/
theorem admissionTable : Obligations.AdmissionTable := by
  intro s
  refine ⟨fun i t htable h => ?_, s.display.link.otherRequest, fun huninit => ?_, fun hready => ?_⟩
  · obtain ⟨hreq, hadm⟩ : i.isTransfer = false ∧ Admitted i s := by
      rcases htable with ⟨rfl, hs⟩ | ⟨hs, ⟨rs, n, rfl⟩ | ⟨rs, v, rfl⟩ | ⟨row, col, rfl⟩ | rfl⟩ <;> exact ⟨rfl, hs⟩
    exact exec_request_runs_or_ok hreq hadm h
  · exact congrArg Host.Outcome.next (admitUninit_of_ne_uninit huninit .init)
  · have hreject : ∀ i, (.next (admitReady i s) : Host.Outcome State Fault Refusal) =
        .next (rejectedWith 2#2 s.display.link.otherRequest s) :=
      fun i => congrArg _ (admitReady_of_ne_ready hready i)
    exact ⟨fun _ _ => hreject _, fun _ _ => hreject _, fun _ _ => hreject _, hreject _⟩

end Sys2Proof.Machine
end

section
/-! PROOFS. The state after reset (70_reset_and_hazards.md R181): STATUS and the bus port, which are read off the stored
state, at power-on and after the block's reset. -/

namespace Sys2Proof.Machine

/-- The port offers nothing while the sequencer is idle (R40). -/
theorem busOffer_of_seq_idle {s : State} (hseq : s.seq = .idle) : s.busOffer = none := by
  rw [State.busOffer, hseq]

/-- STATUS is 0 in a block that does not execute and has had no INIT (R24, R25). -/
theorem status_of_uninit_not_busy {s : State} (hinit : s.initState = .uninit) (hbusy : s.busy = false) :
    s.status = 0#2 := by
  rw [State.status, State.readyFlag, State.busyFlag, hinit, hbusy]
  rfl

@[simp] theorem blockReset_busOffer (landed : Bool) (s : State) : (blockReset landed s).busOffer = none :=
  busOffer_of_seq_idle (blockReset_seq landed s)

@[simp] theorem blockReset_status (landed : Bool) (s : State) : (blockReset landed s).status = 0#2 :=
  status_of_uninit_not_busy (blockReset_initState landed s) (blockReset_busy landed s)

/-- Settles O40: the stored values stand in the definition of the reset state and in the laws of `blockReset`, and
STATUS and the offer follow from UNINIT, not busy and the idle sequencer. -/
theorem resetState : Obligations.ResetState := by
  refine ⟨rfl, rfl, rfl, rfl, rfl, status_of_uninit_not_busy rfl rfl, busOffer_of_seq_idle rfl, rfl, rfl, rfl, rfl,
    rfl, rfl, rfl, rfl, rfl, fun s landed => ?_⟩
  exact ⟨blockReset_initState landed s, blockReset_busy landed s, blockReset_seq landed s, blockReset_delay landed s,
    blockReset_rspValid landed s, blockReset_status landed s, blockReset_busOffer landed s, blockReset_cfg landed s,
    blockReset_host landed s, blockReset_trace landed s⟩

end Sys2Proof.Machine
end

section
/-! PROOFS. The decoder and the encoder are inverse (30_encoding.md R62, R64, R66): the fields of each encoded word are
the operands, and a word that a row takes is put together again from its fields. -/

namespace Sys2Proof.Machine

/-! ### Decoding an encoded word -/

theorem fields_encode_nib (rs : RegSel) (n : Nibble) :
    opField (encodeWord (.nib rs n)) = 1#4 ∧ rsField (encodeWord (.nib rs n)) = rs ∧
      nibbleField (encodeWord (.nib rs n)) = n := by
  revert n
  cases rs <;> decide

theorem fields_encode_byte (rs : RegSel) (v : Byte) :
    opField (encodeWord (.byte rs v)) = 2#4 ∧ rsField (encodeWord (.byte rs v)) = rs ∧
      bField (encodeWord (.byte rs v)) = v := by
  revert v
  cases rs <;> decide

/-- R64: OP 0 is a reserved row, whatever the other bits are. -/
theorem decode_of_op_zero {w : ReqWord} (h : opField w = 0#4) :
    decode .req24 w = .instr (.reservedZero (restField w)) := by
  simp [decode, decodeRequest, fits_nib, fits_byte, fits_init, fits_goto, fits_clear, fits_reservedZero, h]

/-- R64: so are OP 6 and 7. -/
theorem decode_of_op_six_seven {w : ReqWord} (h : opField w = 6#4 ∨ opField w = 7#4) :
    decode .req24 w = .instr (.reservedSixSeven (opField w) (restField w)) := by
  simp only [decode, decodeRequest, fits_nib, fits_byte, fits_init, fits_goto, fits_clear, fits_reservedZero,
    fits_reservedSixSeven]
  rcases h with h | h <;> simp [h]

/-- R64: so are the operation codes from 8 on. -/
theorem decode_of_op_high {w : ReqWord} (h : 8 ≤ (opField w).toNat) :
    decode .req24 w = .instr (.reservedHigh (opField w) (restField w)) := by
  have hlow : ∀ op : BitVec 4, op.toNat < 8 → opField w ≠ op := by
    rintro op hop rfl
    omega
  simp [decode, decodeRequest, fits_nib, fits_byte, fits_init, fits_goto, fits_clear, fits_reservedZero,
    fits_reservedSixSeven, fits_reservedHigh, h, hlow]

/-- Settles O1: each encoded word lies in its row, the operation code tells the row, and the fields are the operands. -/
theorem decodeOfEncode : Obligations.DecodeOfEncode := by
  intro i hwf
  simp only [encode, encodeFormat]
  cases i with
  | nib rs n =>
    obtain ⟨hop, hrs, hn⟩ := fields_encode_nib rs n
    simpa [hop, hrs, hn] using decode_of_spellsOperation (.inl (Laws.TableRow.nib rs n hwf))
  | byte rs v =>
    obtain ⟨hop, hrs, hv⟩ := fields_encode_byte rs v
    simpa [hop, hrs, hv] using decode_of_spellsOperation (.inr (.inl (Laws.TableRow.byte rs v hwf)))
  | goto row col =>
    obtain ⟨hop, -, -, hrow, hcol⟩ := fields_encode_goto row col
    simpa [hop, hrow, hcol] using
      decode_of_spellsOperation (.inr (.inr (.inr (.inl (Laws.TableRow.goto row col hwf)))))
  | reservedZero rest =>
    simpa [encodeWord, restField_rest] using decode_of_op_zero (opField_rest rest)
  | reservedSixSeven op rest =>
    have hop : op = 6#4 ∨ op = 7#4 := by simpa [Instr.WellFormed, Instr.illFormed, or_iff_not_imp_left] using hwf
    simpa [encodeWord, opField_op_rest, restField_op_rest] using
      decode_of_op_six_seven (w := encodeWord (.reservedSixSeven op rest)) (by rwa [encodeWord, opField_op_rest])
  | reservedHigh op rest =>
    have hop : 8 ≤ op.toNat := by simpa [Instr.WellFormed, Instr.illFormed] using hwf
    simpa [encodeWord, opField_op_rest, restField_op_rest] using
      decode_of_op_high (w := encodeWord (.reservedHigh op rest)) (by rwa [encodeWord, opField_op_rest])
  | setDdramAddr a => revert a; decide
  | charData v => revert v; decide
  | init | clear | force8 | switch4 | functionSet | displayControl | entryModeSet | clearDisplay => decide

/-! ### Encoding what a word decodes to -/

theorem encodeWord_nib_of_fits {w : ReqWord} (h : fits w 0xFEFFF0#24 0x100000#24 = true) :
    encodeWord (.nib (rsField w) (nibbleField w)) = w := by
  simp only [fits, beq_iff_eq, eq_iff_bits, encodeWord, rsWord, rsField, nibbleField] at h ⊢
  repeat rw [forall_lt_succ_iff] at h ⊢
  cases hrs : w.getLsbD 16 <;> simp [BitVec.getLsbD_extractLsb', RegSel.bit] at h hrs ⊢ <;> tauto

theorem encodeWord_byte_of_fits {w : ReqWord} (h : fits w 0xFEFF00#24 0x200000#24 = true) :
    encodeWord (.byte (rsField w) (bField w)) = w := by
  simp only [fits, beq_iff_eq, eq_iff_bits, encodeWord, rsWord, rsField, bField] at h ⊢
  repeat rw [forall_lt_succ_iff] at h ⊢
  cases hrs : w.getLsbD 16 <;> simp [BitVec.getLsbD_extractLsb', RegSel.bit] at h hrs ⊢ <;> tauto

theorem encodeWord_goto_of_fits {w : ReqWord} (h : fits w 0xFF0000#24 0x400000#24 = true) :
    encodeWord (.goto (aField w) (bField w)) = w := by
  simp only [fits, beq_iff_eq, eq_iff_bits, encodeWord, aField, bField] at h ⊢
  repeat rw [forall_lt_succ_iff] at h ⊢
  simp [BitVec.getLsbD_extractLsb'] at h ⊢
  tauto

/-- The rows without operands: the mask is all ones. -/
theorem eq_of_fits_all {w m : ReqWord} (h : fits w 0xFFFFFF#24 m = true) : w = m := by
  have hall : w &&& 0xFFFFFF#24 = w := BitVec.and_allOnes
  simpa [fits, hall] using h

theorem encodeWord_setDdramAddr_of_fits {w : ReqWord} (h : fits w 0xFFFF80#24 0x000080#24 = true) :
    encodeWord (.setDdramAddr (w.extractLsb' 0 7)) = w := by
  simp only [fits, beq_iff_eq, eq_iff_bits, encodeWord] at h ⊢
  repeat rw [forall_lt_succ_iff] at h ⊢
  simp [BitVec.getLsbD_extractLsb'] at h ⊢
  tauto

theorem encodeWord_charData_of_fits {w : ReqWord} (h : fits w 0xFFFF00#24 0x000000#24 = true) :
    encodeWord (.charData (bField w)) = w := by
  simp only [fits, beq_iff_eq, eq_iff_bits, encodeWord, bField] at h ⊢
  repeat rw [forall_lt_succ_iff] at h ⊢
  simp [BitVec.getLsbD_extractLsb'] at h ⊢
  tauto

/-- R64: a word is its operation code over the other bits. -/
theorem op_rest_eq (w : ReqWord) : ((opField w).zeroExtend 24 <<< 20) ||| (restField w).zeroExtend 24 = w :=
  word_ext (opField_op_rest ..) (restField_op_rest ..)

/-- The five rows of R62 and the three of R64, read back. -/
theorem encode_of_decodeRequest {w : ReqWord} {i : Instr} (h : decodeRequest w = .instr i) :
    i.WellFormed ∧ encode i = (.req24, w) := by
  unfold decodeRequest at h
  split_ifs at h with hnib hbyte hinit hgoto hclear hzero hsix hhigh <;> cases h
  · exact ⟨rfl, congrArg _ (encodeWord_nib_of_fits hnib)⟩
  · exact ⟨rfl, congrArg _ (encodeWord_byte_of_fits hbyte)⟩
  · exact ⟨rfl, congrArg _ (eq_of_fits_all hinit).symm⟩
  · exact ⟨rfl, congrArg _ (encodeWord_goto_of_fits hgoto)⟩
  · exact ⟨rfl, congrArg _ (eq_of_fits_all hclear).symm⟩
  · have hop : opField w = 0#4 := (fits_reservedZero w).1 hzero
    exact ⟨rfl, congrArg _ (word_ext ((opField_rest _).trans hop.symm) (restField_rest _))⟩
  · have hop : opField w = 6#4 ∨ opField w = 7#4 := (fits_reservedSixSeven w).1 hsix
    exact ⟨if_pos hop, congrArg _ (op_rest_eq w)⟩
  · have hop : 8 ≤ (opField w).toNat := (fits_reservedHigh w).1 hhigh
    exact ⟨if_pos hop, congrArg _ (op_rest_eq w)⟩

/-- Settles O2: row by row, the word is put together again from the fields it was decoded into. -/
theorem encodeOfDecode : Obligations.EncodeOfDecode := by
  intro f w i h
  cases f with
  | req24 => exact encode_of_decodeRequest h
  | nibble =>
    simp only [decode, decodeNibble] at h
    split_ifs at h with hforce hswitch <;> cases h
    · exact ⟨rfl, congrArg _ hforce.symm⟩
    · exact ⟨rfl, congrArg _ hswitch.symm⟩
  | command =>
    simp only [decode, decodeCommand] at h
    split_ifs at h with hset hon hentry hclear haddr <;> cases h
    · exact ⟨rfl, congrArg _ hset.symm⟩
    · exact ⟨rfl, congrArg _ hon.symm⟩
    · exact ⟨rfl, congrArg _ hentry.symm⟩
    · exact ⟨rfl, congrArg _ hclear.symm⟩
    · exact ⟨rfl, congrArg _ (encodeWord_setDdramAddr_of_fits haddr)⟩
  | character =>
    simp only [decode, decodeCharacter] at h
    split_ifs at h with hchar
    cases h
    exact ⟨rfl, congrArg _ (encodeWord_charData_of_fits hchar)⟩

end Sys2Proof.Machine
end

section
/-! PROOFS. Where the sequencer stands, what a move of the outside leaves of the block, and the run of an executing
request (10_state.md R21-R24, 70_reset_and_hazards.md R190). -/

namespace Sys2Proof.Machine

/-! ### Where the sequencer stands (R23, R40) -/

/-- The sequencer stands at a write, at a wait, or past the end of the list; the port and the wait in progress tell
which. -/
theorem position_cases {s : State} {i : Instr} {k : Nat} (hseq : s.seq = .running i k) :
    (∃ sl v n, (eventList s.cfg i)[k]? = some sl ∧ sl.action = .write v n ∧ s.busOffer = some v ∧ s.waiting = none) ∨
    (∃ sl us, (eventList s.cfg i)[k]? = some sl ∧ sl.action = .wait us ∧ s.busOffer = none ∧ s.waiting = some us) ∨
    ((eventList s.cfg i)[k]? = none ∧ s.busOffer = none ∧ s.waiting = none) := by
  simp only [State.busOffer, State.waiting, hseq]
  rcases (eventList s.cfg i)[k]? with _ | ⟨c, ⟨v, n⟩ | us⟩
  · exact .inr (.inr ⟨rfl, rfl, rfl⟩)
  · exact .inl ⟨_, v, n, rfl, rfl, rfl, rfl⟩
  · exact .inr (.inl ⟨_, us, rfl, rfl, rfl, rfl⟩)

section
variable {s : State} {i : Instr} {k : Nat} {sl : Slot} (hseq : s.seq = .running i k)
  (hsl : (eventList s.cfg i)[k]? = some sl)
include hseq hsl

theorem port_of_write {v : Byte} {n : Nat} (ha : sl.action = .write v n) : s.busOffer = some v ∧ s.waiting = none := by
  obtain ⟨c, a⟩ := sl
  cases ha
  simp only [State.busOffer, State.waiting, hseq, hsl, and_self]

theorem port_of_wait {us : Nat} (ha : sl.action = .wait us) : s.busOffer = none ∧ s.waiting = some us := by
  obtain ⟨c, a⟩ := sl
  cases ha
  simp only [State.busOffer, State.waiting, hseq, hsl, and_self]

end

/-! ### Moves that leave the block alone -/

/-- `t` has the block of `s`, with the display behind its bus, and holds what `s` held and perhaps more requests
behind it. -/
structure SameBlock (s t : State) : Prop where
  cfg : t.cfg = s.cfg
  initState : t.initState = s.initState
  busy : t.busy = s.busy
  req : t.req = s.req
  seq : t.seq = s.seq
  delay : t.delay = s.delay
  rsp : t.rsp = s.rsp
  rspValid : t.rspValid = s.rspValid
  trace : t.trace = s.trace
  owner : t.owner = s.owner
  display : t.display = s.display
  offers : ∃ more, t.offers = s.offers ++ more ∧ ∀ o ∈ more, o.format = .req24

theorem sameBlock_env (s : State) (env : List Move) : SameBlock s { s with env := env } :=
  ⟨rfl, rfl, rfl, rfl, rfl, rfl, rfl, rfl, rfl, rfl, rfl, [], by simp, by simp⟩

theorem sameBlock_present (w : ReqWord) (s : State) : SameBlock s (present w s) :=
  ⟨rfl, rfl, rfl, rfl, rfl, rfl, rfl, rfl, rfl, rfl, rfl, _, rfl, by simp⟩

theorem sameBlock_hostCall (c : HostCall) (s : State) : SameBlock s (hostCall c s) :=
  ⟨rfl, rfl, rfl, rfl, rfl, rfl, rfl, rfl, rfl, rfl, rfl, [], by simp, by simp⟩

/-- What a host step issues is presented in the format of requests (R60). -/
theorem issued_format (n : Nat) (r : Option Instr) : ∀ o ∈ issued n r, o.format = .req24 := by
  cases r <;> simp [issued]

theorem hostStep_offers (n : Nat) (s : State) :
    ∃ more, (hostStep n s).offers = s.offers ++ more ∧ ∀ o ∈ more, o.format = .req24 := by
  cases ht : s.host.threads[n]? with
  | none => exact ⟨[], by simp [hostStep, ht], by simp⟩
  | some t => exact ⟨_, by rw [hostStep_of_thread ht], issued_format n _⟩

theorem sameBlock_hostStep (n : Nat) (s : State) : SameBlock s (hostStep n s) :=
  ⟨by simp, by simp, by simp, by simp, by simp, by simp, by simp, by simp, by simp, by simp, by simp,
    hostStep_offers n s⟩

theorem SameBlock.trans {s u t : State} (h : SameBlock s u) (h' : SameBlock u t) : SameBlock s t := by
  obtain ⟨more, hmore, hf⟩ := h.offers
  obtain ⟨more', hmore', hf'⟩ := h'.offers
  refine ⟨h'.cfg.trans h.cfg, h'.initState.trans h.initState, h'.busy.trans h.busy, h'.req.trans h.req,
    h'.seq.trans h.seq, h'.delay.trans h.delay, h'.rsp.trans h.rsp, h'.rspValid.trans h.rspValid,
    h'.trace.trans h.trace, h'.owner.trans h.owner, h'.display.trans h.display, more ++ more', ?_, ?_⟩
  · rw [hmore', hmore, List.append_assoc]
  · exact fun o ho => (List.mem_append.1 ho).elim (hf o) (hf' o)

theorem SameBlock.busOffer {s t : State} (h : SameBlock s t) : t.busOffer = s.busOffer := by
  simp only [State.busOffer, h.seq, h.cfg]

theorem SameBlock.waiting {s t : State} (h : SameBlock s t) : t.waiting = s.waiting := by
  simp only [State.waiting, h.seq, h.cfg]

/-- The last of the cases of `stepBusy_cases` and `stepIdle_cases`. -/
theorem sameBlock_of_outside {s t : State} {m : Move} {env : List Move}
    (h : t = { s with env := env } ∨ (∃ w, m = .request w ∧ t = present w { s with env := env }) ∨
      (∃ c, m = .call c ∧ t = hostCall c { s with env := env }) ∨
      (∃ n, m = .host n ∧ t = hostStep n { s with env := env })) : SameBlock s t := by
  have henv := sameBlock_env s env
  rcases h with rfl | ⟨w, -, rfl⟩ | ⟨c, -, rfl⟩ | ⟨n, -, rfl⟩
  · exact henv
  · exact henv.trans (sameBlock_present ..)
  · exact henv.trans (sameBlock_hostCall ..)
  · exact henv.trans (sameBlock_hostStep ..)

/-! ### What every run of a list leaves -/

theorem RunResult.keeps {i : Instr} {slots : List Slot} {k : Nat} {s t : State} (h : RunResult i slots k s t) :
    t.cfg = s.cfg ∧ t.req = s.req ∧ t.offers = s.offers ∧ s.trace <+: t.trace ∧ t.env <:+ s.env := by
  obtain ⟨evs, used, env, ini, d, henv, -, -, hres⟩ := h
  rcases hres with ⟨rfl, -⟩ | ⟨j, sl, -, rfl, -⟩
  · exact ⟨by simp, by simp, by simp, by simp, used, by simp [henv]⟩
  · exact ⟨rfl, rfl, rfl, by simp, used, henv.symm⟩

theorem RunResult.offers_eq {i : Instr} {slots : List Slot} {k : Nat} {s t : State} (h : RunResult i slots k s t) :
    t.offers = s.offers := by
  obtain ⟨-, -, hoffers, -, -⟩ := h.keeps
  exact hoffers

/-- A run has left the block idle, or it executes still and only its position, its code, its counter and what was
observed have changed. -/
theorem RunResult.idle_or_executing {i : Instr} {slots : List Slot} {k : Nat} {s t : State}
    (h : RunResult i slots k s t) (hbusy : s.busy = true) :
    (t.busy = false ∧ t.seq = .idle) ∨
    (t.busy = true ∧ (∃ k', k ≤ k' ∧ t.seq = .running i k') ∧
      t.rsp = s.rsp ∧ t.rspValid = s.rspValid ∧ t.owner = s.owner ∧ t.host = s.host) := by
  obtain ⟨evs, used, env, ini, d, -, -, -, hres⟩ := h
  rcases hres with ⟨rfl, -⟩ | ⟨j, sl, -, rfl, -⟩
  · exact .inl ⟨by simp, by simp⟩
  · exact .inr ⟨hbusy, ⟨k + j, by omega, rfl⟩, rfl, rfl, rfl, rfl⟩

/-! ### The start of an operation -/

/-- The state in which the list of an admitted operation is run: INIT stands in its first step from index 0 on
(R102, R112). -/
def entered (i : Instr) (s : State) : State :=
  { started i s with initState := if i = .init then .powerOnWait else s.initState }

theorem begin_eq_runSlots_entered (i : Instr) (s : State) :
    begin i s = runSlots i (eventList s.cfg i) 0 0 (entered i s) := by
  by_cases hi : i = .init
  · subst hi
    rfl
  · simp only [entered, hi, if_false]
    rfl

theorem begin_entered_result (i : Instr) (s : State) :
    RunResult i ((eventList (entered i s).cfg i).drop 0) 0 (entered i s) (begin i s) := by
  rw [begin_eq_runSlots_entered]
  exact runSlots_result ..

end Sys2Proof.Machine
end

section
/-! PROOFS. The invariant of the block (10_state.md R20-R26, 60_exceptions.md R163): it holds wherever the run of an
executing request stops, and what a step from a state that meets it can do. -/

namespace Sys2Proof.Machine

/-! ### A request that goes on -/

/-- The code that belongs to the execution of `i` (R24, R112). -/
def CodeOk (i : Instr) (c : InitState) : Prop := if i = .init then c.isStep = true else c = .ready

/-- The block executes the request `i`, and its counter does not run: a state from which the sequencer goes on. -/
structure State.GoesOn (i : Instr) (s : State) : Prop where
  wf : s.cfg.Wf
  requests : ∀ o ∈ s.offers, o.format = .req24
  busy : s.busy = true
  rspValid : s.rspValid = false
  delay : s.delay = 0
  decodes : decode .req24 s.req = .instr i
  code : CodeOk i s.initState

/-- The codes of the steps are all but UNINIT and READY (R26). -/
theorem InitState.isStep_iff (c : InitState) : c.isStep = true ↔ c ≠ .uninit ∧ c ≠ .ready := by
  cases c <;> simp [InitState.isStep]

theorem CodeOk.ne_uninit {i : Instr} {c : InitState} (h : CodeOk i c) : c ≠ .uninit := by
  rintro rfl
  unfold CodeOk at h
  split at h <;> cases h

/-- Outside INIT the code of an execution is READY. -/
theorem CodeOk.eq_ready {i : Instr} {c : InitState} (h : CodeOk i c) (hi : i ≠ .init) : c = .ready := by
  simpa [CodeOk, hi] using h

theorem CodeOk.isStep {c : InitState} (h : CodeOk .init c) : c.isStep = true := h

/-- A code of an execution is READY exactly outside INIT. -/
theorem CodeOk.ready_iff {i : Instr} {c : InitState} (h : CodeOk i c) : c = .ready ↔ i ≠ .init := by
  refine ⟨?_, h.eq_ready⟩
  rintro rfl rfl
  cases h

/-- An admitted request other than INIT is accepted in READY (R163). -/
theorem ready_of_admitted {i : Instr} {s : State} (hadm : Admitted i s) (hreq : i.isTransfer = false)
    (hi : i ≠ .init) : s.initState = .ready := by
  cases i with
  | nib | byte | goto | clear => exact hadm
  | init => exact absurd rfl hi
  | reservedZero | reservedSixSeven | reservedHigh => exact hadm.elim
  | force8 | switch4 | functionSet | displayControl | entryModeSet | clearDisplay | setDdramAddr | charData =>
    cases hreq

/-- A part of the list of `i` leaves a code that belongs to the execution of `i`. -/
theorem codeOk_of_slots {i : Instr} {s : State} {slots : List Slot} {ini : InitState}
    (hsub : slots ⊆ eventList s.cfg i) (hs : CodeOk i s.initState)
    (hini : ini = s.initState ∨ ∃ sl ∈ slots, sl.enters = some ini) : CodeOk i ini := by
  rcases hini with rfl | ⟨sl, hsl, henters⟩
  · exact hs
  · by_cases hi : i = .init
    · subst hi
      exact (InitState.isStep_iff ini).2 (initSlots_enters s.cfg sl (hsub hsl) ini henters)
    · rw [eventList_enters_none s.cfg i hi sl (hsub hsl)] at henters
      cases henters

/-- The end of an operation drives OK or ILLEGAL, or no response at all (R64, R65, R85). -/
theorem finish_response (i : Instr) (s : State) :
    ((finish i s).rspValid = true ∧ (finish i s).rsp ≠ 3#2) ∨ (finish i s).rspValid = s.rspValid := by
  cases i <;> simp [finish, Response.code]

/-- How the run of an executing request has stopped: at its end, with the code READY, or at an entry of its list, with a
code of its execution and the counter loaded exactly at a wait (R23, R109, R190). -/
theorem RunResult.ended_or_stands {i : Instr} {k : Nat} {s t : State}
    (h : RunResult i ((eventList s.cfg i).drop k) k s t) (hs : s.GoesOn i) :
    (∃ s', t = finish i s' ∧ s'.delay = 0 ∧ s'.rspValid = false ∧ CodeOk i s'.initState) ∨
    (∃ k' sl, (eventList s.cfg i)[k']? = some sl ∧ t.seq = .running i k' ∧ t.busy = true ∧ t.rspValid = false ∧
      CodeOk i t.initState ∧
      ((∃ v n, sl.action = .write v n ∧ t.delay = 0) ∨
        ∃ us extra, sl.action = .wait us ∧ t.delay = loadCount s.cfg us extra)) := by
  obtain ⟨evs, used, env, ini, d, -, -, hini, hres⟩ := h
  have hcode : CodeOk i ini := codeOk_of_slots (List.drop_subset ..) hs.code hini
  have hzero : d = s.delay ∨ d = 0 → d = 0 := fun h => h.elim (·.trans hs.delay) id
  rcases hres with ⟨rfl, hd⟩ | ⟨j, sl, hsl, rfl, hd⟩
  · exact .inl ⟨_, rfl, hzero hd, hs.rspValid, hcode⟩
  · rw [List.getElem?_drop] at hsl
    refine .inr ⟨k + j, sl, hsl, rfl, hs.busy, hs.rspValid, hcode, ?_⟩
    exact hd.imp (fun ⟨v, n, ha, hd⟩ => ⟨v, n, ha, hzero hd⟩) id

/-- A load is a count that a legal counter holds, and above 0 (R171, R190). -/
theorem loadCount_pos {c : Config} (hc : c.Wf) {i : Instr} {k : Nat} {sl : Slot} {us : Nat}
    (hsl : (eventList c i)[k]? = some sl) (ha : sl.action = .wait us) (extra : Nat) : 0 < loadCount c us extra := by
  have hmem := List.mem_of_getElem? hsl
  calc 0 < minCount c us := minCount_pos c us hc (eventList_waits_pos c hc i sl hmem us ha)
    _ ≤ loadCount c us extra := minCount_le_loadCount c us extra hc (eventList_waits c i sl hmem us ha)

/-- Wherever the run of an executing request stops, the block meets its invariant. -/
theorem RunResult.blockOk {i : Instr} {k : Nat} {s t : State} (h : RunResult i ((eventList s.cfg i).drop k) k s t)
    (hs : s.GoesOn i) : t.BlockOk := by
  obtain ⟨hcfg, hreq, hoffers, -, -⟩ := h.keeps
  rcases h.ended_or_stands hs with ⟨s', rfl, hdelay, hvalid, hcode⟩ |
    ⟨k', sl, hsl, hseq, hbusy, hvalid, hcode, hdelay⟩
  · refine ⟨hcfg ▸ hs.wf, ?_, hoffers ▸ hs.requests, fun hv => ⟨by simp, ?_⟩, ?_⟩
    · simp [hdelay]
    · rcases finish_response i s' with hr | hr
      · exact hr.2
      · rw [hr, hvalid] at hv
        cases hv
    · rw [finish_seq]
      refine ⟨by simp, by simp [hdelay], .inr ?_⟩
      rw [finish_initState]
      split
      · rfl
      · next hi => exact hcode.eq_ready hi
  · rw [← hcfg] at hsl hdelay
    have hwf := hcfg ▸ hs.wf
    have hlt := (List.getElem?_eq_some_iff.1 hsl).1
    rcases hdelay with ⟨v, n, ha, hd⟩ | ⟨us, extra, ha, hd⟩
    · obtain ⟨-, hw⟩ := port_of_write hseq hsl ha
      refine ⟨hwf, by simp [hd], hoffers ▸ hs.requests, by simp [hvalid], ?_⟩
      rw [hseq]
      exact ⟨hbusy, hreq ▸ hs.decodes, hlt, hcode, by simp [hd, hw]⟩
    · obtain ⟨-, hw⟩ := port_of_wait hseq hsl ha
      refine ⟨hwf, hd ▸ loadCount_lt .., hoffers ▸ hs.requests, by simp [hvalid], ?_⟩
      rw [hseq]
      exact ⟨hbusy, hreq ▸ hs.decodes, hlt, hcode, by simp [hd, hw, loadCount_pos hwf hsl ha extra]⟩

/-! ### What a step from a state that meets the invariant can do -/

section
variable {s : State} (hs : s.BlockOk) {i : Instr} {k : Nat} (hseq : s.seq = .running i k)
include hs hseq

/-- An executing block that meets the invariant goes on once its counter is at 0. -/
theorem goesOn_of_blockOk : ({ s with delay := 0 } : State).GoesOn i := by
  obtain ⟨hwf, -, hoffers, hvalid, hexec⟩ := hs
  rw [hseq] at hexec
  obtain ⟨hbusy, hdec, -, hcode, -⟩ := hexec
  have hresponse : s.rspValid = false := by
    by_contra hv
    exact Bool.noConfusion (hbusy.symm.trans (hvalid (by simpa using hv)).1)
  exact ⟨hwf, hoffers, hbusy, hresponse, rfl, hdec, hcode⟩

/-- It goes on after a wait. -/
theorem goesOn_emitWait (us : Nat) : (s.emitWait us).GoesOn i := by
  obtain ⟨hwf, hoffers, hbusy, hvalid, -, hdec, hcode⟩ := goesOn_of_blockOk hs hseq
  exact ⟨hwf, hoffers, hbusy, hvalid, rfl, hdec, hcode⟩

/-- It goes on where it does not wait. -/
theorem goesOn_of_not_waiting (hw : s.waiting = none) : s.GoesOn i := by
  have hgo := goesOn_of_blockOk hs hseq
  obtain ⟨-, -, -, -, hexec⟩ := hs
  rw [hseq] at hexec
  obtain ⟨-, -, -, -, hdelay⟩ := hexec
  have hzero : s.delay = 0 := by simpa [hw] using hdelay
  rwa [← hzero] at hgo

end

/-- The invariant while the block is idle. -/
theorem State.BlockOk.idle {s : State} (hs : s.BlockOk) (hbusy : s.busy = false) :
    s.seq = .idle ∧ s.delay = 0 ∧ (s.initState = .uninit ∨ s.initState = .ready) := by
  obtain ⟨-, -, -, -, hidle⟩ := hs
  cases hseq : s.seq with
  | idle =>
    rw [hseq] at hidle
    exact ⟨rfl, hidle.2⟩
  | running i k =>
    rw [hseq] at hidle
    simp [hbusy] at hidle

/-- An admitted request that has been accepted and started goes on from its first entry (R21, R112, R163). -/
theorem goesOn_entered {s : State} (hs : s.BlockOk) {own : Option Nat} {w : ReqWord} {rest : List Offer} {i : Instr}
    (hoffers : s.offers = ⟨own, .req24, w⟩ :: rest) (hdec : decode .req24 w = .instr i) (hadm : Admitted i s) :
    (entered i (accept ⟨own, .req24, w⟩ rest s)).GoesOn i := by
  obtain ⟨hwf, -, hreq, -, -⟩ := hs
  refine ⟨hwf, fun o ho => hreq o (hoffers ▸ List.mem_cons_of_mem _ ho), rfl, rfl, rfl, hdec, ?_⟩
  by_cases hi : i = .init
  · subst hi
    rfl
  · simpa [CodeOk, entered, hi] using ready_of_admitted hadm (decodeRequest_isTransfer hdec) hi

/-- What a step from a state that meets the invariant of the block can do. -/
inductive BlockStep (s t : State) : Prop
  /-- the executing request goes on from `s'`, which is `s` with a wait over or a clock edge used up -/
  | goesOn (i : Instr) (k₀ k : Nat) (s' : State) (hseq : s.seq = .running i k₀)
      (hinit : s'.initState = s.initState) (hdisplay : s'.display = s.display) (hs' : s'.GoesOn i)
      (hrun : RunResult i ((eventList s'.cfg i).drop k) k s' t)
  /-- an admitted request is accepted and run -/
  | starts (own : Option Nat) (w : ReqWord) (rest : List Offer) (i : Instr) (hbusy : s.busy = false)
      (hoffers : s.offers = ⟨own, .req24, w⟩ :: rest) (hdec : decode .req24 w = .instr i) (hadm : Admitted i s)
      (hrun : t = begin i (accept ⟨own, .req24, w⟩ rest s))
  /-- a request is accepted and rejected -/
  | rejects (own : Option Nat) (w : ReqWord) (rest : List Offer) (c : Response) (hbusy : s.busy = false)
      (hoffers : s.offers = ⟨own, .req24, w⟩ :: rest) (ht : t = (accept ⟨own, .req24, w⟩ rest s).reject c)
  /-- the counter of a watched wait counts -/
  | counts (env : List Move) (hw : s.waiting ≠ none) (hdelay : 1 < s.delay)
      (ht : t = { s with env := env, delay := s.delay - 1 })
  /-- the block is reset -/
  | resets (landed : Bool) (env : List Move) (henv : s.env = .reset landed :: env)
      (ht : t = blockReset landed { s with env := env })
  /-- the block stays as it is -/
  | stays (h : SameBlock s t)

theorem blockStep_of_stepBusy {s t : State} (hs : s.BlockOk) {i : Instr} {k : Nat} (hseq : s.seq = .running i k)
    (h : stepBusy i k s = .next t) : BlockStep s t := by
  rcases stepBusy_cases h with ⟨hw, rfl⟩ | ⟨us, -, rfl⟩ | ⟨us, env, -, -, -, rfl⟩ | ⟨us, env, -, hw, hd, rfl⟩ |
    ⟨landed, env, henv, rfl⟩ | ⟨m, env, -, hout⟩
  · exact .goesOn i k k s hseq rfl rfl (goesOn_of_not_waiting hs hseq hw) (resume_result i k s)
  · exact .goesOn i k (k + 1) (s.emitWait us) hseq rfl rfl (goesOn_emitWait hs hseq us) (endWait_result i k us s)
  · exact .goesOn i k (k + 1) (State.emitWait us { s with env := env }) hseq rfl rfl
      (goesOn_emitWait (s := { s with env := env }) hs hseq us) (endWait_result i k us { s with env := env })
  · exact .counts env (by simp [hw]) hd rfl
  · exact .resets landed env henv rfl
  · exact .stays (sameBlock_of_outside hout)

theorem blockStep_of_stepIdle (s : State) : BlockStep s (stepIdle s) := by
  rcases stepIdle_cases s with h | ⟨landed, env, henv, h⟩ | ⟨m, env, -, hout⟩
  · rw [h]
    exact .stays (sameBlock_env s s.env)
  · exact .resets landed env henv h
  · exact .stays (sameBlock_of_outside hout)

/-- Every step from a state that meets the invariant of the block is one of these. -/
theorem blockStep_of_step {s t : State} (hs : s.BlockOk) (h : step s = .next t) : BlockStep s t := by
  have hformat : ∀ o rest, s.offers = o :: rest → ∃ own w, o = ⟨own, .req24, w⟩ := by
    intro o rest ho
    obtain ⟨-, -, hrequests, -, -⟩ := hs
    have hf : o.format = .req24 := hrequests o (by simp [ho])
    exact ⟨o.owner, o.word, by rw [← hf]⟩
  rcases step_cases h with ⟨i, k, -, hseq, hbusy⟩ | ⟨-, -, rfl⟩ | ⟨o, rest, i, hb, ho, hdec, hexec⟩ |
    ⟨o, rest, hb, ho, -, ht⟩
  · exact blockStep_of_stepBusy hs hseq hbusy
  · exact blockStep_of_stepIdle s
  · obtain ⟨own, w, rfl⟩ := hformat o rest ho
    have hadm : ∀ s', s'.initState = s.initState → (Admitted i s' ↔ Admitted i s) := by
      intro s' hs'
      cases i <;> simp [Admitted, hs']
    rcases exec_cases i (accept ⟨own, .req24, w⟩ rest s) with ⟨ha, he⟩ | ⟨-, -, he | he⟩ <;>
      rw [he] at hexec <;> cases hexec
    · exact .starts own w rest i hb ho hdec ((hadm _ rfl).1 ha) rfl
    · exact .rejects own w rest .badState hb ho rfl
    · exact .rejects own w rest .illegal hb ho rfl
  · obtain ⟨own, w, rfl⟩ := hformat o rest ho
    exact .rejects own w rest .illegal hb ho ht

/-! ### The invariant is kept -/

theorem Response.code_ne_three (c : Response) : c.code ≠ 3#2 := by
  cases c <;> decide

theorem SameBlock.blockOk {s t : State} (h : SameBlock s t) (hs : s.BlockOk) : t.BlockOk := by
  obtain ⟨hwf, hdelay, hoffers, hvalid, hseq⟩ := hs
  obtain ⟨more, hmore, hf⟩ := h.offers
  refine ⟨h.cfg ▸ hwf, by rwa [h.cfg, h.delay], ?_, by rwa [h.rspValid, h.busy, h.rsp], ?_⟩
  · rw [hmore]
    exact fun o ho => (List.mem_append.1 ho).elim (hoffers o) (hf o)
  · rw [h.seq, h.busy, h.delay, h.initState]
    cases hs : s.seq with
    | idle => rwa [hs] at hseq
    | running i k =>
      rw [hs] at hseq
      simpa only [State.RunningOk, h.cfg, h.req, h.initState, h.delay, h.waiting] using hseq

/-- Settles O41: where a run stops the invariant holds, and no other step leaves it. -/
theorem blockInvariantKept : Obligations.BlockInvariantKept := by
  intro s t hs h
  cases blockStep_of_step hs h with
  | goesOn i k₀ k s' hseq hinit hdisplay hs' hrun => exact hrun.blockOk hs'
  | starts own w rest i hbusy hoffers hdec hadm hrun =>
    rw [hrun]
    exact (begin_entered_result i _).blockOk (goesOn_entered hs hoffers hdec hadm)
  | rejects own w rest c hbusy hoffers ht =>
    obtain ⟨-, hdelay, hinit⟩ := hs.idle hbusy
    obtain ⟨hwf, hlt, hreq, -, -⟩ := hs
    rw [ht]
    exact ⟨hwf, hlt, fun o ho => hreq o (hoffers ▸ List.mem_cons_of_mem _ ho), fun _ => ⟨rfl, c.code_ne_three⟩,
      rfl, hdelay, hinit⟩
  | counts env hw hdelay ht =>
    obtain ⟨hwf, hlt, hreq, hvalid, hseq⟩ := hs
    rw [ht]
    refine ⟨hwf, Nat.lt_of_le_of_lt (Nat.sub_le ..) hlt, hreq, hvalid, ?_⟩
    cases hs : s.seq with
    | idle => simp [State.waiting, hs] at hw
    | running i k =>
      rw [hs] at hseq
      obtain ⟨hbusy, hdec, hk, hcode, -⟩ := hseq
      exact ⟨hbusy, hdec, hk, hcode, iff_of_true (Nat.sub_pos_of_lt hdelay) (by simpa [State.waiting, hs] using hw)⟩
  | resets landed env henv ht =>
    obtain ⟨hwf, -, hreq, -, -⟩ := hs
    rw [ht]
    exact ⟨hwf, by simp, hreq, by simp, rfl, rfl, .inl rfl⟩
  | stays hsame => exact hsame.blockOk hs

end Sys2Proof.Machine
end

section
/-! PROOFS. What every step keeps of the initialization state, the trace and the controller's link (41_init.md R109,
R112, R113, 70_reset_and_hazards.md R182-R187). -/

namespace Sys2Proof.Machine

/-- Settles O46: a step adds strobes and waits to the trace and keeps the configuration. -/
theorem traceOnlyGrows : Obligations.TraceOnlyGrows := by
  intro s t h
  obtain ⟨hcfg, evs, htrace, -⟩ := step_emitsStrobes h
  exact ⟨⟨evs, htrace.symm⟩, hcfg⟩

/-- The word of INIT is its whole encoding (R62). -/
theorem eq_of_decodes_init {w : ReqWord} (h : decode .req24 w = .instr .init) : w = 0x300000#24 :=
  (congrArg Prod.snd (encodeOfDecode .req24 w .init h).2).symm

/-! ### The link along a run -/

/-- A property of the link that a latched nibble keeps and a failed write cannot break. -/
theorem foldl_see_link {P : Link → Prop} (hturn : ∀ l, P l → P l.turn) (hunknown : P .unknown) (c : Config)
    (evs : List Event) (d : Display) (h : P d.link) : P (evs.foldl (fun d e => d.see c e) d).link := by
  induction evs generalizing d with
  | nil => exact h
  | cons e evs ih =>
    refine ih _ ?_
    cases e with
    | wait us => exact h
    | write v a =>
      cases a with
      | ok =>
        simp only [Display.see, Display.land]
        split
        · exact hturn _ h
        · exact h
      | fail landed => exact hunknown

/-- The link that belongs to the execution of `i` (R186, R187). -/
def LinkFits (i : Instr) (l : Link) : Prop :=
  if i = .init then l = .initializing ∨ l = .unknown else l ≠ .initializing

theorem turn_ne_initializing {l : Link} (h : l ≠ .initializing) : l.turn ≠ .initializing := by
  cases l <;> simp_all [Link.turn]

theorem LinkFits.turn {i : Instr} {l : Link} (h : LinkFits i l) : LinkFits i l.turn := by
  by_cases hi : i = .init
  · simp only [LinkFits, if_pos hi] at h ⊢
    rcases h with rfl | rfl
    · exact .inl rfl
    · exact .inr rfl
  · simp only [LinkFits, if_neg hi] at h ⊢
    exact turn_ne_initializing h

theorem linkFits_unknown (i : Instr) : LinkFits i .unknown := by
  unfold LinkFits
  split <;> simp

theorem initDone_ne_initializing (l : Link) : l.initDone ≠ .initializing := by
  cases l <;> simp [Link.initDone]

/-- The code and the link where the run of an executing request stops. -/
theorem RunResult.code_and_link {i : Instr} {k : Nat} {s t : State}
    (h : RunResult i ((eventList s.cfg i).drop k) k s t) (hs : s.GoesOn i) (hlink : LinkFits i s.display.link) :
    (t.initState = .ready ∧ t.display.link ≠ .initializing) ∨ (CodeOk i t.initState ∧ LinkFits i t.display.link) := by
  obtain ⟨evs, used, env, ini, d, -, -, hini, hres⟩ := h
  have hcode : CodeOk i ini := codeOk_of_slots (List.drop_subset ..) hs.code hini
  have hl : LinkFits i (evs.foldl (fun d e => d.see s.cfg e) s.display).link :=
    foldl_see_link (P := LinkFits i) (fun _ => LinkFits.turn) (linkFits_unknown i) s.cfg evs s.display hlink
  rcases hres with ⟨rfl, -⟩ | ⟨j, sl, -, rfl, -⟩
  · left
    rw [finish_initState, finish_link]
    by_cases hi : i = .init
    · simp [hi, initDone_ne_initializing]
    · exact ⟨by simpa [hi] using hcode.eq_ready hi, by simpa [hi, LinkFits] using hl⟩
  · exact .inr ⟨hcode, hl⟩

/-- Where a run stops, what is known of the controller fits the code. -/
theorem RunResult.linkOk {i : Instr} {k : Nat} {s t : State} (h : RunResult i ((eventList s.cfg i).drop k) k s t)
    (hs : s.GoesOn i) (hlink : LinkFits i s.display.link) : t.LinkOk := by
  rcases h.code_and_link hs hlink with ⟨hready, hl⟩ | ⟨hcode, hl⟩
  · exact ⟨by simp [hready], fun _ => hl, by simp [hready, InitState.isStep]⟩
  · by_cases hi : i = .init
    · subst hi
      have hne := (InitState.isStep_iff _).1 hcode.isStep
      exact ⟨fun hu => absurd hu hne.1, fun hr => absurd hr hne.2, fun _ => hl⟩
    · have hready := hcode.eq_ready hi
      exact ⟨by simp [hready], fun _ => by simpa [LinkFits, hi] using hl, by simp [hready, InitState.isStep]⟩

/-- During an execution the link fits the operation, when it fits the code. -/
theorem State.LinkOk.fits {s : State} (h : s.LinkOk) {i : Instr} (hcode : CodeOk i s.initState) :
    LinkFits i s.display.link := by
  obtain ⟨-, hready, hstep⟩ := h
  by_cases hi : i = .init
  · subst hi
    exact hstep hcode.isStep
  · simpa [LinkFits, hi] using hready (hcode.eq_ready hi)

theorem otherRequest_ne_initializing {l : Link} (h : l ≠ .initializing) : l.otherRequest ≠ .initializing := by
  cases l <;> simp_all [Link.otherRequest]

/-- The link an admitted request starts with fits it. -/
theorem linkFits_start {s : State} (h : s.LinkOk) {i : Instr} (hadm : Admitted i s) (hreq : i.isTransfer = false) :
    LinkFits i (s.display.link.start i) := by
  obtain ⟨-, hready, -⟩ := h
  cases i with
  | init => exact .inl rfl
  | nib => exact hready hadm
  | byte | goto | clear => exact otherRequest_ne_initializing (hready hadm)
  | reservedZero | reservedSixSeven | reservedHigh => exact hadm.elim
  | force8 | switch4 | functionSet | displayControl | entryModeSet | clearDisplay | setDdramAddr | charData =>
    cases hreq

/-- Settles O44: a run keeps what fits its operation and its end leaves INITIALIZING, and no other step makes a link
known. -/
theorem linkInvariantKept : Obligations.LinkInvariantKept := by
  intro s t hs hlink h
  cases blockStep_of_step hs h with
  | goesOn i k₀ k s' hseq hinit hdisplay hs' hrun =>
    exact hrun.linkOk hs' (hdisplay ▸ hlink.fits (hinit ▸ hs'.code))
  | starts own w rest i hbusy hoffers hdec hadm hrun =>
    rw [hrun]
    exact (begin_entered_result i _).linkOk (goesOn_entered hs hoffers hdec hadm)
      (linkFits_start hlink hadm (decodeRequest_isTransfer hdec))
  | rejects own w rest c hbusy hoffers ht =>
    obtain ⟨huninit, hready, hstep⟩ := hlink
    rw [ht]
    refine ⟨fun hu => ?_, fun hr => otherRequest_ne_initializing (hready hr), fun hp => ?_⟩
    · exact congrArg Link.otherRequest (huninit hu)
    · exact (hstep hp).imp (congrArg Link.otherRequest) (congrArg Link.otherRequest)
  | counts env hw hdelay ht =>
    rw [ht]
    exact hlink
  | resets landed env henv ht =>
    rw [ht]
    exact ⟨fun _ => rfl, by simp, by simp [InitState.isStep]⟩
  | stays hsame =>
    obtain ⟨huninit, hready, hstep⟩ := hlink
    rw [State.LinkOk, hsame.initState, hsame.display]
    exact ⟨huninit, hready, hstep⟩

/-! ### READY and UNINIT -/

/-- Where the run of an executing request stops: in a code of its execution, or ended in READY, and an INIT that ended
has responded OK. -/
theorem RunResult.code_or_ready {i : Instr} {k : Nat} {s t : State}
    (h : RunResult i ((eventList s.cfg i).drop k) k s t) (hs : s.GoesOn i) :
    CodeOk i t.initState ∨
      (t.initState = .ready ∧
        (i = .init → t.busy = false ∧ t.rspValid = true ∧ t.rsp = 0#2 ∧ t.req = 0x300000#24)) := by
  obtain ⟨-, hreq, -, -, -⟩ := h.keeps
  rcases h.ended_or_stands hs with ⟨s', rfl, -, -, hcode⟩ | ⟨k', sl, -, -, -, -, hcode, -⟩
  · by_cases hi : i = .init
    · subst hi
      exact .inr ⟨rfl, fun _ => ⟨rfl, rfl, rfl, hreq.trans (eq_of_decodes_init hs.decodes)⟩⟩
    · left
      rwa [finish_initState, if_neg hi]
  · exact .inl hcode

/-- The three transitions, for a run of `i` that started or went on in the state `s`. -/
theorem RunResult.transitions {i : Instr} {k : Nat} {s s' t : State}
    (h : RunResult i ((eventList s'.cfg i).drop k) k s' t) (hs' : s'.GoesOn i)
    (hinit : s.initState = .ready ↔ i ≠ .init) :
    (s.initState = .ready → t.initState = .ready) ∧ t.initState ≠ .uninit ∧
      (s.initState ≠ .ready → t.initState = .ready →
        t.busy = false ∧ t.rspValid = true ∧ t.rsp = 0#2 ∧ t.req = 0x300000#24) := by
  rcases h.code_or_ready hs' with hcode | ⟨hready, hend⟩
  · refine ⟨fun hr => hcode.eq_ready (hinit.1 hr), hcode.ne_uninit, fun hne hr => ?_⟩
    have hi : i = .init := by
      by_contra hi
      exact hne (hinit.2 hi)
    subst hi
    exact absurd hr ((InitState.isStep_iff _).1 hcode.isStep).2
  · refine ⟨fun _ => hready, by simp [hready], fun hne _ => hend ?_⟩
    by_contra hi
    exact hne (hinit.2 hi)

/-- An admitted request is INIT exactly outside READY (R163). -/
theorem ready_iff_of_admitted {i : Instr} {s : State} (hadm : Admitted i s) (hreq : i.isTransfer = false) :
    s.initState = .ready ↔ i ≠ .init := by
  refine ⟨?_, ready_of_admitted hadm hreq⟩
  rintro hr rfl
  cases hr.symm.trans hadm

/-- Settles O47: a run leaves READY never and ends in it only as INIT, a reset is the one step to UNINIT, and every
other step keeps the code. -/
theorem readyAndUninitTransitions : Obligations.ReadyAndUninitTransitions := by
  intro s t hs h
  have hkept : t.initState = s.initState →
      (s.initState = .ready → t.initState ≠ .ready → ∃ l env, s.env = .reset l :: env) ∧
      (s.initState ≠ .uninit → t.initState = .uninit → ∃ l env, s.env = .reset l :: env) ∧
      (s.initState ≠ .ready → t.initState = .ready →
        t.busy = false ∧ t.rspValid = true ∧ t.rsp = 0#2 ∧ t.req = 0x300000#24) := by
    intro heq
    rw [heq]
    exact ⟨fun hr hn => absurd hr hn, fun hn hu => absurd hu hn, fun hn hr => absurd hr hn⟩
  cases blockStep_of_step hs h with
  | goesOn i k₀ k s' hseq hinit hdisplay hs' hrun =>
    obtain ⟨hready, huninit, hend⟩ := hrun.transitions hs' (hinit ▸ hs'.code).ready_iff
    exact ⟨fun hr hn => absurd (hready hr) hn, fun _ hu => absurd hu huninit, hend⟩
  | starts own w rest i hbusy hoffers hdec hadm hrun =>
    have hres := begin_entered_result i (accept ⟨own, .req24, w⟩ rest s)
    rw [← hrun] at hres
    obtain ⟨hready, huninit, hend⟩ := hres.transitions (goesOn_entered hs hoffers hdec hadm)
      (ready_iff_of_admitted hadm (decodeRequest_isTransfer hdec))
    exact ⟨fun hr hn => absurd (hready hr) hn, fun _ hu => absurd hu huninit, hend⟩
  | rejects own w rest c hbusy hoffers ht => exact hkept (by rw [ht]; rfl)
  | counts env hw hdelay ht => exact hkept (by rw [ht])
  | resets landed env henv ht =>
    rw [ht]
    exact ⟨fun _ _ => ⟨landed, env, henv⟩, fun _ _ => ⟨landed, env, henv⟩, fun _ hr => by cases hr⟩
  | stays hsame => exact hkept hsame.initState

/-- Settles O48: only a run emits, an idle block starts one only with an admitted request, and in UNINIT that is
INIT. -/
theorem nothingBeforeInit : Obligations.NothingBeforeInit := by
  intro s t hs hbusy huninit h htrace
  obtain ⟨hidle, -, -⟩ := hs.idle hbusy
  cases blockStep_of_step hs h with
  | goesOn i k₀ k s' hseq hinit hdisplay hs' hrun => cases hidle.symm.trans hseq
  | starts own w rest i hb hoffers hdec hadm hrun =>
    have hi : i = .init := by
      by_contra hi
      cases huninit.symm.trans (ready_of_admitted hadm (decodeRequest_isTransfer hdec) hi)
    subst hi
    rw [eq_of_decodes_init hdec] at hoffers
    exact ⟨own, rest, hoffers⟩
  | rejects own w rest c hb hoffers ht => exact absurd (by rw [ht]; rfl) htrace
  | counts env hw hdelay ht => exact absurd (by rw [ht]) htrace
  | resets landed env henv ht => exact absurd (by rw [ht]; rfl) htrace
  | stays hsame => exact absurd hsame.trace htrace

/-! ### An unpaired NIB -/

/-- What is unknown of the controller stays unknown to the end of an operation other than INIT (R186). -/
theorem RunResult.link_unknown {i : Instr} {slots : List Slot} {k : Nat} {s t : State} (h : RunResult i slots k s t)
    (hi : i ≠ .init) (hlink : s.display.link = .unknown) : t.display.link = .unknown := by
  obtain ⟨evs, used, env, ini, d, -, -, -, hres⟩ := h
  have hl := foldl_see_unknown s.cfg evs s.display hlink
  rcases hres with ⟨rfl, -⟩ | ⟨j, sl, -, rfl, -⟩
  · rw [finish_link, if_neg hi]
    exact hl
  · exact hl

/-- Settles O50: a rejection makes the link unknown, and so does the start of BYTE, GOTO and CLEAR, which is the link
their run keeps; INIT is rejected in READY. -/
theorem otherRequestBreaksThePair : Obligations.OtherRequestBreaksThePair := by
  intro s t own w rest hbusy hready hlow hoffers hnib h
  have hreject : ∀ c, ((accept ⟨own, .req24, w⟩ rest s).reject c).display.link = .unknown :=
    fun c => congrArg Link.otherRequest hlow
  cases hdec : decode .req24 w with
  | error e =>
    rw [step_of_decode_error hbusy hoffers hdec] at h
    cases e <;> cases h
    exact hreject .illegal
  | instr i =>
    rw [step_of_decode_instr hbusy hoffers hdec] at h
    rcases exec_cases i (accept ⟨own, .req24, w⟩ rest s) with ⟨hadm, he⟩ | ⟨-, -, he | he⟩ <;>
      rw [he] at h <;> cases h
    · have hi := (ready_iff_of_admitted hadm (decodeRequest_isTransfer hdec)).1 hready
      have hstart : s.display.link.start i = .unknown := by
        have hreq := decodeRequest_isTransfer hdec
        rw [hlow]
        cases i with
        | nib rs n => exact absurd hdec (hnib rs n)
        | init => exact absurd rfl hi
        | byte | goto | clear | reservedZero | reservedSixSeven | reservedHigh => rfl
        | force8 | switch4 | functionSet | displayControl | entryModeSet | clearDisplay | setDdramAddr | charData =>
          cases hreq
      exact (begin_result i _).link_unknown hi hstart
    · exact hreject .badState
    · exact hreject .illegal

end Sys2Proof.Machine
end

section
/-! PROOFS. The frames of the operations (10_state.md R20, 40_nibble_byte.md R86, R87, 41_init.md R100, R112,
42_cursor_clear.md R120, R125), and STATUS while INIT executes and after it (R24, R25). -/

namespace Sys2Proof.Machine

/-! ### What an operation leaves unchanged -/

/-- The response port and the host are as before. -/
def PortsKept (s t : State) : Prop :=
  t.rsp = s.rsp ∧ t.rspValid = s.rspValid ∧ t.owner = s.owner ∧ t.host = s.host

/-- What ends an operation: a request responds to its owner, and a transfer touches no port (R85, log 8). -/
theorem finish_ports (i : Instr) (s : State) :
    (i.isTransfer = false ∧ (finish i s).host = s.host.answer s.owner) ∨
    (i.isTransfer = true ∧ PortsKept s (finish i s)) := by
  cases i with
  | nib | byte | init | goto | clear | reservedZero | reservedSixSeven | reservedHigh => exact .inl ⟨rfl, rfl⟩
  | force8 | switch4 | functionSet | displayControl | entryModeSet | clearDisplay | setDdramAddr | charData =>
    exact .inr ⟨rfl, rfl, rfl, rfl, rfl⟩

/-- The frame of every operation under every script, admitted or not, finished or not. -/
theorem exec_frame {i : Instr} {s t : State} (h : exec i s = .next t) :
    (t.cfg = s.cfg ∧ t.req = s.req ∧ t.offers = s.offers) ∧ (s.trace <+: t.trace ∧ t.env <:+ s.env) ∧
    (i ≠ .init → t.initState = s.initState) ∧
    ((t.busy = false ∧ i.isTransfer = false ∧ t.host = s.host.answer s.owner) ∨
      ((t.busy = false → i.isTransfer = true) ∧ PortsKept s t)) := by
  rcases exec_cases i s with ⟨-, he⟩ | ⟨-, htr, he | he⟩ <;> rw [he] at h <;> cases h
  · obtain ⟨hcfg, hreq, hoffers, htrace, henv⟩ := (begin_result i s).keeps
    refine ⟨⟨hcfg, hreq, hoffers⟩, ⟨htrace, henv⟩, ?_⟩
    obtain ⟨evs, used, env, ini, d, -, -, hini, hres⟩ := begin_result i s
    have hcode : i ≠ .init → ini = s.initState := fun hi => (init_or_initState_kept hini).resolve_left hi
    rcases hres with ⟨ht, -⟩ | ⟨j, sl, -, ht, -⟩ <;> rw [ht]
    · refine ⟨fun hi => by rw [finish_initState, if_neg hi]; exact hcode hi, ?_⟩
      rcases finish_ports i _ with ⟨htr, hhost⟩ | ⟨htr, hports⟩
      · exact .inl ⟨finish_busy .., htr, hhost⟩
      · exact .inr ⟨fun _ => htr, hports⟩
    · exact ⟨hcode, .inr ⟨fun hb => Bool.noConfusion hb, rfl, rfl, rfl, rfl⟩⟩
  all_goals
    exact ⟨⟨rfl, rfl, rfl⟩, ⟨List.prefix_rfl, List.suffix_rfl⟩, fun _ => rfl, .inl ⟨rfl, htr, rfl⟩⟩

/-- A response reaches its owner's thread and no other (R17). -/
theorem answer_threads_ne (h : HostSide) (o : Option Nat) (n : Nat) (hn : o ≠ some n) :
    (h.answer o).threads[n]? = h.threads[n]? := by
  cases o with
  | none => rfl
  | some m => exact List.getElem?_modify_ne _ _ (fun heq => hn (congrArg some heq))

/-- The frame of the host side of a request: its registers, and every thread but the owner's. -/
theorem exec_host_frame {i : Instr} {s t : State} (h : exec i s = .next t) :
    (t.host.lock = s.host.lock ∧ t.host.row = s.host.row ∧ t.host.col = s.host.col ∧ t.host.clear = s.host.clear) ∧
    ∀ n, s.owner ≠ some n → t.host.threads[n]? = s.host.threads[n]? := by
  obtain ⟨-, -, -, ⟨-, -, hhost⟩ | ⟨-, -, -, -, hhost⟩⟩ := exec_frame h <;> rw [hhost]
  · exact ⟨⟨answer_lock .., answer_row .., answer_col .., answer_clear ..⟩, answer_threads_ne s.host s.owner⟩
  · exact ⟨⟨rfl, rfl, rfl, rfl⟩, fun _ _ => rfl⟩

/-- While an operation executes, the response port and the host are as before. -/
theorem exec_ports_of_busy {i : Instr} {s t : State} (h : exec i s = .next t) (hbusy : t.busy = true) :
    PortsKept s t := by
  obtain ⟨-, -, -, ⟨hidle, -⟩ | ⟨-, hports⟩⟩ := exec_frame h
  · cases hidle.symm.trans hbusy
  · exact hports

/-- Settles O33: the frame of every operation, where the code is kept outside INIT. -/
theorem requestFrame : Obligations.RequestFrame := by
  intro i s t hi h
  have hne : i ≠ .init := by
    rcases hi with ⟨rs, n, rfl⟩ | ⟨rs, v, rfl⟩ | ⟨row, col, rfl⟩ | rfl <;> simp
  obtain ⟨⟨hcfg, hreq, hoffers⟩, ⟨htrace, henv⟩, hinit, -⟩ := exec_frame h
  obtain ⟨⟨hlock, hrow, hcol, hclear⟩, hthreads⟩ := exec_host_frame h
  exact ⟨hcfg, hinit hne, hreq, hoffers, hlock, hrow, hcol, hclear, hthreads, htrace, henv, exec_ports_of_busy h⟩

/-- Settles O34: the frame of every operation, and outside UNINIT the rejection. -/
theorem initFrame : Obligations.InitFrame := by
  intro s t h
  obtain ⟨⟨hcfg, hreq, hoffers⟩, ⟨htrace, henv⟩, -, -⟩ := exec_frame h
  obtain ⟨⟨hlock, hrow, hcol, hclear⟩, hthreads⟩ := exec_host_frame h
  refine ⟨hcfg, hreq, hoffers, hlock, hrow, hcol, hclear, hthreads, htrace, henv, fun huninit => ?_,
    exec_ports_of_busy h⟩
  have hreject : exec .init s = .next (s.reject .badState) := congrArg Host.Outcome.next (if_neg huninit)
  cases hreject.symm.trans h
  exact ⟨rfl, rfl, rfl⟩

/-- Settles O35: the frame of every operation, where a transfer leaves the ports alone at its end too. -/
theorem transferFrame : Obligations.TransferFrame := by
  intro i s t htr h
  have hne : i ≠ .init := by
    rintro rfl
    cases htr
  obtain ⟨⟨hcfg, hreq, hoffers⟩, ⟨htrace, henv⟩, hinit, ⟨-, hrequest, -⟩ | ⟨-, hrsp, hvalid, howner, hhost⟩⟩ :=
    exec_frame h
  · cases htr.symm.trans hrequest
  · exact ⟨hcfg, hinit hne, hreq, hoffers, hrsp, hvalid, howner, hhost, htrace, henv⟩

/-! ### STATUS -/

/-- Settles O12: STATUS has the two flags side by side. -/
theorem statusBits : Obligations.StatusBits := by
  intro s
  constructor
  · rw [State.status, State.busyFlag, BitVec.getLsbD_append, if_pos (by decide), BitVec.getLsbD_ofBool]
    simp
  · rw [State.status, State.readyFlag, BitVec.getLsbD_append, if_neg (by decide), BitVec.getLsbD_ofBool]
    simp

/-- STATUS in a step of INIT (R24, R25). -/
theorem status_of_step {s : State} (hbusy : s.busy = true) (hstep : s.initState.isStep = true) :
    s.status = 0b01#2 := by
  have hready : s.readyFlag = false := by simpa [State.readyFlag] using ((InitState.isStep_iff _).1 hstep).2
  rw [State.status, hready, State.busyFlag, hbusy]
  rfl

/-- STATUS once INIT has ended (R24, R25). -/
theorem status_of_ready {s : State} (hbusy : s.busy = false) (hready : s.initState = .ready) : s.status = 0b10#2 := by
  rw [State.status, State.readyFlag, State.busyFlag, hbusy, hready]
  rfl

/-- Settles O21: from its first entry on INIT stands in a code of a step, and its end is READY with OK. -/
theorem initStatus : Obligations.InitStatus := by
  intro s t huninit h
  rw [exec_admitted .init s huninit] at h
  cases h
  obtain ⟨evs, used, env, ini, d, -, -, hini, hres⟩ := begin_entered_result .init s
  have hcode : CodeOk .init ini := codeOk_of_slots (List.drop_subset ..) (s := entered .init s) rfl hini
  rcases hres with ⟨ht, -⟩ | ⟨j, sl, -, ht, -⟩ <;> rw [ht]
  · exact .inr ⟨rfl, status_of_ready rfl rfl, rfl, rfl⟩
  · exact .inl ⟨rfl, status_of_step rfl hcode.isStep, hcode.isStep⟩

end Sys2Proof.Machine
end

section
/-! PROOFS. The moves of the outside (45_host_frontends.md R152, 60_exceptions.md R162, 70_reset_and_hazards.md R182,
R191): what each of them does to an executing block and to an idle one with nothing held. -/

namespace Sys2Proof.Machine

/-! ### An executing block, or an idle one with nothing held -/

theorem step_of_executing {s : State} {i : Instr} {k : Nat} (hbusy : s.busy = true) (hseq : s.seq = .running i k) :
    step s = stepBusy i k s := by
  simp [step, hbusy, hseq]

theorem step_of_quiet {s : State} (hbusy : s.busy = false) (hoffers : s.offers = []) :
    step s = .next (stepIdle s) := by
  simp [step, hbusy, hoffers]

/-- The step of an executing block, and that of an idle one with nothing held. -/
theorem step_of_listening {s : State} (hs : (s.busy = true ∧ s.seq ≠ .idle) ∨ (s.busy = false ∧ s.offers = [])) :
    (∃ i k, step s = stepBusy i k s) ∨ step s = .next (stepIdle s) := by
  rcases hs with ⟨hbusy, hseq⟩ | ⟨hbusy, hoffers⟩
  · cases hrun : s.seq with
    | idle => exact absurd hrun hseq
    | running i k => exact .inl ⟨i, k, step_of_executing hbusy hrun⟩
  · exact .inr (step_of_quiet hbusy hoffers)

section
variable {s : State} (hs : (s.busy = true ∧ s.seq ≠ .idle) ∨ (s.busy = false ∧ s.offers = [])) {env : List Move}
include hs

theorem step_request {w : ReqWord} (henv : s.env = .request w :: env) :
    step s = .next (present w { s with env := env }) := by
  rcases step_of_listening hs with ⟨i, k, h⟩ | h <;> simp only [h, stepBusy, stepIdle, henv]

theorem step_call {c : HostCall} (henv : s.env = .call c :: env) :
    step s = .next (hostCall c { s with env := env }) := by
  rcases step_of_listening hs with ⟨i, k, h⟩ | h <;> simp only [h, stepBusy, stepIdle, henv]

theorem step_host {n : Nat} (henv : s.env = .host n :: env) :
    step s = .next (hostStep n { s with env := env }) := by
  rcases step_of_listening hs with ⟨i, k, h⟩ | h <;> simp only [h, stepBusy, stepIdle, henv]

theorem step_stall {extra : Nat} (henv : s.env = .stall extra :: env) : step s = .next { s with env := env } := by
  rcases step_of_listening hs with ⟨i, k, h⟩ | h <;> simp only [h, stepBusy, stepIdle, henv]

theorem step_reset {landed : Bool} (henv : s.env = .reset landed :: env) :
    step s = .next (blockReset landed { s with env := env }) := by
  rcases step_of_listening hs with ⟨i, k, h⟩ | h <;> simp only [h, stepBusy, stepIdle, henv]

end

/-- Settles O59: each move's step, none of which touches the block. -/
theorem hostStepsLeaveTheBlockAlone : Obligations.HostStepsLeaveTheBlockAlone := by
  intro s hs
  refine ⟨fun w env henv => step_request hs henv, fun c env henv => step_call hs henv, fun n env henv => ?_,
    fun x env henv => step_stall hs henv, fun env hbusy henv => ?_, fun hbusy henv => ?_⟩
  · have hsame := (sameBlock_env s env).trans (sameBlock_hostStep n { s with env := env })
    obtain ⟨more, hmore, -⟩ := hsame.offers
    exact ⟨_, step_host hs henv, rfl, hsame.trace, hsame.initState, hsame.busy, hsame.req, hsame.seq, hsame.delay,
      hsame.rsp, hsame.rspValid, hsame.display, hsame.cfg, hsame.owner, hostStep_env .., more, hmore.symm⟩
  · have hoffers : s.offers = [] := by simpa [hbusy] using hs
    rw [step_of_quiet hbusy hoffers]
    rcases henv with henv | ⟨a, henv⟩ <;> simp only [stepIdle, henv]
  · have hoffers : s.offers = [] := by simpa [hbusy] using hs
    rw [step_of_quiet hbusy hoffers, stepIdle, henv]

/-- After a reset the pins hold the old byte or the one that was on offer (R182). -/
theorem resetDisplay_pins (landed : Bool) (s : State) :
    (resetDisplay landed s).pins = s.display.pins ∨ some (resetDisplay landed s).pins = s.busOffer := by
  unfold resetDisplay
  cases s.busOffer with
  | none => exact .inl rfl
  | some v => cases landed <;> simp

/-- Settles O39: the step is the block's reset, whose registers are R181's. -/
theorem resetAbandons : Obligations.ResetAbandons := by
  intro s landed env henv hs
  exact ⟨_, step_reset hs henv, rfl, rfl, rfl, rfl, rfl, blockReset_status .., blockReset_busOffer .., rfl, rfl, rfl,
    rfl, rfl, rfl, resetDisplay_pins landed { s with env := env }⟩

/-! ### A busy block -/

/-- No step of a busy block drops or reorders what is held (R162). -/
theorem stepBusy_offers {i : Instr} {k : Nat} {s t : State} (h : stepBusy i k s = .next t) : s.offers <+: t.offers := by
  rcases stepBusy_cases h with ⟨-, rfl⟩ | ⟨us, -, rfl⟩ | ⟨us, env, -, -, -, rfl⟩ | ⟨us, env, -, -, -, rfl⟩ |
    ⟨landed, env, -, rfl⟩ | ⟨m, env, -, hout⟩
  · rw [(resume_result i k s).offers_eq]
  · rw [(endWait_result i k us s).offers_eq, emitWait_offers]
  · rw [(endWait_result i k us { s with env := env }).offers_eq, emitWait_offers]
  · exact List.prefix_rfl
  · exact List.prefix_rfl
  · obtain ⟨more, hmore, -⟩ := (sameBlock_of_outside hout).offers
    exact ⟨more, hmore.symm⟩

/-- Settles O8: a presented request joins the end of the queue, and no other move shortens it. -/
theorem heldWhileBusy : Obligations.HeldWhileBusy := by
  constructor
  · intro s i k w env hbusy hseq henv
    exact step_request (.inl ⟨hbusy, by simp [hseq]⟩) henv
  · intro s t hbusy h
    rcases step_cases h with ⟨i, k, -, -, hstep⟩ | ⟨hidle, -⟩ | ⟨o, rest, i, hidle, -⟩ | ⟨o, rest, hidle, -⟩
    · exact stepBusy_offers hstep
    all_goals cases hidle.symm.trans hbusy

/-- A write outstanding is no wait (R40). -/
theorem waiting_of_busOffer {s : State} (h : s.busOffer ≠ none) : s.waiting = none := by
  cases hseq : s.seq with
  | idle => exact absurd (busOffer_of_seq_idle hseq) h
  | running i k =>
    rcases position_cases hseq with ⟨sl, v, n, -, -, -, hw⟩ | ⟨sl, us, -, -, hb, -⟩ | ⟨-, hb, -⟩
    · exact hw
    · exact absurd hb h
    · exact absurd hb h

/-- With a write outstanding, a clock edge is used up and does nothing (R41, log 13). -/
theorem stepBusy_clock_at_write {s : State} {i : Instr} {k : Nat} {env : List Move} (hw : s.waiting = none)
    (henv : s.env = .clock :: env) : stepBusy i k s = .next { s with env := env } := by
  have hw' : ({ s with env := env } : State).waiting = none := hw
  simp only [stepBusy, henv, clockEdge, hw']

/-- With a write outstanding, no move but an answer and a reset touches the block (R191). -/
theorem sameBlock_of_step_at_write {s t : State} {i : Instr} {k : Nat} (hbusy : s.busy = true)
    (hseq : s.seq = .running i k) (hw : s.waiting = none) {m : Move} {env : List Move} (henv : s.env = m :: env)
    (hanswer : ∀ a, m ≠ .answer a) (hreset : ∀ l, m ≠ .reset l) (h : step s = .next t) : SameBlock s t := by
  have hs : (s.busy = true ∧ s.seq ≠ .idle) ∨ (s.busy = false ∧ s.offers = []) := .inl ⟨hbusy, by simp [hseq]⟩
  have hset := sameBlock_env s env
  cases m with
  | answer a => exact absurd rfl (hanswer a)
  | reset l => exact absurd rfl (hreset l)
  | stall x => cases (step_stall hs henv).symm.trans h; exact hset
  | clock =>
    cases ((step_of_executing hbusy hseq).trans (stepBusy_clock_at_write hw henv)).symm.trans h
    exact hset
  | request w => cases (step_request hs henv).symm.trans h; exact hset.trans (sameBlock_present ..)
  | call c => cases (step_call hs henv).symm.trans h; exact hset.trans (sameBlock_hostCall ..)
  | host n => cases (step_host hs henv).symm.trans h; exact hset.trans (sameBlock_hostStep ..)

/-- Settles O9: with nothing to come the step hangs, and every move but an answer and a reset leaves the block as it
is. -/
theorem unansweredWriteNeverPassed : Obligations.UnansweredWriteNeverPassed := by
  intro s i k hbusy hseq hoffer
  have hw := waiting_of_busOffer hoffer
  have hs : (s.busy = true ∧ s.seq ≠ .idle) ∨ (s.busy = false ∧ s.offers = []) := .inl ⟨hbusy, by simp [hseq]⟩
  have hhang : s.env = [] → step s = .fault .transportSilent := by
    intro henv
    obtain ⟨v, hv⟩ := Option.ne_none_iff_exists'.1 hoffer
    simp only [step_of_executing hbusy hseq, stepBusy, progress, henv, hw, hv]
  refine ⟨hhang, fun env henv => ?_, fun t hanswer hreset h => ?_⟩
  · rcases henv with henv | ⟨x, henv⟩
    · exact (step_of_executing hbusy hseq).trans (stepBusy_clock_at_write hw henv)
    · exact step_stall hs henv
  · cases henv : s.env with
    | nil => cases (hhang henv).symm.trans h
    | cons m env =>
      have hsame := sameBlock_of_step_at_write hbusy hseq hw henv (fun a ha => hanswer a env (ha ▸ henv))
        (fun l hl => hreset l env (hl ▸ henv)) h
      exact ⟨hsame.trace, hsame.seq, hsame.busy.trans hbusy, hsame.initState, hsame.rspValid⟩

end Sys2Proof.Machine
end

section
/-! PROOFS. The host agents (45_host_frontends.md): the invariant of the write lock and of the stored row (R141, R142,
R145, R148), the write path (R143, R144), SET_CLEAR (R150), the conversions of SET_ROW and SET_COL (R148, R149) and the
schedule of R153. -/

namespace Sys2Proof.Machine

/-! ### A response reaches its thread -/

theorem answer_some_of_thread {h : HostSide} {n : Nat} {t : Thread} (ht : h.threads[n]? = some t) :
    h.answer (some n) = { h with threads := h.threads.set n t.answered } := by
  simp only [HostSide.answer, List.modify_eq_set_getElem?, ht]
  rfl

theorem answer_some_of_none {h : HostSide} {n : Nat} (ht : h.threads[n]? = none) : h.answer (some n) = h := by
  simp only [HostSide.answer, List.modify_eq_set_getElem?, ht]
  rfl

/-! ### The invariant of the host -/

/-- The invariant of the host, as a property of the host's side alone. -/
def HostSide.Ok (h : HostSide) : Prop :=
  h.threads.countP Thread.holdsLock = (if h.lock then 1 else 0) ∧ 0 ≤ h.row ∧ h.threads.all Thread.rowOk = true

/-- A thread moves on from `t` to `t'` while the lock goes from `lock` to `lock'`: it takes the lock, frees it, or
leaves it alone (R142, R145). -/
def LockMove (t t' : Thread) (lock lock' : Bool) : Prop :=
  (t'.holdsLock = t.holdsLock ∧ lock' = lock) ∨
  (t.holdsLock = false ∧ t'.holdsLock = true ∧ lock = false ∧ lock' = true) ∨
  (t.holdsLock = true ∧ t'.holdsLock = false ∧ lock' = false)

/-- One thread moves on: the count of open write sessions follows the lock, and the row stays not negative. -/
theorem HostSide.Ok.set {h h' : HostSide} (hok : h.Ok) {n : Nat} {t t' : Thread} (ht : h.threads[n]? = some t)
    (hlock : LockMove t t' h.lock h'.lock) (hrow : t.rowOk = true → 0 ≤ h.row → 0 ≤ h'.row ∧ t'.rowOk = true) :
    ({ h' with threads := h.threads.set n t' } : HostSide).Ok := by
  obtain ⟨hcount, hnonneg, hall⟩ := hok
  obtain ⟨hn, rfl⟩ := List.getElem?_eq_some_iff.1 ht
  have hall' := List.all_eq_true.1 hall
  obtain ⟨hnonneg', hrow'⟩ := hrow (hall' _ (List.getElem_mem hn)) hnonneg
  refine ⟨?_, hnonneg', List.all_eq_true.2 fun x hx => ?_⟩
  · have hset := List.countP_set (p := Thread.holdsLock) (a := t') hn
    have hpos : h.threads[n].holdsLock = true → 0 < h.threads.countP Thread.holdsLock := fun hh =>
      List.countP_pos_iff.2 ⟨_, List.getElem_mem hn, hh⟩
    rcases hlock with ⟨hsame, hl⟩ | ⟨hfree, hheld, hl, hl'⟩ | ⟨hheld, hfree, hl'⟩
    · rw [hset, hsame, hl, ← hcount]
      split
      · next hh => exact Nat.sub_add_cancel (hpos hh)
      · rfl
    · simp [hset, hfree, hheld, hl', hcount, hl]
    · have hone : h.threads.countP Thread.holdsLock ≤ 1 := by
        rw [hcount]
        split <;> omega
      simp [hset, hfree, hheld, hl', hone]
  · rcases List.mem_or_eq_of_mem_set hx with hx | rfl
    · exact hall' x hx
    · exact hrow'

theorem threadStep_lockMove (c : Config) (h : HostSide) (t : Thread) :
    LockMove t (threadStep c h t).2.1 h.lock (threadStep c h t).1.lock := by
  cases t with
  | writeLock buf len copied =>
    cases hl : h.lock with
    | true => exact .inl (by simp [threadStep_writeLock_held c hl, Thread.holdsLock, hl])
    | false => exact .inr (.inl (by simp [threadStep_writeLock_free c hl, Thread.holdsLock]))
  | writing left k =>
    cases left with
    | nil => exact .inr (.inr ⟨rfl, rfl, rfl⟩)
    | cons b left => exact .inl ⟨rfl, rfl⟩
  | clearStore x =>
    refine .inl ⟨?_, rfl⟩
    by_cases hx : x = 0 <;> simp [threadStep, hx, Thread.holdsLock]
  | writeCopy | writeAwait | rowStore | rowRead | rowIssue | colStore | colRead | colIssue | gotoAwait | clearIssue
  | clearAwait | clearZero | returned => exact .inl ⟨rfl, rfl⟩

theorem threadStep_rowOk (c : Config) (h : HostSide) (t : Thread) (ht : t.rowOk = true) (hrow : 0 ≤ h.row) :
    0 ≤ (threadStep c h t).1.row ∧ (threadStep c h t).2.1.rowOk = true := by
  cases t with
  | writeLock buf len copied =>
    simp only [threadStep]
    split <;> exact ⟨hrow, rfl⟩
  | writing left k => cases left <;> exact ⟨hrow, rfl⟩
  | rowStore x => exact ⟨of_decide_eq_true ht, rfl⟩
  | clearStore x =>
    refine ⟨hrow, ?_⟩
    by_cases hx : x = 0 <;> simp [threadStep, hx, Thread.rowOk]
  | writeCopy | writeAwait | rowRead | rowIssue | colStore | colRead | colIssue | gotoAwait | clearIssue | clearAwait
  | clearZero | returned => exact ⟨hrow, rfl⟩

theorem HostSide.Ok.hostStep {s : State} (h : s.host.Ok) (n : Nat) : (hostStep n s).host.Ok := by
  cases ht : s.host.threads[n]? with
  | none => simpa only [Machine.hostStep, ht] using h
  | some t =>
    rw [hostStep_of_thread ht]
    exact h.set ht (threadStep_lockMove ..) (threadStep_rowOk s.cfg s.host t)

/-- A response neither takes nor frees the lock, and stores no row. -/
theorem answered_kept (t : Thread) : t.answered.holdsLock = t.holdsLock ∧ t.answered.rowOk = t.rowOk := by
  cases t <;> exact ⟨rfl, rfl⟩

theorem HostSide.Ok.answer {h : HostSide} (hok : h.Ok) (o : Option Nat) : (h.answer o).Ok := by
  cases o with
  | none => exact hok
  | some n =>
    cases ht : h.threads[n]? with
    | none => rwa [answer_some_of_none ht]
    | some t =>
      rw [answer_some_of_thread ht]
      obtain ⟨hlock, hrow⟩ := answered_kept t
      exact hok.set ht (.inl ⟨hlock, rfl⟩) fun hr hnonneg => ⟨hnonneg, hrow.trans hr⟩

/-- A call checks its row before it starts, and no call starts with the lock (R142, R148). -/
theorem startCall_ok (c : HostCall) : (startCall c).holdsLock = false ∧ (startCall c).rowOk = true := by
  cases c with
  | write buf len copied => exact ⟨rfl, rfl⟩
  | setCol x => cases x <;> exact ⟨rfl, rfl⟩
  | setClear x => cases x <;> exact ⟨rfl, rfl⟩
  | setRow x =>
    cases x with
    | notInteger => exact ⟨rfl, rfl⟩
    | int x =>
      simp only [startCall]
      split
      · exact ⟨rfl, rfl⟩
      · next hx => exact ⟨rfl, by simpa [Thread.rowOk] using hx⟩

theorem HostSide.Ok.call {h : HostSide} (hok : h.Ok) (c : HostCall) :
    ({ h with threads := h.threads ++ [startCall c] } : HostSide).Ok := by
  obtain ⟨hcount, hrow, hall⟩ := hok
  obtain ⟨hlock, hrow'⟩ := startCall_ok c
  exact ⟨by simp [hcount, hlock], hrow, by rw [List.all_append, hall]; simp [hrow']⟩

/-- What a step can do to the host: nothing, a response, a call that begins, or a host step. -/
inductive HostMove (h : HostSide) : HostSide → Prop
  | none : HostMove h h
  | response (o : Option Nat) : HostMove h (h.answer o)
  | call (c : HostCall) : HostMove h { h with threads := h.threads ++ [startCall c] }
  | step (n : Nat) (s : State) (hs : s.host = h) : HostMove h (hostStep n s).host

theorem HostSide.Ok.move {h h' : HostSide} (hok : h.Ok) (hmove : HostMove h h') : h'.Ok := by
  cases hmove with
  | none => exact hok
  | response o => exact hok.answer o
  | call c => exact hok.call c
  | step n s hs =>
    subst hs
    exact hok.hostStep n

/-- A run responds to the owner of its request when it ends, and does nothing else to the host. -/
theorem RunResult.hostMove {i : Instr} {slots : List Slot} {k : Nat} {s t : State} (h : RunResult i slots k s t) :
    HostMove s.host t.host := by
  obtain ⟨evs, used, env, ini, d, -, -, -, ⟨rfl, -⟩ | ⟨j, sl, -, rfl, -⟩⟩ := h
  · rcases finish_ports i { observe evs env s with initState := ini, delay := d } with ⟨-, heq⟩ | ⟨-, -, -, -, heq⟩ <;>
      rw [heq]
    · exact .response s.owner
    · exact .none
  · exact .none

theorem exec_hostMove {i : Instr} {s t : State} (h : exec i s = .next t) : HostMove s.host t.host := by
  obtain ⟨-, -, -, ⟨-, -, heq⟩ | ⟨-, -, -, -, heq⟩⟩ := exec_frame h <;> rw [heq]
  · exact .response s.owner
  · exact .none

/-- The last of the cases of `stepBusy_cases` and `stepIdle_cases`. -/
theorem hostMove_of_outside {s t : State} {m : Move} {env : List Move}
    (h : t = { s with env := env } ∨ (∃ w, m = .request w ∧ t = present w { s with env := env }) ∨
      (∃ c, m = .call c ∧ t = hostCall c { s with env := env }) ∨
      (∃ n, m = .host n ∧ t = hostStep n { s with env := env })) : HostMove s.host t.host := by
  rcases h with rfl | ⟨w, -, rfl⟩ | ⟨c, -, rfl⟩ | ⟨n, -, rfl⟩
  · exact .none
  · exact .none
  · exact .call c
  · exact .step n { s with env := env } rfl

theorem step_hostMove {s t : State} (h : step s = .next t) : HostMove s.host t.host := by
  rcases step_cases h with ⟨i, k, -, -, hbusy⟩ | ⟨-, -, rfl⟩ | ⟨o, rest, i, -, -, -, hexec⟩ | ⟨o, rest, -, -, -, rfl⟩
  · rcases stepBusy_cases hbusy with ⟨-, rfl⟩ | ⟨us, -, rfl⟩ | ⟨us, env, -, -, -, rfl⟩ | ⟨us, env, -, -, -, rfl⟩ |
      ⟨landed, env, -, rfl⟩ | ⟨m, env, -, hmove⟩
    · exact (resume_result i k s).hostMove
    · exact (endWait_result i k us s).hostMove
    · exact (endWait_result i k us { s with env := env }).hostMove
    · exact .none
    · exact .none
    · exact hostMove_of_outside hmove
  · rcases stepIdle_cases s with hidle | ⟨landed, env, -, hidle⟩ | ⟨m, env, -, hmove⟩
    · rw [hidle]
      exact .none
    · rw [hidle]
      exact .none
    · exact hostMove_of_outside hmove
  · rw [← accept_host o rest s]
    exact exec_hostMove hexec
  · rw [← accept_host o rest s]
    exact .response _

/-- Settles O43: a response, a call that begins and a host step each keep the invariant. -/
theorem hostInvariantKept : Obligations.HostInvariantKept :=
  fun s _ (hok : s.host.Ok) h => hok.move (step_hostMove h)

/-! ### The write path -/

/-- Settles O53: the copy step issues nothing, and its count is the least of four bounds. -/
theorem copyIsABoundedPrefix : Obligations.CopyIsABoundedPrefix := by
  intro s n buf len copied ht
  have hk : copyCount s.cfg buf len copied = min copied (min (min len s.cfg.maxWrite) buf.length) := rfl
  refine ⟨_, _, hostStep_of_issues_none ht rfl, List.take_prefix .., ?_, ?_, ?_, fun hlen hdraw => ?_⟩
  · rw [List.length_take]
    omega
  all_goals omega

/-- R75, R144: the word of `PUTC b` as a number. -/
theorem encodeWord_putc (b : Byte) :
    encodeWord (putc b) = BitVec.ofNat 24 (if b.toNat = 10 then 0x2000C0 else 0x210000 + b.toNat) := by
  revert b; decide

/-- Settles O54: the write path's steps are those of its threads, and a response is a step of the thread it is for. -/
theorem writePathIssuesPutc : Obligations.WritePathIssuesPutc := by
  refine ⟨fun _ _ => rfl, fun h n t ht => answer_some_of_thread ht, fun s n k left ht => hostStep_of_waits ht rfl,
    fun s n k => ⟨fun b left ht => ?_, fun ht => hostStep_of_issues_none ht rfl⟩⟩
  have hissued : issued n (some (putc b)) =
      [⟨some n, .req24, BitVec.ofNat 24 (if b.toNat = 10 then 0x2000C0 else 0x210000 + b.toNat)⟩] := by
    rw [issued, encodeWord_putc]
  rw [hostStep_of_thread ht, ← hissued]
  rfl

/-! ### SET_CLEAR -/

/-- Settles O57: the three steps of SET_CLEAR are those of its threads, and only the second issues a request. -/
theorem setClearIsOneShot : Obligations.SetClearIsOneShot := by
  refine ⟨rfl, fun s n ht => hostStep_of_waits ht rfl, rfl, fun s n x => ⟨rfl, fun hstore => ?_, fun hissue => ?_,
    fun hzero => hostStep_of_issues_none hzero rfl⟩⟩
  · exact hostStep_of_issues_none hstore rfl
  · exact hostStep_of_thread hissue

/-! ### The conversions of SET_ROW and SET_COL -/

/-- Settles O56: 255 is a row above 3 already, and 128 divides 256. -/
theorem hostConversionsKeepTheAddress : Obligations.HostConversionsKeepTheAddress := by
  intro x y hx
  have hrow : (clampRow (rowOperand x)).val = (min x 3).toNat := by
    simp only [clampRow, toNat_rowOperand]
    omega
  rw [toNat_ddramAddr, toNat_colOperand]
  obtain hr | hr | hr | hr :
      (min x 3).toNat = 0 ∨ (min x 3).toNat = 1 ∨ (min x 3).toNat = 2 ∨ (min x 3).toNat = 3 := by omega
  all_goals
    rw [hr] at hrow ⊢
    rw [Fin.ext (b := ⟨_, by omega⟩) hrow]
    simp only [rowOffset, BitVec.toNat_ofNat]
    omega

/-! ### The schedule of R153 -/

/-- A host step of a run: the block executes and stays as it is. -/
theorem run_host {s : State} (hbusy : s.busy = true) (hseq : s.seq ≠ .idle) {n : Nat} {env : List Move}
    (henv : s.env = .host n :: env) (k : Nat) :
    Host.Core.run core (k + 1) s = Host.Core.run core k (hostStep n { s with env := env }) := by
  have hstep : core.step s = .next (hostStep n { s with env := env }) := step_host (.inl ⟨hbusy, hseq⟩) henv
  simp only [Host.Core.run, hstep]

/-- Settles O60: the six host steps, one after another. -/
theorem staleCoordinateRace : Obligations.StaleCoordinateRace := by
  intro s hbusy hseq hoffers hhost henv
  rw [run_host hbusy hseq henv]
  iterate 5 rw [run_host (by simpa using hbusy) (by simpa using hseq) (hostStep_env ..)]
  refine ⟨_, rfl, ?_⟩
  have hlast : encodeWord (.goto (rowOperand 1) (colOperand 0)) = 0x400100#24 := by decide
  have hfirst : encodeWord (.goto (rowOperand 1) (colOperand 5)) = 0x400105#24 := by decide
  simp [hostStep, threadStep, issued, hhost, hoffers, hfirst, hlast]

end Sys2Proof.Machine
end

section
/-! PROOFS. The sequencer against the spec's pseudocode (10_state.md R23), and the statements about single operations
that follow from it (40_nibble_byte.md R80-R87, 42_cursor_clear.md R126, 30_encoding.md R66-R73, 70_reset_and_hazards.md
R192). -/

namespace Sys2Proof.Machine

/-! ### Every operation's list performs its pseudocode -/

theorem performs_nil : Performs [] fun as => some ([], as) := by
  intro rest as
  cases h : play rest 0 as <;> simp [h, prepend]

theorem performs_eventList (c : Config) (i : Instr) : Performs (eventList c i) (procedure c i) := by
  cases i with
  | init => exact performs_initSlots c
  | clear => exact performs_clearSlots c
  | nib | force8 | switch4 => exact performs_nibbleSlots _ _ _
  | byte | goto | functionSet | displayControl | entryModeSet | clearDisplay | setDdramAddr | charData =>
    exact performs_byteSlots _ _ _
  | reservedZero | reservedSixSeven | reservedHigh => exact performs_nil

/-- An admitted operation, with answers under which its pseudocode ends, emits the events of the pseudocode. -/
theorem exec_of_procedure {i : Instr} {s : State} {as left : List Answer} {rest : List Move} {evs : List Event}
    (hadm : Admitted i s) (henv : s.env = as.map .answer ++ rest) (hrest : NoStall rest)
    (h : procedure s.cfg i as = some (evs, left)) :
    exec i s = .next (endState i evs (left.map .answer ++ rest) s) :=
  exec_play i s as left rest evs hadm henv hrest (((performs_eventList s.cfg i).play_eq as).trans h)

/-- Settles O31: every event list performs its pseudocode. -/
theorem sequencerIsThePseudocode : Obligations.SequencerIsThePseudocode :=
  fun _ _ _ _ _ _ hadm henv hrest h => exec_of_procedure hadm henv hrest h

/-- An admitted operation with all its writes answered `ok`. -/
theorem exec_of_succeeds {i : Instr} {s : State} {n : Nat} {env : List Move} {evs : List Event}
    (hadm : Admitted i s) (henv : s.env = List.replicate n (.answer .ok) ++ env) (hstall : NoStall env)
    (h : SucceedsWith n evs (procedure s.cfg i)) : exec i s = .next (endState i evs env s) :=
  exec_of_procedure (as := List.replicate n .ok) (left := []) hadm (by rw [henv, List.map_replicate]) hstall
    (by simpa using h [])

/-! ### A failed write that ends the operation -/

/-- The run of a nibble that uses exactly the answers `as` (R80, R81). After a failed write nothing is waited for, so
only a nibble that is done looks at the script behind them. -/
theorem runSlots_nibble {i : Instr} {s : State} {c : Config} {n : Nibble} {rs : RegSel} {as : List Answer}
    {env : List Move} {evs : List Event} {o : NibbleOutcome} (hcfg : s.cfg = c)
    (hproc : procSendNibble c n rs as = some (evs, o, [])) (henv : s.env = as.map .answer ++ env)
    (hstall : o = .done → NoStall env) (hdelay : s.delay = 0)
    (beyond : Nat) (rest : List Slot) (k : Nat) :
    runSlots i (nibbleSlots c n rs beyond ++ rest) k 0 s =
      runSlots i rest (k + 4) (o.removes beyond) (observe evs env s) := by
  subst hcfg
  have hd : s = { s with delay := 0 } := by rw [← hdelay]
  match as, hproc with
  | [.fail l], hproc =>
    cases hproc
    simp only [nibbleSlots, List.cons_append, List.nil_append]
    rw [runSlots_write_answered i _ _ _ _ _ (.fail l) env henv, Answer.removes, Nat.add_comm 3 beyond]
    rfl
  | [.ok, .fail l], hproc =>
    cases hproc
    simp only [nibbleSlots, List.cons_append, List.nil_append]
    rw [runSlots_write_answered i _ _ _ _ _ .ok (.answer (.fail l) :: env) henv, Answer.removes,
      runSlots_wait_passes, runSlots_write_answered i _ _ _ _ _ (.fail l) env rfl, Answer.removes,
      Nat.add_comm 1 beyond, runSlots_skip, hd]
    · simp [observe, State.emitWrite, State.emitWait, State.emit, Display.see, NibbleOutcome.removes, strobeHigh,
        strobeLow]
    · trivial
  | [.ok, .ok], hproc =>
    cases hproc
    simp only [nibbleSlots, List.cons_append, List.nil_append]
    rw [runSlots_write_answered i _ _ _ _ _ .ok (.answer .ok :: env) henv, Answer.removes,
      runSlots_wait_passes, runSlots_write_answered i _ _ _ _ _ .ok env rfl, Answer.removes,
      runSlots_wait_passes, hd]
    · simp [observe, State.emitWrite, State.emitWait, State.emit, Display.see, NibbleOutcome.removes, strobeHigh,
        strobeLow]
    · exact hstall rfl
    · trivial

/-- A failure that removes all that is left of the list ends the operation (R84). -/
theorem runSlots_removed (i : Instr) {slots : List Slot} {n : Nat} (h : slots.length = n) (k : Nat) (s : State) :
    runSlots i slots k n s = finish i s := by
  subst h
  induction slots generalizing k with
  | nil => rfl
  | cons sl slots ih => exact ih (k + 1)

/-- The end of NIB and BYTE, as the statements name it. -/
theorem finish_observe_started {i : Instr} {s : State} (hadm : Admitted i s) (hreq : i.isTransfer = false)
    (evs : List Event) (env : List Move) :
    finish i (observe evs env (started i s)) = respondedOk i evs env s := by
  have h := finish_observed i s evs env s.initState (.inr rfl) (.inr hadm)
  rwa [endState, hreq] at h

/-- NIB with answers that SendNibble uses up (R86). -/
theorem exec_nib_of_sendNibble {s : State} {n : Nibble} {rs : RegSel} {as : List Answer} {env : List Move}
    {evs : List Event} {o : NibbleOutcome} (hs : s.initState = .ready)
    (hproc : procSendNibble s.cfg n rs as = some (evs, o, [])) (henv : s.env = as.map .answer ++ env)
    (hstall : o = .done → NoStall env) : exec (.nib rs n) s = .next (respondedOk (.nib rs n) evs env s) := by
  rw [exec_admitted (.nib rs n) s hs, begin, eventList, ← List.append_nil (nibbleSlots ..),
    runSlots_nibble (s := started (.nib rs n) s) (c := s.cfg) rfl hproc henv hstall rfl,
    runSlots_removed _ (by cases o <;> rfl),
    finish_observe_started (i := .nib rs n) hs rfl]

/-- Settles O13: each of the three scripts is used up by SendNibble, done or failed. -/
theorem nibStrobesOnce : Obligations.NibStrobesOnce := by
  intro rs n s env l hs base en
  have hbase : base = controlBase s.cfg n rs := by cases rs <;> rfl
  rw [hbase]
  exact ⟨fun henv hstall => exec_nib_of_sendNibble (as := [.ok, .ok]) hs rfl henv fun _ => hstall,
    fun henv => exec_nib_of_sendNibble (as := [.fail l]) hs rfl henv nofun,
    fun henv => exec_nib_of_sendNibble (as := [.ok, .fail l]) hs rfl henv nofun⟩

section
variable {s : State} {v : Byte} {rs : RegSel} {as : List Answer} {env : List Move} {evs : List Event}
  (hs : s.initState = .ready) (hscope : s.cfg.failScope = .byte)
include hs hscope

/-- Under BYTE scope a failed high nibble ends the byte (R84). -/
theorem exec_byte_of_high_failed (hproc : procSendNibble s.cfg (highNibble v) rs as = some (evs, .failed, []))
    (henv : s.env = as.map .answer ++ env) : exec (.byte rs v) s = .next (respondedOk (.byte rs v) evs env s) := by
  rw [exec_admitted (.byte rs v) s hs, begin, eventList, byteSlots, List.append_assoc,
    runSlots_nibble (s := started (.byte rs v) s) (c := s.cfg) rfl hproc henv nofun rfl,
    runSlots_removed _ (by simp [nibbleSlots, hscope, NibbleOutcome.removes, FailScope.reach]),
    finish_observe_started (i := .byte rs v) hs rfl]

/-- Under BYTE scope a failed low nibble ends the byte (R84). -/
theorem exec_byte_of_low_failed (hproc : procSendNibble s.cfg (lowNibble v) rs as = some (evs, .failed, []))
    (henv : s.env = .answer .ok :: .answer .ok :: (as.map .answer ++ env)) (has : as ≠ []) :
    exec (.byte rs v) s =
      .next (respondedOk (.byte rs v) (nibbleEvents s.cfg (highNibble v) rs ++ evs) env s) := by
  have hanswer : NoStall (as.map .answer ++ env) := by
    cases as with
    | nil => exact absurd rfl has
    | cons a as => trivial
  have hhigh : procSendNibble s.cfg (highNibble v) rs [.ok, .ok] =
      some (nibbleEvents s.cfg (highNibble v) rs, .done, []) := rfl
  rw [exec_admitted (.byte rs v) s hs, begin, eventList, byteSlots, List.append_assoc,
    runSlots_nibble (s := started (.byte rs v) s) (c := s.cfg) (env := as.map Move.answer ++ env) rfl hhigh henv
      (fun _ => hanswer) rfl, NibbleOutcome.removes,
    runSlots_nibble (s := observe _ _ (started (.byte rs v) s)) (c := s.cfg) rfl hproc rfl nofun rfl,
    runSlots_removed _ (by simp [hscope, NibbleOutcome.removes, FailScope.reach]),
    ← finish_observe_started (i := .byte rs v) hs rfl]
  simp [observe]

end

/-- Settles O16: the failed write is in the high nibble or in the low one, and the failure removes all that is left. -/
theorem byteScopeEndsTheByte : Obligations.ByteScopeEndsTheByte := by
  intro rs v s env l hs hscope hE h lE lo done
  exact ⟨fun henv => exec_byte_of_high_failed (as := [.fail l]) hs hscope rfl henv,
    fun henv => exec_byte_of_high_failed (as := [.ok, .fail l]) hs hscope rfl henv,
    fun henv => exec_byte_of_low_failed (as := [.fail l]) hs hscope rfl henv (by simp),
    fun henv => exec_byte_of_low_failed (as := [.ok, .fail l]) hs hscope rfl henv (by simp)⟩

/-! ### A byte -/

/-- BYTE with answers that SendByte uses up (R87). -/
theorem exec_byte_of_sendByte {s : State} {v : Byte} {rs : RegSel} {as : List Answer} {env : List Move}
    {evs : List Event} (hs : s.initState = .ready) (hstall : NoStall env)
    (hproc : procSendByte s.cfg v rs as = some (evs, [])) (henv : s.env = as.map .answer ++ env) :
    exec (.byte rs v) s = .next (respondedOk (.byte rs v) evs env s) :=
  exec_of_procedure (i := .byte rs v) hs henv hstall hproc

/-- Settles O15: SendByte with four `ok` answers. -/
theorem byteSendsHighThenLow : Obligations.ByteSendsHighThenLow :=
  fun rs v s _ hs henv hstall =>
    exec_of_succeeds (i := .byte rs v) hs henv hstall (succeedsWith_byte s.cfg v rs)

/-- Settles O17: under NIBBLE scope SendByte goes on to the low nibble and the settle wait, whatever has failed. -/
theorem nibbleScopeGoesOn : Obligations.NibbleScopeGoesOn := by
  intro rs v s env l m hs hscope hstall hE h lE lo done
  refine ⟨exec_byte_of_sendByte (as := [.fail l, .ok, .ok]) hs hstall ?_,
    exec_byte_of_sendByte (as := [.ok, .fail l, .ok, .ok]) hs hstall ?_,
    exec_byte_of_sendByte (as := [.ok, .ok, .fail l]) hs hstall ?_,
    exec_byte_of_sendByte (as := [.ok, .ok, .ok, .fail l]) hs hstall ?_,
    exec_byte_of_sendByte (as := [.fail l, .fail m]) hs hstall ?_⟩ <;>
  simp [procSendByte, procSendNibble, hscope, nibbleEvents, strobeHigh, strobeLow, hE, h, lE, lo]

/-! ### Reading a byte back -/

theorem enableOf_strobeHigh (c : Config) (n : Nibble) (rs : RegSel) : enableOf c (strobeHigh c n rs) = true := by
  simp [enableOf, getLsbD_strobeHigh]

section
variable {c : Config} (hc : c.Wf)
include hc

theorem enableOf_strobeLow (n : Nibble) (rs : RegSel) : enableOf c (strobeLow c n rs) = false := by
  rw [strobeLow_eq_controlBase hc]
  exact getLsbD_controlBase_enable hc n rs

/-- The base byte has register-select as sent (R80). -/
theorem getLsbD_controlBase_rs (n : Nibble) (rs : RegSel) :
    (controlBase c n rs).getLsbD c.rsBit.val = (rs == .data) := by
  obtain ⟨⟨-, -, hrsbl, -⟩, -⟩ := hc
  rw [getLsbD_controlBase]
  cases rs <;> simp [hrsbl]

/-- A nibble's pulse spells the nibble with its register-select (R48). -/
theorem pulses_nibbleEvents (n : Nibble) (rs : RegSel) (rest : List Event) :
    pulses c none (nibbleEvents c n rs ++ rest) = (rs == .data, n) :: pulses c none rest := by
  have hhigh : strobeHigh c n rs = strobeLow c n rs ||| bitMask c.enBit := by
    rw [strobeLow_eq_controlBase hc, strobeHigh]
  simp only [nibbleEvents, List.cons_append, List.nil_append, pulses, enableOf_strobeHigh, enableOf_strobeLow hc,
    if_true, Bool.false_eq_true, if_false]
  rw [if_pos (congrArg some hhigh), strobeLow_eq_controlBase hc, getLsbD_controlBase_rs hc, highNibble_controlBase]

end

/-- Settles O18: a byte is two nibbles, each a pulse, and a wait. -/
theorem pulsesReadBack : Obligations.PulsesReadBack := by
  intro c v rs hc
  rw [byteEvents, List.append_assoc, pulses_nibbleEvents hc, pulses_nibbleEvents hc]
  rfl

/-! ### CLEAR and the transfers -/

/-- Settles O27: CLEAR is SendByte(0x01, 0), which ends within four answers, and the clear wait after it. -/
theorem clearAlwaysWaits : Obligations.ClearAlwaysWaits := by
  intro s as rest hs henv hlen hstall
  obtain ⟨evs, left, hproc, -, -⟩ := endsWithin_byte s.cfg 0x01#8 .command as hlen
  have hclear : procedure s.cfg .clear as = some (evs ++ [.wait s.cfg.tClear], left) := by
    simp only [procedure, procClear, procThen, hproc, procWait]
  refine ⟨evs, left, exec_of_procedure (i := .clear) hs henv hstall hclear, hproc, ?_⟩
  rintro ⟨more, rfl⟩
  rw [succeedsWith_byte] at hproc
  cases hproc
  rfl

/-- Settles O29: the two nibbles without failure. -/
theorem nibbleTransfersComplete : Obligations.NibbleTransfersComplete := by
  intro s env henv hstall
  have send := fun n => succeedsWith_nibble s.cfg n .command
  exact ⟨exec_of_succeeds (i := .force8) trivial henv hstall (send _),
    exec_of_succeeds (i := .switch4) trivial henv hstall (send _)⟩

/-- Settles O30: the six bytes without failure. -/
theorem byteTransfersComplete : Obligations.ByteTransfersComplete := by
  intro s env henv hstall
  have send := succeedsWith_byte s.cfg
  exact ⟨exec_of_succeeds (i := .functionSet) trivial henv hstall (send _ _),
    exec_of_succeeds (i := .displayControl) trivial henv hstall (send _ _),
    exec_of_succeeds (i := .entryModeSet) trivial henv hstall (send _ _),
    exec_of_succeeds (i := .clearDisplay) trivial henv hstall (send _ _),
    fun a => exec_of_succeeds (i := .setDdramAddr a) trivial henv hstall (send _ _),
    fun v => exec_of_succeeds (i := .charData v) trivial henv hstall (send _ _)⟩

/-! ### The controller's link (R185, R186) -/

/-- A nibble without failure turns the parity (R48, R185). -/
theorem foldl_see_nibbleEvents {c : Config} (hc : c.Wf) (n : Nibble) (rs : RegSel) (d : Display) :
    (nibbleEvents c n rs).foldl (fun d e => d.see c e) d = ⟨strobeLow c n rs, d.link.turn⟩ := by
  simp [nibbleEvents, Display.see, Display.land, enableOf_strobeHigh, enableOf_strobeLow hc]

/-- A byte without failure turns it twice. -/
theorem foldl_see_byteEvents {c : Config} (hc : c.Wf) (v : Byte) (rs : RegSel) (d : Display) :
    ((byteEvents c v rs).foldl (fun d e => d.see c e) d).link = d.link.turn.turn := by
  simp only [byteEvents, List.foldl_append, foldl_see_nibbleEvents hc]
  rfl

/-- INIT without failure has an INIT to its end. -/
theorem foldl_see_initEvents {c : Config} (hc : c.Wf) {d : Display} (hd : d.link = .initializing) :
    ((initEvents c).foldl (fun d e => d.see c e) d).link = .initializing := by
  have hwait : ∀ (us : Nat) (d : Display), [Event.wait us].foldl (fun d e => d.see c e) d = d := fun _ _ => rfl
  simp only [initEvents, List.foldl_append, foldl_see_nibbleEvents hc, foldl_see_byteEvents hc, hwait, hd, Link.turn]

/-- The events of an operation whose writes are all answered `ok`, and how many writes they are: 24 answers suffice for
every operation. -/
theorem exec_of_24_ok {i : Instr} {s : State} {env : List Move} {n : Nat} {evs : List Event} (hadm : Admitted i s)
    (henv : s.env = List.replicate 24 (.answer .ok) ++ env) (hstall : NoStall env) (hn : n ≤ 24)
    (h : SucceedsWith n evs (procedure s.cfg i)) : ∃ env', exec i s = .next (endState i evs env' s) := by
  refine ⟨List.replicate (24 - n) (.answer .ok) ++ env, exec_of_succeeds hadm ?_ ?_ h⟩
  · rw [henv, ← List.append_assoc, ← List.replicate_add, Nat.add_sub_cancel' hn]
  · rw [← List.map_replicate]
    exact noStall_answers_append _ hstall

/-- The events of each operation with all writes answered `ok`. -/
def okEvents (c : Config) : Instr → List Event
  | .nib rs n => nibbleEvents c n rs
  | .byte rs v => byteEvents c v rs
  | .init => initEvents c
  | .goto row col => byteEvents c (setAddrCommand (ddramAddr row col)) .command
  | .clear => byteEvents c 0x01#8 .command ++ [.wait c.tClear]
  | .reservedZero _ | .reservedSixSeven _ _ | .reservedHigh _ _ => []
  | .force8 => nibbleEvents c 0x3#4 .command
  | .switch4 => nibbleEvents c 0x2#4 .command
  | .functionSet => byteEvents c 0x28#8 .command
  | .displayControl => byteEvents c 0x0C#8 .command
  | .entryModeSet => byteEvents c 0x06#8 .command
  | .clearDisplay => byteEvents c 0x01#8 .command
  | .setDdramAddr a => byteEvents c (setAddrCommand a) .command
  | .charData v => byteEvents c v .data

theorem succeedsWith_procedure (c : Config) (i : Instr) : ∃ n ≤ 24, SucceedsWith n (okEvents c i) (procedure c i) := by
  cases i with
  | init => exact ⟨24, le_rfl, succeedsWith_procInit c⟩
  | clear => exact ⟨4, by omega, (succeedsWith_byte c 0x01#8 .command).andThen (succeedsWith_wait _)⟩
  | nib | force8 | switch4 => exact ⟨2, by omega, succeedsWith_nibble _ _ _⟩
  | byte | goto | functionSet | displayControl | entryModeSet | clearDisplay | setDdramAddr | charData =>
    exact ⟨4, by omega, succeedsWith_byte _ _ _⟩
  | reservedZero | reservedSixSeven | reservedHigh => exact ⟨0, by omega, fun _ => rfl⟩

/-- The link when an operation has emitted `evs` from its start on. -/
def linkAfter (i : Instr) (evs : List Event) (s : State) : Link :=
  (evs.foldl (fun (d : Display) e => d.see s.cfg e) { s.display with link := s.display.link.start i }).link

/-- The link when an operation has ended (R186, R187). -/
theorem endState_link (i : Instr) (evs : List Event) (env : List Move) (s : State) :
    (endState i evs env s).display.link =
      if i = .init then (linkAfter i evs s).initDone else linkAfter i evs s := by
  cases i <;> rfl

/-- Settles O49: without failure a nibble turns the link once and a byte twice, from where the operation starts it. -/
theorem nibblePairing : Obligations.NibblePairing := by
  intro i s env hc hadm henv hstall
  obtain ⟨n, hn, hok⟩ := succeedsWith_procedure s.cfg i
  obtain ⟨env', hexec⟩ := exec_of_24_ok hadm henv hstall hn hok
  refine ⟨_, hexec, fun hbyte => ?_, ?_, ?_⟩
  · have hlink : (endState i (okEvents s.cfg i) env' s).display.link = s.display.link.otherRequest.turn.turn := by
      rcases hbyte with ⟨rs, v, rfl⟩ | ⟨row, col, rfl⟩ | rfl <;>
        rw [endState_link, if_neg (by simp), linkAfter, okEvents]
      · rw [foldl_see_byteEvents hc, Link.start]
      · rw [foldl_see_byteEvents hc, Link.start]
      · rw [List.foldl_append, List.foldl_cons, List.foldl_nil, Display.see, foldl_see_byteEvents hc, Link.start]
    rw [hlink]
    constructor <;> intro hl <;> rw [hl] <;> rfl
  · rintro ⟨rs, n, rfl⟩
    have hlink : (endState (.nib rs n) (okEvents s.cfg (.nib rs n)) env' s).display.link = s.display.link.turn := by
      rw [endState_link, if_neg (by simp), linkAfter, okEvents, foldl_see_nibbleEvents hc, Link.start]
    rw [hlink]
    constructor <;> intro hl <;> rw [hl] <;> rfl
  · rintro rfl
    have hlink := foldl_see_initEvents hc (d := { s.display with link := s.display.link.start .init }) rfl
    rw [endState_link, if_pos rfl, linkAfter, okEvents, hlink]
    rfl

/-- After a failed write the controller is unknown to the end of the events (R186). -/
theorem foldl_see_of_failed (c : Config) {evs : List Event} {v : Byte} {l : Bool} (h : Event.write v (.fail l) ∈ evs)
    (d : Display) : (evs.foldl (fun d e => d.see c e) d).link = .unknown := by
  obtain ⟨before, after, rfl⟩ := List.append_of_mem h
  rw [List.foldl_append, List.foldl_cons]
  exact foldl_see_unknown c after _ rfl

/-- Settles O51: the operation ends with the events of its pseudocode, after which the controller is unknown. -/
theorem failureLosesTheController : Obligations.FailureLosesTheController := by
  intro i s as left rest evs v l hadm henv hstall hproc hfail
  have hlink : linkAfter i evs s = .unknown := foldl_see_of_failed s.cfg hfail _
  refine ⟨_, exec_of_procedure hadm henv hstall hproc, ?_⟩
  rw [endState_link, hlink]
  split <;> rfl

/-! ### Durations -/

/-- Settles O37: the events are those without failure, whose writes and waits are counted nibble by nibble. -/
theorem minimumDurations : Obligations.MinimumDurations := by
  intro i evs left h
  obtain ⟨n, hn, hok⟩ := succeedsWith_procedure Config.standard i
  have hevs : evs = okEvents Config.standard i := by
    have h24 := hok (List.replicate (24 - n) .ok)
    rw [← List.replicate_add, Nat.add_sub_cancel' hn, h] at h24
    simp only [Option.some.injEq, Prod.mk.injEq] at h24
    exact h24.1
  subst hevs
  refine ⟨?_, ?_, ?_, ?_, ?_⟩
  · rintro ⟨rs, n, rfl⟩
    exact ⟨rfl, totalWait_nibbleEvents ..⟩
  · rintro ⟨rs, v, rfl⟩
    exact ⟨rfl, totalWait_byteEvents ..⟩
  · rintro ⟨row, col, rfl⟩
    exact ⟨rfl, totalWait_byteEvents ..⟩
  · rintro rfl
    exact ⟨rfl, by rw [okEvents, totalWait_append, totalWait_byteEvents]; rfl⟩
  · rintro rfl
    exact ⟨length_writesOf_initEvents _, totalWait_initEvents _⟩

end Sys2Proof.Machine
end

section
/-! PROOFS. The words of the tables and of the assembler (30_encoding.md R62, R75), what a step runs (10_state.md R21),
the reserved rows (R64), the address range (42_cursor_clear.md R123) and the invariants after reset. -/

namespace Sys2Proof.Machine

/-! ### Words -/

/-- Settles O4: the seven words, one by one. -/
theorem specWordsDecode : Obligations.SpecWordsDecode := by
  unfold Obligations.SpecWordsDecode
  decide

/-- R75: the word of NIB as a number. -/
theorem encodeWord_nib (rs : RegSel) (n : Nibble) :
    encodeWord (.nib rs n) = BitVec.ofNat 24 ((if rs = .data then 0x110000 else 0x100000) + n.toNat) := by
  revert n
  cases rs <;> decide

/-- R75: the word of BYTE as a number. -/
theorem encodeWord_byte (rs : RegSel) (v : Byte) :
    encodeWord (.byte rs v) = BitVec.ofNat 24 ((if rs = .data then 0x210000 else 0x200000) + v.toNat) := by
  revert v
  cases rs <;> decide

theorem assemble_nib (rs : RegSel) (v : Nat) :
    assemble (.nib rs v) =
      if v < 16 then some (BitVec.ofNat 24 ((if rs = .data then 0x110000 else 0x100000) + v)) else none := by
  simp only [assemble, assembleInstr]
  split
  · next hv => rw [Option.map_some, encodeWord_nib, BitVec.toNat_ofNat, Nat.mod_eq_of_lt hv]
  · rfl

theorem assemble_byte (rs : RegSel) (v : Nat) :
    assemble (.byte rs v) =
      if v < 256 then some (BitVec.ofNat 24 ((if rs = .data then 0x210000 else 0x200000) + v)) else none := by
  simp only [assemble, assembleInstr]
  split
  · next hv => rw [Option.map_some, encodeWord_byte, BitVec.toNat_ofNat, Nat.mod_eq_of_lt hv]
  · rfl

theorem assemble_goto (u v : Nat) :
    assemble (.goto u v) =
      if u < 256 ∧ v < 256 then some (BitVec.ofNat 24 (0x400000 + 256 * u + v)) else none := by
  simp only [assemble, assembleInstr]
  split
  · next huv =>
    rw [Option.map_some, encodeWord_goto, BitVec.toNat_ofNat, BitVec.toNat_ofNat, Nat.mod_eq_of_lt huv.1,
      Nat.mod_eq_of_lt huv.2]
  · rfl

/-- `PUTC v` is a CMD or a DATA (R75). -/
theorem assemble_putc (v : Nat) :
    assemble (.putc v) = if v = 0x0A then assemble (.cmd 0xC0) else assemble (.data v) := by
  by_cases hv : v < 256
  · have hten : BitVec.ofNat 8 v = 0x0A#8 ↔ v = 0x0A := by
      rw [← BitVec.toNat_inj, BitVec.toNat_ofNat, Nat.mod_eq_of_lt hv]
      rfl
    by_cases h : v = 0x0A
    · subst h
      rfl
    · simp only [assemble, assembleInstr, if_pos hv, putc, hten, if_neg h]
  · have h : v ≠ 0x0A := by omega
    simp only [assemble, assembleInstr, if_neg hv, if_neg h]

/-- Settles O5: row by row of the syntax table. -/
theorem assemblerWords : Obligations.AssemblerWords := fun v u =>
  ⟨assemble_nib .command v, assemble_nib .data v, assemble_byte .command v, assemble_byte .data v, rfl,
    assemble_goto u v, rfl, rfl, rfl, assemble_putc v⟩

/-! ### What a step runs -/

/-- Settles O6: acceptance latches the word and sets busy. -/
theorem stepRunsDecoded : Obligations.StepRunsDecoded :=
  fun _ _ _ _ _ hbusy hoffers hdec => step_of_decode_instr hbusy hoffers hdec

/-- A transfer is an instruction of a transfer format (log 8). -/
theorem isTransfer_iff (i : Instr) : i.isTransfer = true ↔ encodeFormat i ≠ .req24 := by
  cases i <;> simp [Instr.isTransfer, encodeFormat]

/-- What a word decodes to is a transfer exactly in the transfer formats. -/
theorem isTransfer_of_decode {f : Format} {w : ReqWord} {i : Instr} (h : decode f w = .instr i) :
    i.isTransfer = true ↔ f ≠ .req24 := by
  have hf : encodeFormat i = f := congrArg Prod.fst (encodeOfDecode f w i h).2
  rw [isTransfer_iff, hf]

theorem decode_of_decodeTableWord {nbits w : Nat} {i : Instr} (h : decodeTableWord nbits w = some i) :
    decode (tableFormat nbits w) (BitVec.ofNat 24 w) = .instr i := by
  unfold decodeTableWord at h
  split at h
  · next hdec =>
    cases h
    exact hdec
  · cases h

/-- Settles O7: the placed word is the first offer, and acceptance latches it when it is a request. -/
theorem placedWordRuns : Obligations.PlacedWordRuns := by
  intro s nbits w i h
  have hdec := decode_of_decodeTableWord h
  have htr := isTransfer_of_decode hdec
  have hstep : step (s.withFetchWord nbits w) =
      exec i (accept (tableOffer nbits w) s.offers (s.withFetchWord nbits w)) := step_of_decode_instr rfl rfl hdec
  rw [hstep]
  cases hf : tableFormat nbits w with
  | req24 =>
    have hrequest : i.isTransfer = false := by simpa [hf] using htr
    simp [accept, tableOffer, State.withFetchWord, placeOffer, hf, hrequest]
  | nibble | command | character =>
    have htransfer : i.isTransfer = true := by simp [htr, hf]
    simp [accept, tableOffer, State.withFetchWord, placeOffer, hf, htransfer]

/-! ### The reserved rows, the address range and the state after reset -/

/-- Settles O23: each of the three meanings is the rejection with ILLEGAL. -/
theorem reservedRejected : Obligations.ReservedRejected := by
  intro s op rest link
  have hreject : s.reject .illegal = rejectedWith 1#2 link s := by
    rw [reject_eq_rejectedWith, otherRequest_eq]
    rfl
  exact ⟨congrArg _ hreject, congrArg _ hreject, congrArg _ hreject⟩

/-- The greatest offset is that of row 3 (R27). -/
theorem rowOffset_le (r : Fin 4) : (rowOffset r).toNat ≤ 0x54 := by
  revert r; decide

/-- Settles O26: the sum stays below 128. -/
theorem addressInRange : Obligations.AddressInRange := by
  intro row col _ hcol
  have hoffset := rowOffset_le (clampRow row)
  have haddr : (ddramAddr row col).toNat = (rowOffset (clampRow row)).toNat + col.toNat := by
    rw [toNat_ddramAddr, Nat.mod_eq_of_lt (by omega)]
  exact ⟨by omega, haddr, by rw [toNat_setAddrCommand, haddr]⟩

/-- Settles O45: the defaults are legal whatever the OPEN parameters are, and everything else is empty, idle or
unknown. -/
theorem invariantsAtReset : Obligations.InvariantsAtReset := by
  refine ⟨⟨standard_wf, Nat.two_pow_pos _, by simp [State.reset], by simp [State.reset], rfl, rfl, .inl rfl⟩,
    by simp [State.WritesOk, State.reset, writesOf], ⟨rfl, le_rfl, rfl⟩, fun _ => rfl, ?_, ?_⟩
  · simp [State.reset]
  · simp [State.reset, InitState.isStep]

end Sys2Proof.Machine
end

section
/-! PROOFS. Merging the waits of a trace (00_scope.md R16). -/

namespace Sys2Proof.Machine

/-- A wait before a merged trace: it joins the wait that stands first. -/
def joinWait (us : Nat) : List Event → List Event
  | .wait us' :: rest => .wait (us + us') :: rest
  | [] => [.wait us]
  | .write v a :: rest => .wait us :: .write v a :: rest

theorem mergeWaits_wait_eq_joinWait (us : Nat) (a : List Event) :
    mergeWaits (.wait us :: a) = joinWait us (mergeWaits a) := by
  rw [mergeWaits_wait]
  rcases mergeWaits a with _ | ⟨⟨v, r⟩ | us', rest⟩ <;> rfl

@[simp] theorem writesOf_joinWait (us : Nat) (l : List Event) : writesOf (joinWait us l) = writesOf l := by
  rcases l with _ | ⟨⟨v, r⟩ | us', rest⟩ <;> rfl

@[simp] theorem totalWait_joinWait (us : Nat) (l : List Event) : totalWait (joinWait us l) = us + totalWait l := by
  rcases l with _ | ⟨⟨v, r⟩ | us', rest⟩ <;> simp [joinWait, totalWait, Nat.add_assoc]

/-- A write ends the run of waits that a wait can join. -/
theorem joinWait_append_write (us : Nat) (l : List Event) (v : Byte) (r : Answer) (b : List Event) :
    joinWait us (l ++ .write v r :: b) = joinWait us l ++ .write v r :: b := by
  rcases l with _ | ⟨⟨v, r⟩ | us', rest⟩ <;> rfl

theorem joinWait_joinWait (us us' : Nat) (l : List Event) : joinWait us (joinWait us' l) = joinWait (us + us') l := by
  rcases l with _ | ⟨⟨v, r⟩ | us', rest⟩ <;> simp [joinWait, Nat.add_assoc]

theorem mergeWaits_joinWait (us : Nat) (l : List Event) : mergeWaits (joinWait us l) = joinWait us (mergeWaits l) := by
  rcases l with _ | ⟨⟨v, r⟩ | us', rest⟩
  · rfl
  · rw [joinWait, mergeWaits_wait_eq_joinWait]
  · rw [joinWait, mergeWaits_wait_eq_joinWait, mergeWaits_wait_eq_joinWait, joinWait_joinWait]

theorem writesOf_mergeWaits (a : List Event) : writesOf (mergeWaits a) = writesOf a := by
  induction a with
  | nil => rfl
  | cons e a ih =>
    cases e with
    | write v r => simp [writesOf, ih]
    | wait us => rw [mergeWaits_wait_eq_joinWait, writesOf_joinWait, ih, writesOf]

theorem totalWait_mergeWaits (a : List Event) : totalWait (mergeWaits a) = totalWait a := by
  induction a with
  | nil => rfl
  | cons e a ih =>
    cases e with
    | write v r => simp [totalWait, ih]
    | wait us => rw [mergeWaits_wait_eq_joinWait, totalWait_joinWait, ih, totalWait]

theorem mergeWaits_mergeWaits (a : List Event) : mergeWaits (mergeWaits a) = mergeWaits a := by
  induction a with
  | nil => rfl
  | cons e a ih =>
    cases e with
    | write v r => simp [ih]
    | wait us => rw [mergeWaits_wait_eq_joinWait, mergeWaits_joinWait, ih]

/-- A wait that joins its neighbour leaves no two adjacent waits where there were none. -/
theorem joinWait_no_adjacent {l : List Event}
    (h : ∀ (pre post : List Event) (u u' : Nat), l ≠ pre ++ .wait u :: .wait u' :: post) (us : Nat)
    (pre post : List Event) (u u' : Nat) : joinWait us l ≠ pre ++ .wait u :: .wait u' :: post := by
  intro heq
  rcases l with _ | ⟨⟨v, r⟩ | w, rest⟩ <;> rcases pre with _ | ⟨e, pre⟩ <;> simp [joinWait] at heq
  case cons.write.cons => exact h pre post u u' heq.2
  case cons.wait.nil => exact h [] post w u' (by simp [heq.2])
  case cons.wait.cons => exact h (.wait w :: pre) post u u' (by simp [heq.2])

theorem mergeWaits_no_adjacent (a pre post : List Event) (u u' : Nat) :
    mergeWaits a ≠ pre ++ .wait u :: .wait u' :: post := by
  induction a generalizing pre post u u' with
  | nil => simp [mergeWaits]
  | cons e a ih =>
    cases e with
    | wait us =>
      rw [mergeWaits_wait_eq_joinWait]
      exact joinWait_no_adjacent ih us pre post u u'
    | write v r =>
      rw [mergeWaits_write]
      intro heq
      rcases pre with _ | ⟨e, pre⟩ <;> simp at heq
      exact ih pre post u u' heq.2

/-- Merging splits at every write. -/
theorem mergeWaits_append_write (a : List Event) (v : Byte) (r : Answer) (b : List Event) :
    mergeWaits (a ++ .write v r :: b) = mergeWaits a ++ .write v r :: mergeWaits b := by
  induction a with
  | nil => rfl
  | cons e a ih =>
    cases e with
    | write v' r' => simp [ih]
    | wait us =>
      rw [List.cons_append, mergeWaits_wait_eq_joinWait, ih, joinWait_append_write, mergeWaits_wait_eq_joinWait]

/-- `joinWait` on the trace of R16, without the answers. -/
def joinPortWait (us : Nat) : List PortEvent → List PortEvent
  | .wait us' :: rest => .wait (us + us') :: rest
  | [] => [.wait us]
  | .write v :: rest => .wait us :: .write v :: rest

/-- `mergeWaits` on the trace of R16. -/
def mergePortWaits : List PortEvent → List PortEvent
  | [] => []
  | .write v :: rest => .write v :: mergePortWaits rest
  | .wait us :: rest => joinPortWait us (mergePortWaits rest)

theorem portTrace_joinWait (us : Nat) (l : List Event) : portTrace (joinWait us l) = joinPortWait us (portTrace l) := by
  rcases l with _ | ⟨⟨v, r⟩ | us', rest⟩ <;> rfl

/-- Merging looks at no answer. -/
theorem portTrace_mergeWaits (a : List Event) : portTrace (mergeWaits a) = mergePortWaits (portTrace a) := by
  induction a with
  | nil => rfl
  | cons e a ih =>
    cases e with
    | write v r => rw [mergeWaits_write, portTrace, portTrace, mergePortWaits, ih]
    | wait us => rw [mergeWaits_wait_eq_joinWait, portTrace_joinWait, portTrace, mergePortWaits, ih]

theorem traceEquiv_of_traceEq {a b : List Event} (h : TraceEq a b) : TraceEquiv a b := by
  rw [TraceEquiv, TraceEq, portTrace_mergeWaits, portTrace_mergeWaits, h]

/-- Settles O36: merging is a fold of `joinWait`, which keeps writes, the sum of the waits, and equality of traces. -/
theorem mergedTraceIsEquivalent : Obligations.MergedTraceIsEquivalent := fun a =>
  ⟨writesOf_mergeWaits a, totalWait_mergeWaits a, congrArg portTrace (mergeWaits_mergeWaits a),
    mergeWaits_no_adjacent a, mergeWaits_append_write a, fun _ => traceEquiv_of_traceEq⟩

end Sys2Proof.Machine
end

section
/-! PROOFS. A run that is held up (10_state.md R21, R23, 70_reset_and_hazards.md R190, R191): where it stands when the
answers run out or a wait is watched, and that the step which lets it go on gives the run it would have been at once. -/

namespace Sys2Proof.Machine

/-! ### The steps with which a held-up run goes on -/

section
variable {s : State} {i : Instr} {k : Nat} (hbusy : s.busy = true) (hseq : s.seq = .running i k)
include hbusy hseq

/-- The answer has come: the operation goes on from its write (R41). -/
theorem step_answered {a : Answer} {env : List Move} (hoffer : s.busOffer ≠ none) (henv : s.env = .answer a :: env) :
    step s = .next (resume i k s) := by
  obtain ⟨v, hv⟩ := Option.ne_none_iff_exists'.1 hoffer
  simp only [step_of_executing hbusy hseq, stepBusy, progress, henv, waiting_of_busOffer hoffer, hv]

/-- With an answer or nothing next, a wait runs out (R162). -/
theorem step_waited {us : Nat} (hw : s.waiting = some us) (henv : s.env = [] ∨ ∃ a env, s.env = .answer a :: env) :
    step s = .next (endWait i k us s) := by
  rcases henv with henv | ⟨a, env, henv⟩ <;>
    simp only [step_of_executing hbusy hseq, stepBusy, progress, henv, hw]

/-- One clock edge of a watched wait (R190). -/
theorem step_clock {us : Nat} {env : List Move} (hw : s.waiting = some us) (henv : s.env = .clock :: env) :
    step s = .next (if s.delay ≤ 1 then endWait i k us { s with env := env }
      else { s with env := env, delay := s.delay - 1 }) := by
  have hw' : ({ s with env := env } : State).waiting = some us := hw
  simp only [step_of_executing hbusy hseq, stepBusy, henv, clockEdge, hw']

end

/-! ### Waits -/

/-- A wait that ends emits its event first, and the block is then idle or stands further on (R190). -/
theorem endWait_goes_on (i : Instr) (k us : Nat) {s : State} (hbusy : s.busy = true) :
    (s.trace ++ [.wait us]) <+: (endWait i k us s).trace ∧
    ((endWait i k us s).busy = false ∧ (endWait i k us s).seq = .idle ∨
      (endWait i k us s).busy = true ∧ ∃ k', k < k' ∧ (endWait i k us s).seq = .running i k') := by
  have hres := endWait_result i k us s
  obtain ⟨-, -, -, htrace, -⟩ := hres.keeps
  exact ⟨htrace, (hres.idle_or_executing hbusy).imp id fun ⟨hb, hseq, _⟩ => ⟨hb, hseq⟩⟩

/-- Settles O38: a watched wait is loaded with a count that covers it, an edge counts or ends it, and behind the wait
the rest of the list is run. -/
theorem delayCounterCounts : Obligations.DelayCounterCounts := by
  refine ⟨fun s t extra c i k rest env henv => ?_, fun s i k us env hbusy hseq hw henv => ⟨fun hd => ?_, fun hd => ?_⟩,
    fun s i k us hbusy hseq hw henv => ⟨_, rfl, step_waited hbusy hseq hw henv, endWait_goes_on i k us hbusy⟩⟩
  · refine ⟨loadCount s.cfg t extra, ?_, loadCount_lt .., ⟨minCount s.cfg t, (minCount_covers ..).1,
      (minCount_covers ..).2, ?_⟩, fun hc ht => ?_⟩
    · rw [runSlots_enter, runSlots_wait_watched i t rest k _ extra env (by simpa using henv)]
      cases c <;> rfl
    · rw [loadCount, maxCount]
    · exact (minCount_covers s.cfg t).1.trans (Nat.mul_le_mul_right _ (minCount_le_loadCount s.cfg t extra hc ht))
  · rw [step_clock hbusy hseq hw henv, if_neg (Nat.not_le.2 hd)]
  · refine ⟨_, rfl, ?_, endWait_goes_on i k us (s := { s with env := env }) hbusy⟩
    rw [step_clock hbusy hseq hw henv, if_pos hd]
    rfl

/-! ### A run whose answers run out -/

/-- The sequencer stands at a write of `slots`, whose first entry has index `k`. -/
def StandsAtWrite (i : Instr) (slots : List Slot) (k : Nat) (t : State) : Prop :=
  ∃ j sl v n, slots[j]? = some sl ∧ sl.action = .write v n ∧ t.seq = .running i (k + j)

theorem StandsAtWrite.cons {i : Instr} {slots : List Slot} {k : Nat} {t : State} (sl : Slot)
    (h : StandsAtWrite i slots (k + 1) t) : StandsAtWrite i (sl :: slots) k t := by
  obtain ⟨j, sl', v, n, hsl, hact, hseq⟩ := h
  exact ⟨j + 1, sl', v, n, by simpa using hsl, hact, by rw [hseq, Nat.add_assoc, Nat.add_comm 1 j]⟩

/-- The answers run out at a write: the run stands there, and what the outside does next is still to come. -/
theorem runSlots_runs_out {i : Instr} {slots : List Slot} {k skip : Nat} {s : State} {as : List Answer}
    {rest : List Move} (henv : s.env = as.map .answer ++ rest) (hrest : NoStall rest)
    (hno : ∀ a more, rest ≠ .answer a :: more) (hplay : play slots skip as = none) :
    StandsAtWrite i slots k (runSlots i slots k skip s) ∧ (runSlots i slots k skip s).env = rest ∧
      (runSlots i slots k skip s).busy = s.busy := by
  induction slots generalizing k skip s as with
  | nil => cases hplay
  | cons sl slots ih =>
    cases skip with
    | succ m =>
      obtain ⟨hstands, ht, hb⟩ := ih (k := k + 1) henv hplay
      exact ⟨hstands.cons sl, ht, hb⟩
    | zero =>
      obtain ⟨c, act⟩ := sl
      rw [runSlots_enter]
      cases act with
      | write v n =>
        cases as with
        | nil =>
          have henv' : s.env = rest := henv
          rw [runSlots_write_waits i v n slots k _ (by simpa [henv'] using hno)]
          exact ⟨⟨0, _, v, n, rfl, rfl, rfl⟩, by simpa using henv', by simp⟩
        | cons a as =>
          rw [runSlots_write_answered i v n slots k _ a (as.map .answer ++ rest) (by simp [henv])]
          have hplay' : play slots (a.removes n) as = none := by simpa [play] using hplay
          obtain ⟨hstands, ht, hb⟩ := ih (k := k + 1)
            (s := (s.enter c).emitWrite v a (as.map .answer ++ rest)) rfl hplay'
          exact ⟨hstands.cons _, ht, by simpa using hb⟩
      | wait us =>
        have hplay' : play slots 0 as = none := by simpa [play] using hplay
        rw [runSlots_wait_passes i us slots k _ (by simpa [henv] using noStall_answers_append as hrest)]
        obtain ⟨hstands, ht, hb⟩ := ih (k := k + 1) (s := (s.enter c).emitWait us) (by simpa using henv) hplay'
        exact ⟨hstands.cons _, ht, by simpa using hb⟩

/-- Settles O10: the run stands at the write for which no answer is left, and an answered write is the first entry of
what is left of the list. -/
theorem runsOutAtAWrite : Obligations.RunsOutAtAWrite := by
  refine ⟨fun i s as rest hadm henv hrest hno hproc => ?_, fun i s k v a env hbusy hseq hoffer henv => ?_⟩
  · have hplay : play (eventList s.cfg i) 0 as = none := ((performs_eventList s.cfg i).play_eq as).trans hproc
    obtain ⟨⟨j, sl, v, n, hsl, hact, hstands⟩, ht, hb⟩ := runSlots_runs_out (i := i) (k := 0)
      (s := started i s) henv hrest hno hplay
    have hcfg : (begin i s).cfg = s.cfg := (begin_result i s).keeps.1
    rw [← hcfg, ← Nat.zero_add j] at hsl
    exact ⟨begin i s, exec_admitted i s hadm, hb, ⟨_, hstands⟩, by
      rw [(port_of_write (s := begin i s) hstands hsl hact).1]
      simp, ht⟩
  · have hstep := step_answered hbusy hseq (by simp [hoffer]) henv
    rcases position_cases hseq with ⟨sl, v', n, hsl, hact, hv, -⟩ | ⟨sl, us, -, -, hnone, -⟩ | ⟨-, hnone, -⟩
    · obtain rfl : v' = v := by simpa [hv] using hoffer
      obtain ⟨c, act⟩ := sl
      cases hact
      have hrun : resume i k s = runSlots i ((eventList s.cfg i).drop (k + 1)) (k + 1) (a.removes n)
          ((s.enter c).emitWrite v' a env) := by
        obtain ⟨hk, hnext⟩ := List.getElem?_eq_some_iff.1 hsl
        rw [resume, List.drop_eq_getElem_cons hk, hnext, runSlots_enter,
          runSlots_write_answered i v' n _ k _ a env (by simpa using henv)]
      have hres := runSlots_result i ((eventList s.cfg i).drop (k + 1)) (k + 1) (a.removes n)
        ((s.enter c).emitWrite v' a env)
      obtain ⟨-, -, -, htrace, hleft⟩ := hres.keeps
      refine ⟨_, ⟨c, .write v' n⟩, n, hsl, rfl, rfl, by rw [hstep, hrun], by simpa using htrace, hleft, ?_⟩
      exact (hres.idle_or_executing (by simpa using hbusy)).imp id fun ⟨hb, hseq, _⟩ => ⟨hb, hseq⟩
    · cases hoffer.symm.trans hnone
    · cases hoffer.symm.trans hnone

/-! ### A held-up run is the same run -/

theorem NoStall.append {a b : List Move} (ha : NoStall a) (hb : NoStall b) : NoStall (a ++ b) := by
  cases a with
  | nil => exact hb
  | cons m a => cases m <;> exact ha

/-- A script that watches its last wait but not its next one does not watch its next one without that. -/
theorem noStall_of_append_stall {a : List Move} {extra : Nat} (ha : NoStall (a ++ [.stall extra])) (b : List Move) :
    NoStall (a ++ b) := by
  cases a with
  | nil => exact ha.elim
  | cons m a => cases m <;> exact ha

/-- An entry whose code has been written is run like the entry (R112): the code is written once more. -/
theorem runSlots_entered_again (i : Instr) (c : Option InitState) (act : Action) (slots : List Slot) (k : Nat)
    (s : State) (q : Seq) :
    runSlots i (⟨c, act⟩ :: slots) k 0 { s.enter c with seq := q } = runSlots i (⟨c, act⟩ :: slots) k 0 s := by
  rw [runSlots_ignores_seq, runSlots_enter, runSlots_enter]
  cases c <;> rfl

/-- The run `t` of a list from `s`, with the script used up, stands at the entry `sl` with index `j`, and goes on from
there as the run of the whole list would have: from a write with an answer that comes, and behind a watched wait. -/
structure HeldUp (i : Instr) (slots : List Slot) (k skip : Nat) (s t : State) (j : Nat) (sl : Slot) : Prop where
  entry : slots[j]? = some sl
  seq : t.seq = .running i (k + j)
  goesOn :
    (∃ v n, sl.action = .write v n ∧ ∀ a more,
      runSlots i slots k skip { s with env := s.env ++ .answer a :: more } =
        runSlots i (slots.drop j) (k + j) 0 { t with env := .answer a :: more }) ∨
    (∃ us extra before, sl.action = .wait us ∧ s.env = before ++ [.stall extra] ∧ ∀ more, NoStall more →
      runSlots i slots k skip { s with env := before ++ more } =
        runSlots i (slots.drop (j + 1)) (k + j + 1) 0 (State.emitWait us { t with env := more }))

/-- A run that went on from a later entry is held up as the run of the whole list is. -/
theorem HeldUp.cons {i : Instr} {sl₀ : Slot} {slots : List Slot} {k skip skip' : Nat} {s s' t : State} {j : Nat}
    {sl : Slot} (h : HeldUp i slots (k + 1) skip' s' t j sl) (used : List Move) (henv : s.env = used ++ s'.env)
    (hanswer : ∀ a more, runSlots i (sl₀ :: slots) k skip { s with env := s.env ++ .answer a :: more } =
      runSlots i slots (k + 1) skip' { s' with env := s'.env ++ .answer a :: more })
    (hstall : ∀ before extra more, s'.env = before ++ [.stall extra] → NoStall more →
      runSlots i (sl₀ :: slots) k skip { s with env := used ++ before ++ more } =
        runSlots i slots (k + 1) skip' { s' with env := before ++ more }) :
    HeldUp i (sl₀ :: slots) k skip s t (j + 1) sl := by
  obtain ⟨hentry, hseq, hgo⟩ := h
  have hk : k + 1 + j = k + (j + 1) := by omega
  rw [hk] at hseq hgo
  refine ⟨by simpa using hentry, hseq, hgo.imp ?_ ?_⟩
  · rintro ⟨v, n, hact, hrun⟩
    exact ⟨v, n, hact, fun a more => (hanswer a more).trans (hrun a more)⟩
  · rintro ⟨us, extra, before, hact, hbefore, hrun⟩
    exact ⟨us, extra, used ++ before, hact, by rw [henv, hbefore, List.append_assoc],
      fun more hmore => (hstall before extra more hbefore hmore).trans (hrun more hmore)⟩

/-- Every run that stands with the script used up is held up in one of the two ways. -/
theorem heldUp_of_runSlots {i : Instr} {slots : List Slot} {k skip : Nat} {s : State}
    (hb : (runSlots i slots k skip s).busy = true) (he : (runSlots i slots k skip s).env = []) :
    ∃ j sl, HeldUp i slots k skip s (runSlots i slots k skip s) j sl := by
  induction slots generalizing k skip s with
  | nil => simp [runSlots] at hb
  | cons sl slots ih =>
    cases skip with
    | succ m =>
      obtain ⟨j, sl', h⟩ := ih (k := k + 1) (skip := m) (s := s) hb he
      exact ⟨j + 1, sl', h.cons [] rfl (fun _ _ => rfl) fun _ _ _ _ _ => rfl⟩
    | zero =>
      obtain ⟨c, act⟩ := sl
      have hset : ∀ env, ({ s with env := env } : State).enter c = { s.enter c with env := env } := by
        cases c <;> exact fun _ => rfl
      cases act with
      | write v n =>
        by_cases hans : ∃ a env, s.env = .answer a :: env
        · obtain ⟨a, env, henv⟩ := hans
          have hrun : ∀ env', runSlots i (⟨c, .write v n⟩ :: slots) k 0 { s with env := .answer a :: env' } =
              runSlots i slots (k + 1) (a.removes n) { (s.enter c).emitWrite v a env with env := env' } := by
            intro env'
            rw [runSlots_enter, hset, runSlots_write_answered i v n slots k _ a env' rfl]
            rfl
          have hwhole := hrun env
          rw [← henv] at hwhole
          rw [hwhole] at hb he ⊢
          obtain ⟨j, sl', h⟩ := ih hb he
          refine ⟨j + 1, sl', h.cons [.answer a] henv (fun b more => ?_) fun before extra more hbefore hmore => ?_⟩
          · rw [henv]
            exact hrun _
          · exact hrun _
        · rw [runSlots_enter, runSlots_write_waits i v n slots k _ (by simpa using hans)] at hb he ⊢
          have henv : s.env = [] := by simpa using he
          refine ⟨0, _, rfl, rfl, .inl ⟨v, n, rfl, fun a more => ?_⟩⟩
          have hagain := runSlots_entered_again i c (.write v n) slots k { s with env := .answer a :: more }
            (.running i k)
          rw [hset] at hagain
          rw [henv]
          exact hagain.symm
      | wait us =>
        have hrun : ∀ env, NoStall env → runSlots i (⟨c, .wait us⟩ :: slots) k 0 { s with env := env } =
            runSlots i slots (k + 1) 0 { (s.enter c).emitWait us with env := env } := by
          intro env henv
          rw [runSlots_enter, hset, runSlots_wait_passes i us slots k _ henv]
          rfl
        rcases noStall_or_stall s.env with hno | ⟨extra, env, henv⟩
        · have hwhole := hrun s.env hno
          rw [hwhole] at hb he ⊢
          obtain ⟨j, sl', h⟩ := ih hb he
          refine ⟨j + 1, sl', h.cons [] rfl (fun a more => ?_) fun before extra more hbefore _ => ?_⟩
          · exact hrun _ (hno.append trivial)
          · exact hrun _ (noStall_of_append_stall (hbefore ▸ hno) more)
        · rw [runSlots_enter, runSlots_wait_watched i us slots k _ extra env (by simpa using henv)] at hb he ⊢
          obtain rfl : env = [] := he
          refine ⟨0, _, rfl, rfl, .inr ⟨us, extra, [], rfl, henv, fun more hmore => ?_⟩⟩
          rw [List.nil_append, hrun more hmore, ← runSlots_ignores_seq _ _ _ _ _ (.running i (k + 0))]
          rfl

/-- An operation that executes after `exec` has been admitted, and is held up where it stands. -/
theorem heldUp_of_exec {i : Instr} {s t : State} (h : exec i s = .next t) (hbusy : t.busy = true)
    (henv : t.env = []) :
    Admitted i s ∧ t.cfg = s.cfg ∧ ∃ j sl, HeldUp i (eventList s.cfg i) 0 0 (started i s) t j sl := by
  rcases exec_cases i s with ⟨hadm, he⟩ | ⟨-, -, he | he⟩ <;> rw [he] at h <;> cases h
  · exact ⟨hadm, (begin_result i s).keeps.1, heldUp_of_runSlots hbusy henv⟩
  · cases hbusy
  · cases hbusy

theorem admitted_env {i : Instr} {s : State} {env : List Move} (h : Admitted i { s with env := env })
    (env' : List Move) : Admitted i { s with env := env' } := by
  cases i <;> exact h

/-- Settles O11: the step that lets a held-up run go on is the run from the entry where it stands. -/
theorem heldUpRunIsTheSameRun : Obligations.HeldUpRunIsTheSameRun := by
  intro i s t moves rest
  refine ⟨fun h hbusy hoffer henv a => ?_, fun extra h hbusy hwait henv => ?_⟩
  · obtain ⟨hadm, hcfg, j, sl, hentry, hseq, hgo⟩ := heldUp_of_exec h hbusy henv
    have hcfg' : eventList t.cfg i = eventList s.cfg i := by rw [hcfg]
    rw [← hcfg', ← Nat.zero_add j] at hentry
    rcases hgo with ⟨v, n, hact, hrun⟩ | ⟨us, extra, before, hact, -, -⟩
    · rw [step_answered (s := { t with env := .answer a :: rest }) hbusy hseq hoffer rfl,
        exec_admitted i _ (admitted_env hadm _)]
      refine congrArg Host.Outcome.next (Eq.trans ?_ (hrun a rest).symm)
      rw [resume, hcfg', Nat.zero_add]
    · exact absurd (port_of_wait hseq hentry hact).1 hoffer
  · obtain ⟨hadm, hcfg, j, sl, hentry, hseq, hgo⟩ := heldUp_of_exec h hbusy henv
    have hcfg' : eventList t.cfg i = eventList s.cfg i := by rw [hcfg]
    rw [← hcfg', ← Nat.zero_add j] at hentry
    rcases hgo with ⟨v, n, hact, -⟩ | ⟨us, x, before, hact, hbefore, hrun⟩
    · exact absurd (port_of_write hseq hentry hact).2 hwait
    · obtain ⟨rfl, -⟩ := List.append_inj' hbefore rfl
      have hw : t.waiting = some us := (port_of_wait hseq hentry hact).2
      have hexec : NoStall rest →
          exec i { s with env := moves ++ rest } = .next (endWait i (0 + j) us { t with env := rest }) := by
        intro hrest
        rw [exec_admitted i _ (admitted_env hadm _)]
        refine congrArg Host.Outcome.next (Eq.trans (hrun rest hrest) ?_)
        rw [endWait, hcfg', Nat.zero_add]
      refine ⟨fun hnext => ?_, fun d hd hrest => ?_⟩
      · have hrest : NoStall rest := by
          rcases hnext with rfl | ⟨a, more, rfl⟩ <;> trivial
        rw [hexec hrest]
        exact step_waited (s := { t with env := rest }) hbusy hseq hw hnext
      · rw [hexec hrest, step_clock (s := { t with delay := d, env := .clock :: rest }) hbusy hseq hw rfl, if_pos hd]
        rfl

end Sys2Proof.Machine
end
